-- ==== Sys2Proof/Word.lean ====
section
/-! DEFINITION. The widths the spec gives the block's values (10_state.md R20, 30_encoding.md R85,
R89, R90). A bit vector stands only where the spec numbers bits or wraps. -/

namespace Sys2Proof

/-- The spec's Num, a speed, torque, acceleration or time value: the 32 bits of an IEEE 754 binary32 number
(40_numerics.md R115). -/
abbrev Num32 := BitVec 32

/-- TICK and every timestamp: TS_WIDTH = 32 bits, unsigned (00_scope.md R7, 10_state.md R27). -/
abbrev Tick := BitVec 32

/-- One queue entry, a timestamp or a Num (20_memory.md R62). -/
abbrev Entry := BitVec 32

/-- A format W port word, `op` in bits 39:32 and `arg` in bits 31:0 (30_encoding.md R85). -/
abbrev PortWord := BitVec 40

/-- A format T operation id (30_encoding.md R90). -/
abbrev OpId := BitVec 8

/-- A format S code, the value of MS (30_encoding.md R89). -/
abbrev MsCode := BitVec 3

end Sys2Proof
end

