-- ==== Sys2Proof/Config.lean ====
section
/-! DEFINITION. The configuration parameters of 00_scope.md R7, and the free values: constants
without a body, of which no proof can see more than their type. -/

namespace Sys2Proof

/-- Which way the motor is commanded to turn (30_encoding.md R88): Forward goes with positive rpm. -/
inductive Polarity where
  | forward
  | reverse
  deriving DecidableEq, Repr, Inhabited

/-- The driver's brake (10_state.md R30). -/
inductive Brake where
  | released
  | braked
  deriving DecidableEq, Repr, Inhabited

/-- The OPEN parameters of 00_scope.md R7 that a rule of the block or of the reference driver
reads: J, OMEGA_MAX, POL_RESET, BRK_RESET, over the carrier of the numerics in use (40_numerics.md
R130). R8 constrains the first two (`paramsOk`). -/
structure Params (α : Type) where
  inertia  : α
  omegaMax : α
  polReset : Polarity
  brkReset : Brake
  deriving DecidableEq, Repr

/-- The configuration record of the hardware, over binary32. -/
abbrev Cfg := Params Num32

/-- TICK_HZ: one tick is one microsecond (R7). -/
def Config.tickHz : Nat := 1000000

/-- TSQ_CAP (R7, D8). -/
def Config.tsqCap : Nat := 4

/-- CMDQ_CAP, the capacity of TQQ and of SCQ (R7, D8). -/
def Config.cmdqCap : Nat := 2

/-- POLL_TICKS, 10 ms (R7). -/
def Config.pollTicks : Nat := 10000

/-- DT_FALLBACK_TICKS, 0.001 s (R7). -/
def Config.dtFallbackTicks : Nat := 1000

/-- DT_MAX_TICKS, 1.0 s (R7). -/
def Config.dtMaxTicks : Nat := 1000000

/-- Which NaN an operation of R116 gives: the spec says only "NaN".
The first argument tells the operations apart. DESIGN CHOICE, safe, log 12. -/
opaque Config.freeNaN : Nat → Num32 → Num32 → Nat

/-- The choice of J among its legal values (R7, OPEN). Log 8. -/
opaque Config.freeInertia : Nat

/-- The choice of OMEGA_MAX among its legal values (R7, OPEN). Log 8. -/
opaque Config.freeOmegaMax : Nat

/-- CLK_HZ / TICK_HZ, less one (R7, R318, OPEN; no rule depends on it). Log 20. -/
opaque Config.freeClockMultiple : Nat

/-- CLK_HZ, a positive integer multiple of TICK_HZ (70_reset_and_hazards.md R318). -/
def Config.clkHz : Nat := Config.tickHz * (1 + Config.freeClockMultiple)

/-- The finite, strictly positive Num that `n` selects: their bit patterns are 1 to 0x7F7FFFFF
(40_numerics.md R115). Every one of them is selected by some `n`. -/
def Config.positiveNum (n : Nat) : Num32 := BitVec.ofNat 32 (1 + n % 0x7F7FFFFF)

/-- The configuration State.reset is built with. J and OMEGA_MAX are free within R8 (log 8).
DESIGN CHOICE, unsafe, log 9: POL_RESET and BRK_RESET meet the boot requirements of
70_reset_and_hazards.md R286 and R287(a). -/
def Config.built : Cfg where
  inertia  := Config.positiveNum Config.freeInertia
  omegaMax := Config.positiveNum Config.freeOmegaMax
  polReset := .forward
  brkReset := .released

end Sys2Proof
end

