-- ==== Sys2Proof/Machine/F32.lean ====
section
/-! DEFINITION. IEEE 754 binary32, round to nearest, ties to even (40_numerics.md R114 to R121).
A finite value is an integer number of units of 2^-149, so every operation computes its exact
result as a ratio of natural numbers and rounds it once, in `F32.round`. -/

namespace Sys2Proof.Machine

/-- The sign bit, bit 31 (R115). -/
def F32.signBit (x : Num32) : Bool := decide (2 ^ 31 ≤ x.toNat)

/-- Bits 30:0, biased exponent and fraction together. -/
def F32.mag (x : Num32) : Nat := x.toNat % 2 ^ 31

/-- Bits 30:0 of an infinity. -/
def F32.infMag : Nat := 0x7F800000

/-- Exponent field all ones, fraction not zero (R115). -/
def F32.isNaN (x : Num32) : Bool := decide (F32.infMag < F32.mag x)

/-- Exponent field all ones, fraction zero (R115). -/
def F32.isInf (x : Num32) : Bool := decide (F32.mag x = F32.infMag)

/-- Neither NaN nor infinity: `arg[30:23] ≠ 0xFF` (30_encoding.md R101). -/
def F32.isFinite (x : Num32) : Bool := decide (F32.mag x < F32.infMag)

/-- The value of a finite magnitude, in units of 2^-149: subnormals as they are, a normal number
with exponent field `e` as (2^23 + fraction) · 2^(e-1) (R115). -/
def F32.units (m : Nat) : Nat :=
  if m < 2 ^ 23 then m else (2 ^ 23 + m % 2 ^ 23) * 2 ^ (m / 2 ^ 23 - 1)

/-- The value of a finite Num, in units of 2^-149. -/
def F32.value (x : Num32) : Int :=
  if F32.signBit x then -(F32.units (F32.mag x) : Int) else (F32.units (F32.mag x) : Int)

/-- The Num with this sign and these bits 30:0. -/
def F32.pack (neg : Bool) (m : Nat) : Num32 := BitVec.ofNat 32 (m + if neg then 2 ^ 31 else 0)

/-- `p / d` to the nearest integer, ties to even. -/
def F32.nearest (p d : Nat) : Nat :=
  if d < 2 * (p % d) ∨ (2 * (p % d) = d ∧ p / d % 2 = 1) then p / d + 1 else p / d

/-- How many low bits the significand of `n` units gives up: all above 24 bits. -/
def F32.excess (n : Nat) : Nat := Nat.log2 n - 23

/-- Bits 30:0 of the magnitude nearest to `p / q` units of 2^-149, ties to even; at or above the
overflow threshold, infinity (R116). The significand, counted on from `excess · 2^23`, is the bit
pattern itself: a carry out of the significand raises the exponent field by one. -/
def F32.round (p q : Nat) : Nat :=
  min (F32.excess (p / q) * 2 ^ 23 + F32.nearest p (q * 2 ^ F32.excess (p / q))) F32.infMag

/-- The NaN that operation number `op` gives on these operands: some NaN, which one is free
(log 12). -/
def F32.nan (op : Nat) (x y : Num32) : Num32 :=
  F32.pack (decide (Config.freeNaN op x y % 2 = 1))
    (F32.infMag + 1 + Config.freeNaN op x y / 2 % (2 ^ 23 - 1))

/-- `fneg`: flips the sign bit (R117). -/
def F32.neg (x : Num32) : Num32 := F32.pack (!F32.signBit x) (F32.mag x)

/-- `fabs`: clears the sign bit (R117). -/
def F32.abs (x : Num32) : Num32 := F32.pack false (F32.mag x)

/-- The sum of two finite Nums. PRESUMED (IEEE 754, log 17): an exact zero is +0.0 unless both
operands are negative. -/
def F32.addFinite (x y : Num32) : Num32 :=
  if F32.value x + F32.value y = 0 then F32.pack (F32.signBit x && F32.signBit y) 0
  else F32.pack (decide (F32.value x + F32.value y < 0))
    (F32.round (F32.value x + F32.value y).natAbs 1)

/-- `fadd` (R116). -/
def F32.add (x y : Num32) : Num32 :=
  if F32.isNaN x || F32.isNaN y then F32.nan 0 x y
  else if F32.isInf x then
    if F32.isInf y && (F32.signBit x != F32.signBit y) then F32.nan 0 x y else x
  else if F32.isInf y then y
  else F32.addFinite x y

/-- `fsub` (R116): the sum with the second operand's sign flipped. -/
def F32.sub (x y : Num32) : Num32 := F32.add x (F32.neg y)

/-- The sign of a product or quotient. PRESUMED (IEEE 754, log 17): also of a zero. -/
def F32.signXor (x y : Num32) : Bool := F32.signBit x != F32.signBit y

/-- `fmul` (R116). The product of two values in units is in units of 2^-298. -/
def F32.mul (x y : Num32) : Num32 :=
  if F32.isNaN x || F32.isNaN y then F32.nan 1 x y
  else if F32.isInf x || F32.isInf y then
    if F32.mag x = 0 ∨ F32.mag y = 0 then F32.nan 1 x y else F32.pack (F32.signXor x y) F32.infMag
  else F32.pack (F32.signXor x y)
    (F32.round (F32.units (F32.mag x) * F32.units (F32.mag y)) (2 ^ 149))

/-- `fdiv` (R116): 0/0 and ∞/∞ are NaN, x/0 = ±∞, x/∞ = 0. -/
def F32.div (x y : Num32) : Num32 :=
  if F32.isNaN x || F32.isNaN y then F32.nan 2 x y
  else if F32.isInf x then
    if F32.isInf y then F32.nan 2 x y else F32.pack (F32.signXor x y) F32.infMag
  else if F32.isInf y then F32.pack (F32.signXor x y) 0
  else if F32.mag y = 0 then
    if F32.mag x = 0 then F32.nan 2 x y else F32.pack (F32.signXor x y) F32.infMag
  else F32.pack (F32.signXor x y)
    (F32.round (F32.units (F32.mag x) * 2 ^ 149) (F32.units (F32.mag y)))

/-- `of_u32(n)`: the Num nearest to `n` (R121). -/
def F32.ofU32 (n : Nat) : Num32 := F32.pack false (F32.round (n * 2 ^ 149) 1)

/-- `lit(s)`: the Num nearest to the exact value of a literal (R114). DESIGN CHOICE, unsafe, log 27: of
the two zeros, equally near, a literal of value zero denotes +0.0, also when it is written `-0.0`, and a
literal that is not zero but rounds to zero, of magnitude at most 2^-150, denotes the zero of its sign.
DESIGN CHOICE, safe, log 28: a literal at or beyond the overflow threshold of R116 denotes the
infinity of its sign. -/
def F32.lit (r : Rat) : Num32 :=
  F32.pack (decide (r.num < 0)) (F32.round (r.num.natAbs * 2 ^ 149) r.den)

/-- Order key of a number that is no NaN: bit patterns of one sign are ordered as their values are,
infinities included, and −0.0 has the key of +0.0 (R118). -/
def F32.key (x : Num32) : Int := if F32.signBit x then -(F32.mag x : Int) else (F32.mag x : Int)

/-- Neither operand is a NaN: every comparison with a NaN is false (R118). -/
def F32.ordered (x y : Num32) : Bool := !F32.isNaN x && !F32.isNaN y

/-- `flt` (R118). -/
def F32.lt (x y : Num32) : Bool := F32.ordered x y && decide (F32.key x < F32.key y)

/-- `fle` (R118). -/
def F32.le (x y : Num32) : Bool := F32.ordered x y && decide (F32.key x ≤ F32.key y)

/-- `fgt` (R118). -/
def F32.gt (x y : Num32) : Bool := F32.ordered x y && decide (F32.key y < F32.key x)

/-- `fge` (R118). -/
def F32.ge (x y : Num32) : Bool := F32.ordered x y && decide (F32.key y ≤ F32.key x)

/-- `feq` (R118). -/
def F32.eq (x y : Num32) : Bool := F32.ordered x y && decide (F32.key x = F32.key y)

end Sys2Proof.Machine
end

