-- ==== Sys2Proof/Syntax.lean ====
section
/-! DEFINITION. The operations of the block: one constructor of `Instr` per row of
spec/opcode_table.json (30_encoding.md R96), the frames in which events reach the block, and the
words it sends to the driver. -/

namespace Sys2Proof

/-- MotionState (10_state.md R24). Codes 5 to 7 do not exist here (30_encoding.md R100). -/
inductive MotionState where
  | idle
  | accelerating
  | decelerating
  | crossHighToLow
  | crossLowToHigh
  deriving DecidableEq, Repr, Inhabited

/-- The three instances of the Bounded Queue (10_state.md R31). -/
inductive QueueId where
  | tsq
  | tqq
  | scq
  deriving DecidableEq, Repr, Inhabited

/-- A call of the driver collaborator that carries a word (46_driver_port.md R221 to R224), over
the carrier of the numerics in use. -/
inductive DrvWord (α : Type) where
  | setDirection (p : Polarity)
  | brake
  | unbrake
  | commandSpeed (m : α)
  deriving DecidableEq, Repr

/-- The 21 operations, in the order of the table. -/
inductive Instr where
  /-- R280 -/
  | reset
  /-- R150 -/
  | putTorque (v : Num32)
  /-- R151 -/
  | putSpeed (v : Num32)
  /-- R221 -/
  | setDirection (p : Polarity)
  /-- R222 -/
  | brake
  /-- R223 -/
  | unbrake
  /-- R224 -/
  | commandSpeed (m : Num32)
  /-- R225 -/
  | getDirection
  /-- R160 -/
  | tickAdv
  /-- R162 -/
  | ecCapture
  /-- R170 -/
  | estStep
  /-- R180 -/
  | intStep
  /-- R190 -/
  | smIdle
  /-- R193 -/
  | smAcc
  /-- R194 -/
  | smDec
  /-- R196 -/
  | smXhl
  /-- R197 -/
  | smXlh
  /-- R140 -/
  | qPut (q : QueueId) (v : Entry)
  /-- R142 -/
  | qGet (q : QueueId)
  /-- R145 -/
  | shPut (v : Num32)
  /-- R146 -/
  | shGet
  deriving DecidableEq, Repr

/-- One event offered to the block: what stands on one of its ports (30_encoding.md R82) or which
operation the schedule takes next (R92, R104). A run is a sequence of them (20_memory.md R66). -/
inductive Frame where
  /-- HCMD_VALID = 1 with this word on HCMD (R83). -/
  | hcmd (w : PortWord)
  /-- This word on DRV_CMD, outside any SM step (log 25). -/
  | drvCmd (w : PortWord)
  /-- The operation that a format T id names (R90); `q` and `v` are the operands that the enclosing
  step would supply to a primitive or to a format W operation (log 5). -/
  | opId (id : OpId) (q : QueueId) (v : Entry)
  /-- SM is scheduled: format S, the value of MS selects the operation (R89; script `STEP SM`). -/
  | stepSM
  /-- One synchronised sample of SENSE (10_state.md R36). -/
  | sense (level : Bool)
  /-- The pin RST_N goes to this level (70_reset_and_hazards.md R284). -/
  | rstN (level : Bool)
  /-- The script line SETTLE (30_encoding.md R105). -/
  | settle
  deriving DecidableEq, Repr

end Sys2Proof
end

