-- ==== Sys2Proof/WellFormed.lean ====
section
/-! DEFINITION. Which instructions the spec's encodings admit: the operand constraints of
30_encoding.md R86 and R99. Every other operand is admitted at every value of its type. -/

namespace Sys2Proof

open Machine

/-- The operand constraint of each operation. PUT_TORQUE and PUT_SPEED take a finite Num (R86, R152);
COMMAND_SPEED takes a magnitude, `m ≥ 0` with bit 31 clear (R86, R99). -/
def Instr.wellFormed : Instr → Bool
  | .putTorque v => F32.isFinite v
  | .putSpeed v => F32.isFinite v
  | .commandSpeed m => !F32.signBit m && F32.ge m 0
  | .reset => true
  | .setDirection _ => true
  | .brake => true
  | .unbrake => true
  | .getDirection => true
  | .tickAdv => true
  | .ecCapture => true
  | .estStep => true
  | .intStep => true
  | .smIdle => true
  | .smAcc => true
  | .smDec => true
  | .smXhl => true
  | .smXlh => true
  | .qPut _ _ => true
  | .qGet _ => true
  | .shPut _ => true
  | .shGet => true

end Sys2Proof
end

