-- ==== Sys2Proof/Decode.lean ====
section
/-! DEFINITION. The three encodings of 30_encoding.md: format W (R85 to R88, R98, R99), format S
(R89, R100) and format T (R90), read and written, and the rows of spec/opcode_table.json. Decoding
is total on every word of each format and rejects by name. -/

namespace Sys2Proof

open Machine

/-- Why a frame is no operation. -/
inductive Reject where
  /-- R98: a word on HCMD whose `op` is not 0x01 or 0x02. The block ignores it. -/
  | reservedHostWord
  /-- R99: a word the block never emits on DRV_CMD. -/
  | neverEmitted
  /-- R90: an id that names no operation. -/
  | unassignedId
  deriving DecidableEq, Repr

/-- `op`, bits 39:32 of a format W word (R85). -/
def PortWord.op (w : PortWord) : OpId := w.extractLsb' 32 8

/-- `arg`, bits 31:0 of a format W word (R85). -/
def PortWord.arg (w : PortWord) : BitVec 32 := w.extractLsb' 0 32

/-- The format W word `op ‖ arg` (R85, R220). -/
def PortWord.mk (op : OpId) (arg : BitVec 32) : PortWord := op ++ arg

/-- Polarity code: Forward 0, Reverse 1 (R88). -/
def Polarity.code : Polarity → BitVec 1
  | .forward => 0
  | .reverse => 1

/-- A polarity as `arg`: the code in `arg[0]`, `arg[31:1] = 0` (R87). -/
def Polarity.arg (p : Polarity) : BitVec 32 := p.code.setWidth 32

/-- The polarity that `arg` carries; none if `arg[31:1]` is not zero (R86). -/
def Polarity.ofArg (a : BitVec 32) : Option Polarity :=
  if a = 0 then some .forward else if a = 1 then some .reverse else none

/-- MotionState code (R89, 10_state.md R24). -/
def MotionState.code : MotionState → MsCode
  | .idle => 0
  | .accelerating => 1
  | .decelerating => 2
  | .crossHighToLow => 3
  | .crossLowToHigh => 4

/-- The MotionState of a format S code; 5 to 7 are reserved (R89, R100). -/
def MotionState.ofCode (c : MsCode) : Option MotionState :=
  if c = 0 then some .idle
  else if c = 1 then some .accelerating
  else if c = 2 then some .decelerating
  else if c = 3 then some .crossHighToLow
  else if c = 4 then some .crossLowToHigh
  else none

/-- Format S: the SM operation that MS selects (R89). -/
def MotionState.instr : MotionState → Instr
  | .idle => .smIdle
  | .accelerating => .smAcc
  | .decelerating => .smDec
  | .crossHighToLow => .smXhl
  | .crossLowToHigh => .smXlh

/-- A format S code read as an operation (R89); none for a reserved code. -/
def decodeS (c : MsCode) : Option Instr := (MotionState.ofCode c).map MotionState.instr

/-- A word on HCMD (R86, R98). A non-finite operand decodes: the model refuses it when it is
executed (R101). -/
def decodeHcmd (w : PortWord) : Except Reject Instr :=
  if w.op = 0x01 then .ok (.putTorque w.arg)
  else if w.op = 0x02 then .ok (.putSpeed w.arg)
  else .error .reservedHostWord

/-- The driver operation with this `op` and `arg` (R86), rejecting what R99 excludes. -/
def decodeDriver (op : OpId) (arg : BitVec 32) : Except Reject Instr :=
  if op = 0x10 then
    match Polarity.ofArg arg with
    | some p => .ok (.setDirection p)
    | none => .error .neverEmitted
  else if op = 0x11 then if arg = 0 then .ok .brake else .error .neverEmitted
  else if op = 0x12 then if arg = 0 then .ok .unbrake else .error .neverEmitted
  else if op = 0x13 then
    if F32.signBit arg then .error .neverEmitted else .ok (.commandSpeed arg)
  else .error .neverEmitted

/-- A word on DRV_CMD (R86, R99). -/
def decodeDrvCmd (w : PortWord) : Except Reject Instr := decodeDriver w.op w.arg

/-- Format T (R89, R90): the operation an id names, with operands `q` and `v` where it has any. -/
def decodeId (id : OpId) (q : QueueId) (v : Entry) : Except Reject Instr :=
  if id = 0x00 then .ok .reset
  else if id = 0x01 then .ok (.putTorque v)
  else if id = 0x02 then .ok (.putSpeed v)
  else if 0x10 ≤ id ∧ id ≤ 0x13 then decodeDriver id v
  else if id = 0x14 then .ok .getDirection
  else if id = 0x20 then .ok .tickAdv
  else if id = 0x21 then .ok .ecCapture
  else if id = 0x22 then .ok .estStep
  else if id = 0x23 then .ok .intStep
  else if id = 0x30 then .ok .smIdle
  else if id = 0x31 then .ok .smAcc
  else if id = 0x32 then .ok .smDec
  else if id = 0x33 then .ok .smXhl
  else if id = 0x34 then .ok .smXlh
  else if id = 0x40 then .ok (.qPut q v)
  else if id = 0x41 then .ok (.qGet q)
  else if id = 0x42 then .ok (.shPut v)
  else if id = 0x43 then .ok .shGet
  else .error .unassignedId

/-- Format W read without its port: the host's `op` values first, then the driver's. No `op` is both
(R86), so the port is not needed to tell them apart. -/
def decodeW (w : PortWord) : Except Reject Instr :=
  match decodeHcmd w with
  | .ok i => .ok i
  | .error _ => decodeDrvCmd w

/-- The word of a driver call (R86, R87). -/
def DrvWord.word : DrvWord Num32 → PortWord
  | .setDirection p => PortWord.mk 0x10 p.arg
  | .brake => PortWord.mk 0x11 0
  | .unbrake => PortWord.mk 0x12 0
  | .commandSpeed m => PortWord.mk 0x13 m

/-- The format T id of each operation (R89, R90). -/
def Instr.id : Instr → OpId
  | .reset => 0x00
  | .putTorque _ => 0x01
  | .putSpeed _ => 0x02
  | .setDirection _ => 0x10
  | .brake => 0x11
  | .unbrake => 0x12
  | .commandSpeed _ => 0x13
  | .getDirection => 0x14
  | .tickAdv => 0x20
  | .ecCapture => 0x21
  | .estStep => 0x22
  | .intStep => 0x23
  | .smIdle => 0x30
  | .smAcc => 0x31
  | .smDec => 0x32
  | .smXhl => 0x33
  | .smXlh => 0x34
  | .qPut _ _ => 0x40
  | .qGet _ => 0x41
  | .shPut _ => 0x42
  | .shGet => 0x43

/-- The queue operand that accompanies an id; TSQ where there is none. -/
def Instr.queue : Instr → QueueId
  | .qPut q _ => q
  | .qGet q => q
  | .reset => .tsq
  | .putTorque _ => .tsq
  | .putSpeed _ => .tsq
  | .setDirection _ => .tsq
  | .brake => .tsq
  | .unbrake => .tsq
  | .commandSpeed _ => .tsq
  | .getDirection => .tsq
  | .tickAdv => .tsq
  | .ecCapture => .tsq
  | .estStep => .tsq
  | .intStep => .tsq
  | .smIdle => .tsq
  | .smAcc => .tsq
  | .smDec => .tsq
  | .smXhl => .tsq
  | .smXlh => .tsq
  | .shPut _ => .tsq
  | .shGet => .tsq

/-- The 32-bit operand that accompanies an id or stands in `arg`; zero where there is none (R87). -/
def Instr.operand : Instr → BitVec 32
  | .putTorque v => v
  | .putSpeed v => v
  | .setDirection p => p.arg
  | .commandSpeed m => m
  | .qPut _ v => v
  | .shPut v => v
  | .reset => 0
  | .brake => 0
  | .unbrake => 0
  | .getDirection => 0
  | .tickAdv => 0
  | .ecCapture => 0
  | .estStep => 0
  | .intStep => 0
  | .smIdle => 0
  | .smAcc => 0
  | .smDec => 0
  | .smXhl => 0
  | .smXlh => 0
  | .qGet _ => 0
  | .shGet => 0

/-- The format T frame of an operation: its id with its operands (R90). -/
def Instr.idFrame (i : Instr) : Frame := .opId i.id i.queue i.operand

/-- The frame that carries an operation: a port word for the format W operations, the id with its
operands for the others (R86, R90). -/
def encode : Instr → Frame
  | .reset => Instr.idFrame .reset
  | .putTorque v => .hcmd (PortWord.mk 0x01 v)
  | .putSpeed v => .hcmd (PortWord.mk 0x02 v)
  | .setDirection p => .drvCmd (DrvWord.word (.setDirection p))
  | .brake => .drvCmd (DrvWord.word .brake)
  | .unbrake => .drvCmd (DrvWord.word .unbrake)
  | .commandSpeed m => .drvCmd (DrvWord.word (.commandSpeed m))
  | .getDirection => Instr.idFrame .getDirection
  | .tickAdv => Instr.idFrame .tickAdv
  | .ecCapture => Instr.idFrame .ecCapture
  | .estStep => Instr.idFrame .estStep
  | .intStep => Instr.idFrame .intStep
  | .smIdle => Instr.idFrame .smIdle
  | .smAcc => Instr.idFrame .smAcc
  | .smDec => Instr.idFrame .smDec
  | .smXhl => Instr.idFrame .smXhl
  | .smXlh => Instr.idFrame .smXlh
  | .qPut q v => Instr.idFrame (.qPut q v)
  | .qGet q => Instr.idFrame (.qGet q)
  | .shPut v => Instr.idFrame (.shPut v)
  | .shGet => Instr.idFrame .shGet

/-- The operation a frame names outright. `stepSM`, `sense`, `rstN` and `settle` name none: what
they cause depends on the state (Machine/Fetch.lean). -/
def decode : Frame → Option (Except Reject Instr)
  | .hcmd w => some (decodeHcmd w)
  | .drvCmd w => some (decodeDrvCmd w)
  | .opId id q v => some (decodeId id q v)
  | .stepSM => none
  | .sense _ => none
  | .rstN _ => none
  | .settle => none

/-- A row of spec/opcode_table.json: its width in bits, its match and its mask. -/
structure TableRow where
  width : Nat
  pattern : Nat
  mask : Nat
  deriving DecidableEq, Repr

/-- The row of spec/opcode_table.json that each operation belongs to. -/
def Instr.row : Instr → TableRow
  | .reset => ⟨8, 0x00, 0xFF⟩
  | .putTorque _ => ⟨40, 0x0100000000, 0xFF00000000⟩
  | .putSpeed _ => ⟨40, 0x0200000000, 0xFF00000000⟩
  | .setDirection _ => ⟨40, 0x1000000000, 0xFFFFFFFFFE⟩
  | .brake => ⟨40, 0x1100000000, 0xFFFFFFFFFF⟩
  | .unbrake => ⟨40, 0x1200000000, 0xFFFFFFFFFF⟩
  | .commandSpeed _ => ⟨40, 0x1300000000, 0xFF80000000⟩
  | .getDirection => ⟨8, 0x14, 0xFF⟩
  | .tickAdv => ⟨8, 0x20, 0xFF⟩
  | .ecCapture => ⟨8, 0x21, 0xFF⟩
  | .estStep => ⟨8, 0x22, 0xFF⟩
  | .intStep => ⟨8, 0x23, 0xFF⟩
  | .smIdle => ⟨3, 0x0, 0x7⟩
  | .smAcc => ⟨3, 0x1, 0x7⟩
  | .smDec => ⟨3, 0x2, 0x7⟩
  | .smXhl => ⟨3, 0x3, 0x7⟩
  | .smXlh => ⟨3, 0x4, 0x7⟩
  | .qPut _ _ => ⟨8, 0x40, 0xFF⟩
  | .qGet _ => ⟨8, 0x41, 0xFF⟩
  | .shPut _ => ⟨8, 0x42, 0xFF⟩
  | .shGet => ⟨8, 0x43, 0xFF⟩

/-- The word of an operation as its row of the table numbers it: the 40-bit port word, the 3-bit MS
code, or the 8-bit id. -/
def Instr.tableWord : Instr → Nat
  | .putTorque v => (PortWord.mk 0x01 v).toNat
  | .putSpeed v => (PortWord.mk 0x02 v).toNat
  | .setDirection p => (DrvWord.word (.setDirection p)).toNat
  | .brake => (DrvWord.word .brake).toNat
  | .unbrake => (DrvWord.word .unbrake).toNat
  | .commandSpeed m => (DrvWord.word (.commandSpeed m)).toNat
  | .smIdle => MotionState.idle.code.toNat
  | .smAcc => MotionState.accelerating.code.toNat
  | .smDec => MotionState.decelerating.code.toNat
  | .smXhl => MotionState.crossHighToLow.code.toNat
  | .smXlh => MotionState.crossLowToHigh.code.toNat
  | .reset => (Instr.id .reset).toNat
  | .getDirection => (Instr.id .getDirection).toNat
  | .tickAdv => (Instr.id .tickAdv).toNat
  | .ecCapture => (Instr.id .ecCapture).toNat
  | .estStep => (Instr.id .estStep).toNat
  | .intStep => (Instr.id .intStep).toNat
  | .qPut q v => (Instr.id (.qPut q v)).toNat
  | .qGet q => (Instr.id (.qGet q)).toNat
  | .shPut v => (Instr.id (.shPut v)).toNat
  | .shGet => (Instr.id .shGet).toNat

/-- Does the table's word of this width name a format S row? A 3-bit word always; a word of a whole
byte where its value is the code of a polled state, which is no id of the table's format T rows. The
byte 0 is RESET, and SM_IDLE's code too: the table's own collision (log 21). -/
def tableWordIsS (nbits w : Nat) : Bool := decide (nbits ≤ 3) || (decide (nbits ≤ 8) && decide (0 < w ∧ w ≤ 4))

/-- The instruction read from a word of spec/opcode_table.json. Format T operands, to which the table
gives no bits, are zero. -/
def decodeTableWord (nbits w : Nat) : Option Instr :=
  if tableWordIsS nbits w then decodeS (BitVec.ofNat 3 w)
  else if nbits ≤ 8 then (decodeId (BitVec.ofNat 8 w) .tsq 0).toOption
  else (decodeW (BitVec.ofNat 40 w)).toOption

end Sys2Proof
end

