-- ==== Sys2Proof/Machine/Numerics.lean ====
section
/-! DEFINITION. The numerics as a replaceable record (40_numerics.md R130): the step functions
of files 43 to 45 are written over it. `Numerics.f32` is the hardware (R115); `Numerics.rat` is the
ideal reference Q, exact rationals. -/

namespace Sys2Proof.Machine

/-- The operations of R114 to R121 and the constants of R114 over a carrier. -/
structure Numerics (α : Type) where
  /-- `lit` of a literal's exact value (R114) -/
  lit : Rat → α
  /-- neither NaN nor infinity: what 00_scope.md R8 and 41_queue_share.md R152 ask of an operand -/
  isFinite : α → Bool
  fadd : α → α → α
  fsub : α → α → α
  fmul : α → α → α
  fdiv : α → α → α
  fabs : α → α
  fneg : α → α
  flt : α → α → Bool
  fle : α → α → Bool
  fgt : α → α → Bool
  fge : α → α → Bool
  feq : α → α → Bool
  ofU32 : Nat → α
  /-- `0.0` -/
  zero : α
  /-- `1.0` -/
  one : α
  /-- K_E2M, electrical Hz to mechanical rpm: `15.0` -/
  kE2M : α
  /-- DEADBAND: `20.0` rpm -/
  deadband : α
  /-- `1000000.0`, ticks per second -/
  ticksPerSec : α
  /-- K_RPM2RAD, π/30 -/
  kRpm2Rad : α
  /-- K_RAD2RPM, 30/π -/
  kRad2Rpm : α

/-- The hardware's numerics: binary32 with the constants' bits of R114. -/
def Numerics.f32 : Numerics Num32 where
  lit := F32.lit
  isFinite := F32.isFinite
  fadd := F32.add
  fsub := F32.sub
  fmul := F32.mul
  fdiv := F32.div
  fabs := F32.abs
  fneg := F32.neg
  flt := F32.lt
  fle := F32.le
  fgt := F32.gt
  fge := F32.ge
  feq := F32.eq
  ofU32 := F32.ofU32
  zero := 0x00000000
  one := 0x3F800000
  kE2M := 0x41700000
  deadband := 0x41A00000
  ticksPerSec := 0x49742400
  kRpm2Rad := 0x3DD67750
  kRad2Rpm := 0x4118C9EB

/-- The ideal reference Q: every operation exact, the unit factors the rationals of R114, no infinity
and no NaN, so every value is finite. DEDUCED, safe, log 30: a quotient by zero, which R130 leaves
out and R128(b) makes unreachable, is Lean's 0. -/
def Numerics.rat : Numerics Rat where
  lit r := r
  isFinite _ := true
  fadd x y := x + y
  fsub x y := x - y
  fmul x y := x * y
  fdiv x y := x / y
  fabs x := if x < 0 then -x else x
  fneg x := -x
  flt x y := decide (x < y)
  fle x y := decide (x ≤ y)
  fgt x y := decide (y < x)
  fge x y := decide (y ≤ x)
  feq x y := decide (x = y)
  ofU32 n := n
  zero := 0
  one := 1
  kE2M := 15
  deadband := 20
  ticksPerSec := 1000000
  kRpm2Rad := 878453 / 8388608
  kRad2Rpm := 10013163 / 1048576

/-- The two-valued result of `sign` (R119): a code, not a Num. -/
inductive Sign where
  | plus
  | minus
  deriving DecidableEq, Repr

/-- `sign(x)`: +1 if `x ≥ 0`, else −1 (R119). -/
def fsign {α : Type} (N : Numerics α) (x : α) : Sign := if N.fge x N.zero then .plus else .minus

/-- `clamp(w, lo, hi)` (R120). -/
def fclamp {α : Type} (N : Numerics α) (w lo hi : α) : α :=
  if N.fgt w hi then hi else if N.flt w lo then lo else w

/-- `rpm_to_rad` (R122). -/
def rpmToRad {α : Type} (N : Numerics α) (a : α) : α := N.fmul a N.kRpm2Rad

/-- `rad_to_rpm` (R122). -/
def radToRpm {α : Type} (N : Numerics α) (w : α) : α := N.fmul w N.kRad2Rpm

/-- A positive number of ticks in seconds, `fdiv(of_u32(n), 1000000.0)` (R113, R170, R180). -/
def ticksToSec {α : Type} (N : Numerics α) (n : Nat) : α := N.fdiv (N.ofU32 n) N.ticksPerSec

/-- `mdiff(cur, prev)`: the difference modulo 2^32 (R112). -/
def mdiff (cur prev : Tick) : Nat := (((cur.toNat : Int) - (prev.toNat : Int)) % 2 ^ 32).toNat

/-- `sdiff(now, last)`: the plain integer difference, not reduced (R113). -/
def sdiff (now last : Tick) : Int := (now.toNat : Int) - (last.toNat : Int)

/-- The integrator's clamp on its time step, in ticks (R113, R182). -/
def clampTicks (d : Int) : Nat :=
  if d ≤ 0 then Config.dtFallbackTicks
  else if (Config.dtMaxTicks : Int) ≤ d then Config.dtMaxTicks
  else d.toNat

end Sys2Proof.Machine
end

