-- ==== Sys2Proof/Machine/State.lean ====
section
/-! DEFINITION. The state of the block and of the reference driver (10_state.md R20), the model's own
fields, what a step can stop with, and the state after reset (70_reset_and_hazards.md R285). -/

namespace Sys2Proof.Machine

/-- The reference driver's three registers (46_driver_port.md R230). -/
structure Drv (α : Type) where
  /-- DRV.pol, and at all times the input DRV_DIR -/
  pol : Polarity
  /-- DRV.brk -/
  brk : Brake
  /-- DRV.spd, the magnitude last commanded -/
  spd : α
  deriving DecidableEq, Repr

/-- The registers of R20's tables, "the complete state of the block" and what the driver holds, with
the configuration record, over the carrier of the numerics in use (40_numerics.md R130). -/
structure Block (α : Type) where
  /-- TICK (R27) -/
  tick : Tick
  /-- TSQ, oldest first (R31, log 15) -/
  tsq : List Tick
  /-- TQQ, oldest first -/
  tqq : List α
  /-- SCQ, oldest first -/
  scq : List α
  /-- ASPD, the share (R26, R33) -/
  aspd : α
  /-- EST.prev (R22) -/
  estPrev : Tick
  /-- INT.last (R23) -/
  intLast : Tick
  /-- INT.omega (R23) -/
  intOmega : α
  /-- MS (R24) -/
  ms : MotionState
  /-- SM.cmd (R25) -/
  smCmd : α
  /-- POLL_CNT (R35) -/
  pollCnt : BitVec 14
  /-- SENSE_Q (R36) -/
  senseQ : Bool
  /-- DRV.pol, DRV.brk, DRV.spd (R20, R230) -/
  drv : Drv α
  /-- The configuration record (R7); no step writes it (log 8) -/
  cfg : Params α
  deriving DecidableEq, Repr

/-- The machine: the block at the hardware's numerics, binary32, and the model's own fields. -/
structure State extends Block Num32 where
  /-- The words put on DRV_CMD so far, oldest first (R220; log 7) -/
  drvOut : List PortWord
  /-- What a primitive run alone handed back (log 6) -/
  ret : BitVec 32
  /-- RST_N is low (R284; log 18) -/
  rstLow : Bool
  /-- The events still to come: the environment's moves and the schedule (R21, R66; log 1) -/
  script : List Frame
  deriving DecidableEq, Repr

/-- What stops the machine with a fault: nothing. "The block raises no exception" (60_exceptions.md
R240) and no operation can fault (R242), so the type has no constructor. -/
inductive Fault where
  deriving DecidableEq, Repr

/-- What the model gives no step. -/
inductive Refusal where
  /-- An instruction without a meaning yet, by its table mnemonic: raised by no arm of `exec`. Safe. -/
  | notModelled (mnemonic : String)
  /-- PUT_TORQUE or PUT_SPEED with a NaN or an infinity: "The model refuses such a word"
  (30_encoding.md R101, 41_queue_share.md R152). Raised by their meanings. Safe. -/
  | nonFiniteOperand (v : Num32)
  /-- INT_STEP under a J or OMEGA_MAX that is zero, negative, infinite or NaN: "the model refuses the
  configuration" (00_scope.md R8, 93_implementation_defined.md U8, D16). Raised by its meaning. Safe. -/
  | invalidConfiguration
  /-- A word on DRV_CMD that the block never emits (30_encoding.md R99). Raised by `step` on a
  frame that is no operation. Safe. -/
  | neverEmitted
  /-- A format T id that names no operation (30_encoding.md R90). Raised by `step` on a frame that
  is no operation. Safe. -/
  | unassignedId
  deriving DecidableEq, Repr

/-- What an operation answers. -/
abbrev Result := Host.Outcome State Fault Refusal

/-- The initial state `S0` of R285 for a configuration. DRV.spd is unspecified there (R231):
+0.0 here. DESIGN CHOICE, unsafe, log 10. -/
def Block.coldStart {α : Type} (N : Numerics α) (cfg : Params α) : Block α where
  tick := 0
  tsq := []
  tqq := []
  scq := []
  aspd := N.zero
  estPrev := 0
  intLast := 0
  intOmega := N.zero
  ms := .idle
  smCmd := N.zero
  pollCnt := 0
  senseQ := true
  drv := { pol := cfg.polReset, brk := cfg.brkReset, spd := N.zero }
  cfg := cfg

/-- The machine in `S0`, with no word emitted and no event given (logs 1, 6, 7, 18). -/
def State.coldStart (cfg : Cfg) : State where
  toBlock := Block.coldStart Numerics.f32 cfg
  drvOut := []
  ret := 0
  rstLow := false
  script := []

/-- The machine right after reset: `S0` for the configuration `Config.built`. -/
def State.reset : State := State.coldStart Config.built

end Sys2Proof.Machine
end

