-- ==== Sys2Proof/Machine/Operands.lean ====
section
/-! DEFINITION. What an operation reads as its operands: a queue instance, the share, the driver's
direction input, the configuration, and the constraint on a host operand. -/

namespace Sys2Proof.Machine

/-- `Q.CAP` (10_state.md R31). -/
def queueCap : QueueId → Nat
  | .tsq => Config.tsqCap
  | .tqq => Config.cmdqCap
  | .scq => Config.cmdqCap

/-- `Q.items`, oldest first (R31). -/
def State.items (s : State) : QueueId → List Entry
  | .tsq => s.tsq
  | .tqq => s.tqq
  | .scq => s.scq

/-- The state with other items in one queue. -/
def State.setItems (s : State) (q : QueueId) (l : List Entry) : State :=
  match q with
  | .tsq => { s with tsq := l }
  | .tqq => { s with tqq := l }
  | .scq => { s with scq := l }

/-- The input DRV_DIR, which the reference driver holds at DRV.pol (46_driver_port.md R225, R230). -/
def Block.drvDir {α : Type} (b : Block α) : Polarity := b.drv.pol

/-- Precondition of both host commands: the operand is neither NaN nor infinite
(41_queue_share.md R152). -/
def hostOperandOk {α : Type} (N : Numerics α) (v : α) : Bool := N.isFinite v

/-- A finite, strictly positive Num. -/
def positiveFinite {α : Type} (N : Numerics α) (x : α) : Bool := N.isFinite x && N.fgt x N.zero

/-- The constraint of 00_scope.md R8 on the OPEN parameters. POL_RESET and BRK_RESET are constrained
by their types. -/
def paramsOk {α : Type} (N : Numerics α) (c : Params α) : Bool :=
  positiveFinite N c.inertia && positiveFinite N c.omegaMax

/-- The check at the hardware's numerics. -/
def cfgOk (c : Cfg) : Bool := paramsOk Numerics.f32 c

end Sys2Proof.Machine
end

