-- ==== Sys2Proof/Machine/Flags.lean ====
section
/-! DEFINITION. The combinational predicates of 10_state.md R28. The block stores none of them: each
is computed inside a step from what the step read. -/

namespace Sys2Proof.Machine

/-- `Q.empty` -/
def State.queueEmpty (s : State) (q : QueueId) : Bool := (s.items q).isEmpty

/-- `Q.full` -/
def State.queueFull (s : State) (q : QueueId) : Bool := decide ((s.items q).length = queueCap q)

/-- `same`: command and actual speed have one sign. -/
def sameSign {α : Type} (N : Numerics α) (c a : α) : Bool := decide (fsign N c = fsign N a)

/-- `in_band`: `|a − c| ≤ DEADBAND`, inclusive. -/
def inBand {α : Type} (N : Numerics α) (c a : α) : Bool := N.fle (N.fabs (N.fsub a c)) N.deadband

/-- `near_zero`: `|a| < DEADBAND`, strict. -/
def nearZero {α : Type} (N : Numerics α) (a : α) : Bool := N.flt (N.fabs a) N.deadband

section
variable {α : Type}

/-- `poll_due` -/
def Block.pollDue (b : Block α) : Bool := decide (b.pollCnt = 0)

/-- `EST_STEP` is enabled (43_speed_estimator.md R170). -/
def Block.estEnabled (b : Block α) : Bool := !b.tsq.isEmpty

/-- `INT_STEP` is enabled (44_torque_integrator.md R180). -/
def Block.intEnabled (b : Block α) : Bool := !b.tqq.isEmpty

/-- The SM operation of state `m` is enabled: SM_IDLE with a command waiting, a polled operation when
the poll is due, each only while MS selects it (45_state_machine.md R190, R193, R194, R196, R197). -/
def Block.smEnabled (b : Block α) (m : MotionState) : Bool :=
  decide (b.ms = m) && (if m = .idle then !b.scq.isEmpty else b.pollDue)

end

end Sys2Proof.Machine
end

