-- ==== Sys2Proof/Machine/Ops.lean ====
section
/-! DEFINITION. The named operations that the steps share. On the block, over any numerics
(40_numerics.md R130): the Bounded Queue and the Latest-Value Share (41_queue_share.md), the driver's
registers (46_driver_port.md), the edge interrupt (60_exceptions.md R244 to R249), the counters. On
the machine: the same at binary32, the words on DRV_CMD, and waiting. -/

namespace Sys2Proof.Machine

/-- `Q.put(v)` on the sequence: append, and if that exceeds the capacity drop the oldest (R140). -/
def queuePut {ε : Type} (cap : Nat) (l : List ε) (v : ε) : List ε :=
  if cap < (l ++ [v]).length then (l ++ [v]).tail else l ++ [v]

/-! ### On the block -/

section
variable {α : Type}

/-- `ASPD.put(v)` (R145). -/
def Block.publish (b : Block α) (v : α) : Block α := { b with aspd := v }

/-- The effect of one word on the reference driver (R221 to R224, R230). -/
def Drv.obey (d : Drv α) : DrvWord α → Drv α
  | .setDirection p => { d with pol := p }
  | .brake => { d with brk := .braked }
  | .unbrake => { d with brk := .released }
  | .commandSpeed m => { d with spd := m }

/-- The driver obeys the words of one step, in program order (R84, R220). -/
def Block.obeyAll (b : Block α) (ws : List (DrvWord α)) : Block α :=
  { b with drv := ws.foldl Drv.obey b.drv }

/-- Taking the edge interrupt (R248): nothing is saved, no mode or mask changes, there is no vector;
the one effect is the handler's, `TSQ.put(TICK)` (42_edge_capture.md R162). The handler is this one
atomic step, so there is no return operation (R249). -/
def Block.takeEdge (b : Block α) : Block α := { b with tsq := queuePut Config.tsqCap b.tsq b.tick }

/-- One microsecond: TICK wraps silently, POLL_CNT stops at 0 (42_edge_capture.md R160). -/
def Block.advanceTick (b : Block α) : Block α :=
  { b with tick := b.tick + 1, pollCnt := if b.pollCnt = 0 then 0 else b.pollCnt - 1 }

/-- The end of an SM evaluation: the next state, and the poll timer loaded unless it is Idle
(45_state_machine.md R200). -/
def Block.enterMotion (b : Block α) (m : MotionState) : Block α :=
  { b with ms := m,
           pollCnt := if m = .idle then b.pollCnt else BitVec.ofNat 14 Config.pollTicks }

end

/-! ### On the machine -/

/-- `Q.put(v)` (R140). -/
def State.put (s : State) (q : QueueId) (v : Entry) : State :=
  s.setItems q (queuePut (queueCap q) (s.items q) v)

/-- `Q.get()` (R142): the oldest entry and the state without it; none where it is not enabled. -/
def State.get (s : State) (q : QueueId) : Option (Entry × State) :=
  match s.items q with
  | [] => none
  | v :: rest => some (v, s.setItems q rest)

/-- The machine with another state of its block. -/
def State.withBlock (s : State) (b : Block Num32) : State := { s with toBlock := b }

/-- The machine after a step of its block that emitted these words: they are appended to the output of
DRV_CMD (R220). -/
def State.withWords (s : State) (r : Block Num32 × List (DrvWord Num32)) : State :=
  { s with toBlock := r.1, drvOut := s.drvOut ++ r.2.map DrvWord.word }

/-- `ASPD.put(v)` (R145). -/
def State.publish (s : State) (v : Num32) : State := s.withBlock (s.toBlock.publish v)

/-- The model's own record of what a primitive run alone handed back (log 6). -/
def State.handBack (s : State) (v : BitVec 32) : State := { s with ret := v }

/-- `DRV.emit(op, arg)`: append the word to the output of DRV_CMD and apply its effect (R220). -/
def State.emit (s : State) (w : DrvWord Num32) : State := s.withWords (s.toBlock.obeyAll [w], [w])

/-- The edge interrupt (R248). -/
def State.takeEdge (s : State) : State := s.withBlock s.toBlock.takeEdge

/-- One microsecond (R160). -/
def State.advanceTick (s : State) : State := s.withBlock s.toBlock.advanceTick

/-- An agent whose step is not enabled has no step: it waits, nothing changes, and it is no fault
(00_scope.md R12, 41_queue_share.md R143). DESIGN CHOICE, safe, log 4. -/
def blocked (s : State) : Result := .next s

/-- What the machine answers to a step of its block: it waits where the block has none. -/
def State.after (s : State) (r : Option (Block Num32 × List (DrvWord Num32))) : Result :=
  match r with
  | none => blocked s
  | some r => .next (s.withWords r)

end Sys2Proof.Machine
end

