-- ==== Sys2Proof/Machine/Clock.lean ====
section
/-! DEFINITION. TICK_ADV and EC_CAPTURE (42_edge_capture.md). -/

namespace Sys2Proof.Machine

/-- TICK_ADV (R160). -/
def execTickAdv (s : State) : Result := .next s.advanceTick

/-- EC_CAPTURE (R162): the edge interrupt's handler, taken in the step of the edge event. -/
def execEcCapture (s : State) : Result := .next s.takeEdge

end Sys2Proof.Machine
end

