-- ==== Sys2Proof/Machine/DriverPort.lean ====
section
/-! DEFINITION. The driver port operations (46_driver_port.md R221 to R225). Inside a step they are
`State.emit` and `State.drvDir`; here each is one operation of the table, run alone (log 25). -/

namespace Sys2Proof.Machine

/-- SET_DIRECTION (R221). -/
def execSetDirection (p : Polarity) (s : State) : Result := .next (s.emit (.setDirection p))

/-- BRAKE (R222). -/
def execBrake (s : State) : Result := .next (s.emit .brake)

/-- UNBRAKE (R223): emitted once, never checked, always obeyed by the reference driver (log 11). -/
def execUnbrake (s : State) : Result := .next (s.emit .unbrake)

/-- COMMAND_SPEED (R224): the magnitude is passed on as it is. -/
def execCommandSpeed (m : Num32) (s : State) : Result := .next (s.emit (.commandSpeed m))

/-- GET_DIRECTION (R225): a sample of DRV_DIR, handed back as its code; no word, no side effect. -/
def execGetDirection (s : State) : Result := .next (s.handBack s.drvDir.arg)

end Sys2Proof.Machine
end

