-- ==== Sys2Proof/Machine/Estimator.lean ====
section
/-! DEFINITION. EST_STEP (43_speed_estimator.md). -/

namespace Sys2Proof.Machine

/-- The speed magnitude for an edge interval of `dt` ticks: divide by 10^6, take the reciprocal,
multiply by 15, three rounded operations in this order (R170, D6). -/
def estMagnitude {α : Type} (N : Numerics α) (dt : Nat) : α :=
  N.fmul (N.fdiv N.one (ticksToSec N dt)) N.kE2M

/-- The published speed: Forward positive, Reverse negative (R170). -/
def estSpeed {α : Type} (N : Numerics α) (dt : Nat) (d : Polarity) : α :=
  match d with
  | .forward => estMagnitude N dt
  | .reverse => N.fneg (estMagnitude N dt)

/-- One estimator cycle on a timestamp already taken from TSQ: EST.prev is refreshed always, a zero
difference is discarded (R171), any other is published with the sign of the driver's polarity now
(R172). -/
def estimate {α : Type} (N : Numerics α) (cur : Tick) (b : Block α) : Block α :=
  if mdiff cur b.estPrev = 0 then { b with estPrev := cur }
  else { b with estPrev := cur }.publish (estSpeed N (mdiff cur b.estPrev) b.drvDir)

/-- EST_STEP over any numerics: blocks on TSQ (R170). -/
def estStep {α : Type} (N : Numerics α) (b : Block α) : Option (Block α × List (DrvWord α)) :=
  match b.tsq with
  | [] => none
  | cur :: rest => some (estimate N cur { b with tsq := rest }, [])

/-- EST_STEP (R170). -/
def execEstStep (s : State) : Result := s.after (estStep Numerics.f32 s.toBlock)

end Sys2Proof.Machine
end

