-- ==== Sys2Proof/Machine/HostPort.lean ====
section
/-! DEFINITION. The host's two commands: PUT_TORQUE and PUT_SPEED (41_queue_share.md R150 to R153). -/

namespace Sys2Proof.Machine

/-- A host command puts its operand into one queue, if the operand is admitted (R152). -/
def hostPut (q : QueueId) (v : Num32) (s : State) : Result :=
  if hostOperandOk Numerics.f32 v then .next (s.put q v) else .refused (.nonFiniteOperand v)

/-- PUT_TORQUE (R150). -/
def execPutTorque (v : Num32) (s : State) : Result := hostPut .tqq v s

/-- PUT_SPEED (R151): not clamped to the speed envelope. -/
def execPutSpeed (v : Num32) (s : State) : Result := hostPut .scq v s

end Sys2Proof.Machine
end

