-- ==== Sys2Proof/Machine/Integrator.lean ====
section
/-! DEFINITION. INT_STEP (44_torque_integrator.md). -/

namespace Sys2Proof.Machine

/-- Steps 2 and 3 of R180: `w_new = (tq / J) · dt_s + rpm_to_rad(a)`, anchored to the measured speed,
in the operation order of D7, without a fused multiply-add. -/
def eulerSpeed {α : Type} (N : Numerics α) (inertia tq : α) (dtTicks : Nat) (a : α) : α :=
  N.fadd (N.fmul (N.fdiv tq inertia) (ticksToSec N dtTicks)) (rpmToRad N a)

/-- Step 4 of R180: the clamp to ±OMEGA_MAX (R184). -/
def integrate {α : Type} (N : Numerics α) (inertia omegaMax tq : α) (dtTicks : Nat) (a : α) : α :=
  fclamp N (eulerSpeed N inertia tq dtTicks a) (N.fneg omegaMax) omegaMax

/-- The clamped speed of an INT_STEP on torque `tq`: the time step is the clamped signed difference of
TICK and INT.last (R113, R182). -/
def Block.integrated {α : Type} (b : Block α) (N : Numerics α) (tq : α) : α :=
  integrate N b.cfg.inertia b.cfg.omegaMax tq (clampTicks (sdiff b.tick b.intLast)) b.aspd

/-- One integrator cycle on a torque already taken from TQQ: INT.last and INT.omega are written and
the clamped speed in rpm goes to SCQ (R180). DEDUCED, unsafe, log 29: where the product overflows it is the
infinity of R116, as R180 says, although 40_numerics.md R128(d) calls every value stored finite. -/
def integratorCycle {α : Type} (N : Numerics α) (tq : α) (b : Block α) : Block α :=
  { b with
    intLast := b.tick, intOmega := b.integrated N tq,
    scq := queuePut Config.cmdqCap b.scq (radToRpm N (b.integrated N tq)) }

/-- INT_STEP over any numerics: blocks on TQQ (R180, R181). -/
def intStep {α : Type} (N : Numerics α) (b : Block α) : Option (Block α × List (DrvWord α)) :=
  match b.tqq with
  | [] => none
  | tq :: rest => some (integratorCycle N tq { b with tqq := rest }, [])

/-- INT_STEP (R180). With a torque waiting it refuses a configuration that is not an instance of the
block (00_scope.md R8, 93_implementation_defined.md U8; log 24). -/
def execIntStep (s : State) : Result :=
  if s.intEnabled && !cfgOk s.cfg then .refused .invalidConfiguration
  else s.after (intStep Numerics.f32 s.toBlock)

end Sys2Proof.Machine
end

