-- ==== Sys2Proof/Machine/ResetOp.lean ====
section
/-! DEFINITION. RESET (70_reset_and_hazards.md R280 to R285). -/

namespace Sys2Proof.Machine

/-- The block's registers at the values of R280. The driver is left as it was (R281, R283) and the
configuration stays. -/
def Block.clear {α : Type} (N : Numerics α) (b : Block α) : Block α :=
  { b with
    tick := 0, tsq := [], tqq := [], scq := [], aspd := N.zero, estPrev := 0, intLast := 0,
    intOmega := N.zero, ms := .idle, smCmd := N.zero, pollCnt := 0, senseQ := true }

/-- RESET on the machine: no word is emitted, and the model's own fields stay. -/
def State.resetBlock (s : State) : State := s.withBlock (Block.clear Numerics.f32 s.toBlock)

/-- RESET (R280). -/
def execReset (s : State) : Result := .next s.resetBlock

end Sys2Proof.Machine
end

