-- ==== Sys2Proof/Machine/Sequencer.lean ====
section
/-! DEFINITION. The five-state sequencer: SM_IDLE, SM_ACC, SM_DEC, SM_XHL, SM_XLH
(45_state_machine.md). -/

namespace Sys2Proof.Machine

/-- The way into Decelerating, "command 0 + brake" (R190, 90_conflicts.md C2). -/
def goDecelerate {α : Type} (N : Numerics α) : MotionState × List (DrvWord α) :=
  (.decelerating, [.commandSpeed N.zero, .brake])

/-- The way into Accelerating from Idle: the commanded magnitude (R190). -/
def goAccelerate {α : Type} (N : Numerics α) (c : α) : MotionState × List (DrvWord α) :=
  (.accelerating, [.commandSpeed (N.fabs c)])

/-- The way out of a cross state: set the polarity, unbrake, command the magnitude (R196, R197). -/
def crossTo {α : Type} (N : Numerics α) (p : Polarity) (c : α) : MotionState × List (DrvWord α) :=
  (.accelerating, [.setDirection p, .unbrake, .commandSpeed (N.fabs c)])

/-- The sequencer as a pure function `sm_next(ms, c, a, d) = (ms', words)` (R202): the table of R199,
with the Idle rows of R191. CrossHighToLow sets Forward and CrossLowToHigh sets Reverse (R198). -/
def smNext {α : Type} (N : Numerics α) (ms : MotionState) (c a : α) (d : Polarity) :
    MotionState × List (DrvWord α) :=
  match ms with
  | .idle =>
    if N.fgt c a then
      if sameSign N c a && decide (d = .forward) then goAccelerate N c else goDecelerate N
    else if N.flt c a then
      if sameSign N c a && decide (d = .reverse) then goAccelerate N c else goDecelerate N
    else (.idle, [])
  | .accelerating => if inBand N c a then (.idle, []) else (.accelerating, [])
  | .decelerating =>
    if sameSign N c a then
      if inBand N c a then (.idle, [.unbrake, .commandSpeed (N.fabs c)]) else (.decelerating, [])
    else if nearZero N a then
      if d = .reverse then (.crossHighToLow, []) else (.crossLowToHigh, [])
    else (.decelerating, [])
  | .crossHighToLow => crossTo N .forward c
  | .crossLowToHigh => crossTo N .reverse c

/-- What the sequencer's function answers in state `m` on command `c`, from ASPD and DRV_DIR. -/
def Block.smAnswer {α : Type} (b : Block α) (N : Numerics α) (m : MotionState) (c : α) :
    MotionState × List (DrvWord α) := smNext N m c b.aspd b.drvDir

/-- One sequencer evaluation: the driver obeys the words, MS moves to the next state and the poll timer
is loaded (R200, R202). -/
def evaluate {α : Type} (N : Numerics α) (m : MotionState) (c : α) (b : Block α) :
    Block α × List (DrvWord α) :=
  ((b.obeyAll (b.smAnswer N m c).2).enterMotion (b.smAnswer N m c).1, (b.smAnswer N m c).2)

/-- SM_IDLE over any numerics: blocks on SCQ, latches the command taken (R190). -/
def idleStep {α : Type} (N : Numerics α) (b : Block α) : Option (Block α × List (DrvWord α)) :=
  if b.smEnabled .idle then
    match b.scq with
    | [] => none
    | c :: rest => some (evaluate N .idle c { b with scq := rest, smCmd := c })
  else none

/-- A polled operation over any numerics: the one of state `m`, on the held command, when MS selects it
and the poll is due (R200). -/
def pollStep {α : Type} (N : Numerics α) (m : MotionState) (b : Block α) :
    Option (Block α × List (DrvWord α)) :=
  if b.smEnabled m then some (evaluate N m b.smCmd b) else none

/-- The operation that MS selects, over any numerics (30_encoding.md R89). -/
def smStep {α : Type} (N : Numerics α) (b : Block α) : Option (Block α × List (DrvWord α)) :=
  match b.ms with
  | .idle => idleStep N b
  | .accelerating => pollStep N .accelerating b
  | .decelerating => pollStep N .decelerating b
  | .crossHighToLow => pollStep N .crossHighToLow b
  | .crossLowToHigh => pollStep N .crossLowToHigh b

/-- One sequencer evaluation of the machine. -/
def sequence (m : MotionState) (c : Num32) (s : State) : State :=
  s.withWords (evaluate Numerics.f32 m c s.toBlock)

/-- SM_IDLE (R190). -/
def execSmIdle (s : State) : Result := s.after (idleStep Numerics.f32 s.toBlock)

/-- SM_ACC (R193). -/
def execSmAcc (s : State) : Result := s.after (pollStep Numerics.f32 .accelerating s.toBlock)

/-- SM_DEC (R194). -/
def execSmDec (s : State) : Result := s.after (pollStep Numerics.f32 .decelerating s.toBlock)

/-- SM_XHL (R196). -/
def execSmXhl (s : State) : Result := s.after (pollStep Numerics.f32 .crossHighToLow s.toBlock)

/-- SM_XLH (R197). -/
def execSmXlh (s : State) : Result := s.after (pollStep Numerics.f32 .crossLowToHigh s.toBlock)

end Sys2Proof.Machine
end

