-- ==== Sys2Proof/Machine/Storage.lean ====
section
/-! DEFINITION. The storage primitives run alone: Q_PUT, Q_GET, SH_PUT, SH_GET (41_queue_share.md).
Inside a step they are `State.put`, `State.get`, `State.publish` and a read of `aspd`; here they are
the operations that R91 gives ids "so that their rules can be cited and tested alone" (log 5). -/

namespace Sys2Proof.Machine

/-- Q_PUT (R140): always enabled, drops the oldest entry when full. -/
def execQPut (q : QueueId) (v : Entry) (s : State) : Result := .next (s.put q v)

/-- Q_GET (R142): hands back the oldest entry and removes it; not enabled on an empty queue (R143). -/
def execQGet (q : QueueId) (s : State) : Result :=
  match s.get q with
  | none => blocked s
  | some (v, t) => .next (t.handBack v)

/-- SH_PUT (R145). -/
def execShPut (v : Num32) (s : State) : Result := .next (s.publish v)

/-- SH_GET (R146): hands back the share's value and changes nothing of the block. -/
def execShGet (s : State) : Result := .next (s.handBack s.aspd)

end Sys2Proof.Machine
end

