-- ==== Sys2Proof/Machine/Dispatch.lean ====
section
/-! DEFINITION. One arm per operation of spec/opcode_table.json (30_encoding.md R96). -/

namespace Sys2Proof.Machine

def exec (i : Instr) (s : State) : Host.Outcome State Fault Refusal :=
  match i with
  | .reset => Sys2Proof.Machine.execReset s
  | .putTorque v => Sys2Proof.Machine.execPutTorque v s
  | .putSpeed v => Sys2Proof.Machine.execPutSpeed v s
  | .setDirection p => Sys2Proof.Machine.execSetDirection p s
  | .brake => Sys2Proof.Machine.execBrake s
  | .unbrake => Sys2Proof.Machine.execUnbrake s
  | .commandSpeed m => Sys2Proof.Machine.execCommandSpeed m s
  | .getDirection => Sys2Proof.Machine.execGetDirection s
  | .tickAdv => Sys2Proof.Machine.execTickAdv s
  | .ecCapture => Sys2Proof.Machine.execEcCapture s
  | .estStep => Sys2Proof.Machine.execEstStep s
  | .intStep => Sys2Proof.Machine.execIntStep s
  | .smIdle => Sys2Proof.Machine.execSmIdle s
  | .smAcc => Sys2Proof.Machine.execSmAcc s
  | .smDec => Sys2Proof.Machine.execSmDec s
  | .smXhl => Sys2Proof.Machine.execSmXhl s
  | .smXlh => Sys2Proof.Machine.execSmXlh s
  | .qPut q v => Sys2Proof.Machine.execQPut q v s
  | .qGet q => Sys2Proof.Machine.execQGet q s
  | .shPut v => Sys2Proof.Machine.execShPut v s
  | .shGet => Sys2Proof.Machine.execShGet s

end Sys2Proof.Machine
end

