-- ==== Sys2Proof/Machine/Fetch.lean ====
section
/-! DEFINITION. Which operation the block takes next. There is no program counter and no stored
program (00_scope.md R16, 20_memory.md R71): an operation fires on its trigger (30_encoding.md R92),
and the order of the events is the environment's and the schedule's, the list `script` of the state
(R66, log 1). -/

namespace Sys2Proof.Machine

/-- What one look at the state finds. -/
inductive Fetched where
  /-- This operation fires, in this state (the frame that caused it is spent). -/
  | run (i : Instr) (s : State)
  /-- No operation fires; the state is this one. -/
  | pass (s : State)
  /-- The frame is no operation. -/
  | refuse (r : Refusal)
  deriving DecidableEq, Repr

/-- The state with this list of events to come. -/
def State.withScript (s : State) (l : List Frame) : State := { s with script := l }

/-- A frame's operation, or what becomes of a frame that is none: a reserved host word is ignored
(30_encoding.md R98), the others are refused by name. -/
def fetchDecoded (r : Except Reject Instr) (s : State) : Fetched :=
  match r with
  | .ok i => .run i s
  | .error .reservedHostWord => .pass s
  | .error .neverEmitted => .refuse .neverEmitted
  | .error .unassignedId => .refuse .unassignedId

/-- The operation taken when no event is given: the enabled agent of the highest priority, EST, INT,
SM (60_exceptions.md R246, R247), and if all wait the clock. DESIGN CHOICE, unsafe for a claim about a
run without events, log 2. -/
def State.autoInstr (s : State) : Instr :=
  if s.estEnabled then .estStep
  else if s.intEnabled then .intStep
  else if s.smEnabled s.ms then s.ms.instr
  else .tickAdv

/-- SETTLE (30_encoding.md R105): EST, INT or SM_IDLE, in this order, while one is enabled; none
when the state is quiet. -/
def State.settleInstr (s : State) : Option Instr :=
  if s.estEnabled then some .estStep
  else if s.intEnabled then some .intStep
  else if s.smEnabled .idle then some .smIdle
  else none

/-- One sample of SENSE: a 1 after a 0 is the edge event, which fires EC_CAPTURE; then SENSE_Q takes
the sample (10_state.md R36). -/
def fetchSense (level : Bool) (s : State) : Fetched :=
  if level && !s.senseQ then .run .ecCapture { s with senseQ := level }
  else .pass { s with senseQ := level }

/-- The pin RST_N: RESET fires when it goes low; at its release nothing fires (R284). -/
def fetchRstN (level : Bool) (s : State) : Fetched :=
  if level then .pass { s with rstLow := false } else .run .reset { s with rstLow := true }

/-- The operation of one frame outside reset; `s` already has the rest of the script. -/
def fetchFrame (f : Frame) (s : State) : Fetched :=
  match f with
  | .hcmd w => fetchDecoded (decodeHcmd w) s
  | .drvCmd w => fetchDecoded (decodeDrvCmd w) s
  | .opId id q v => fetchDecoded (decodeId id q v) s
  | .stepSM => .run s.ms.instr s
  | .sense level => fetchSense level s
  | .rstN level => fetchRstN level s
  | .settle =>
    match s.settleInstr with
    | some i => .run i (s.withScript (.settle :: s.script))
    | none => .pass s

/-- While RST_N is low the state is reset and no other operation fires: every other event is
ignored (R284). -/
def fetchInReset (s : State) : Fetched :=
  match s.script with
  | [] => .run .reset s
  | .rstN true :: rest => .pass { s with rstLow := false, script := rest }
  | _ :: rest => .run .reset (s.withScript rest)

/-- What happens next. -/
def fetch (s : State) : Fetched :=
  if s.rstLow then fetchInReset s
  else
    match s.script with
    | [] => .run s.autoInstr s
    | f :: rest => fetchFrame f (s.withScript rest)

/-- The state whose next event is this frame, out of reset. -/
def State.withFrame (s : State) (f : Frame) : State :=
  { s with script := f :: s.script, rstLow := false }

/-- The frame that carries a word of spec/opcode_table.json which is no MS code: the port word on the
port of its `op`, or the id with zero operands. -/
def tableFrame (nbits w : Nat) : Frame :=
  if nbits ≤ 8 then .opId (BitVec.ofNat 8 w) .tsq 0
  else match decodeHcmd (BitVec.ofNat 40 w) with
    | .ok _ => .hcmd (BitVec.ofNat 40 w)
    | .error _ => .drvCmd (BitVec.ofNat 40 w)

/-- The state whose next step runs the operation of this table word. A format S operation is selected
by MS, so MS is set to the code and SM is scheduled (30_encoding.md R89); a reserved code selects
nothing, and stands as the unassigned id `0x30 | MS` (log 21). -/
def State.placeTableWord (s : State) (nbits w : Nat) : State :=
  if tableWordIsS nbits w then
    match MotionState.ofCode (BitVec.ofNat 3 w) with
    | some m => { s.withFrame .stepSM with ms := m }
    | none => s.withFrame (.opId (0x30 ||| BitVec.ofNat 8 w) .tsq 0)
  else s.withFrame (tableFrame nbits w)

end Sys2Proof.Machine
end

