-- ==== Sys2Proof/Machine/RingBuffer.lean ====
section
/-! DEFINITION. The register realisation of a queue (10_state.md R32): storage, read index and count.
State holds the sequence `Q.items`, which R31 makes normative; this is the ring buffer that realises
it, with the register pseudocode of 41_queue_share.md R140 and R142. -/

namespace Sys2Proof.Machine

/-- `Q.CAP`, `Q.mem`, `Q.rd`, `Q.cnt`. -/
structure RingBuffer where
  cap : Nat
  mem : List Entry
  rd : Nat
  cnt : Nat
  deriving DecidableEq, Repr

/-- Legal values of the ring registers (10_state.md R30). -/
def RingBuffer.ok (r : RingBuffer) : Bool :=
  decide (0 < r.cap) && decide (r.mem.length = r.cap) && decide (r.rd < r.cap) && decide (r.cnt ≤ r.cap)

/-- One storage cell; no rule reads outside `mem` (R61). -/
def RingBuffer.cell (r : RingBuffer) (i : Nat) : Entry := r.mem.getD (i % r.cap) 0

/-- The abstraction `[ mem[(rd + i) mod CAP] for i in 0 .. cnt − 1 ]` (R32). -/
def RingBuffer.items (r : RingBuffer) : List Entry := (List.range r.cnt).map fun i => r.cell (r.rd + i)

/-- Reset: `rd = 0`, `cnt = 0`, storage as it was (R32, 70_reset_and_hazards.md R281). -/
def RingBuffer.reset (r : RingBuffer) : RingBuffer := { r with rd := 0, cnt := 0 }

/-- `put` on the registers (R140). -/
def RingBuffer.put (r : RingBuffer) (v : Entry) : RingBuffer :=
  if r.cnt = r.cap then { r with mem := r.mem.set r.rd v, rd := (r.rd + 1) % r.cap }
  else { r with mem := r.mem.set ((r.rd + r.cnt) % r.cap) v, cnt := r.cnt + 1 }

/-- `get` on the registers (R142). -/
def RingBuffer.get (r : RingBuffer) : Option (Entry × RingBuffer) :=
  if r.cnt = 0 then none
  else some (r.cell r.rd, { r with rd := (r.rd + 1) % r.cap, cnt := r.cnt - 1 })

end Sys2Proof.Machine
end

