-- ==== Sys2Proof/Machine/Script.lean ====
section
/-! DEFINITION. The stimulus script of 30_encoding.md R104 and R105, in abstract form: its lines and
the events they stand for. A script is what this block has for a program (00_scope.md R16). -/

namespace Sys2Proof.Machine

/-- The agents a `STEP` line can schedule. -/
inductive StepAgent where
  | est
  | int
  | sm
  deriving DecidableEq, Repr

/-- One line; a Num operand is a decimal literal, held as the rational it denotes. A rational has one
zero, so a line with the literal `-0.0` sends +0.0; a line sends −0.0 with a negative literal that rounds
to zero (DESIGN CHOICE, unsafe, log 27). -/
inductive Line where
  | reset
  | adv (n : Nat)
  | edge
  | putt (v : Rat)
  | puts (v : Rat)
  | step (a : StepAgent)
  | edges (n p : Nat)
  | settle
  | poll
  deriving DecidableEq, Repr

/-- The schedule of one agent. -/
def StepAgent.frame : StepAgent → Frame
  | .est => encode .estStep
  | .int => encode .intStep
  | .sm => .stepSM

/-- `ADV n`: `n` times TICK_ADV. -/
def advFrames (n : Nat) : List Frame := List.replicate n (encode .tickAdv)

/-- The events of one line; the operand literals are converted by `lit` (40_numerics.md R114). -/
def Line.frames : Line → List Frame
  | .reset => [encode .reset]
  | .adv n => advFrames n
  | .edge => [encode .ecCapture]
  | .putt v => [encode (.putTorque (F32.lit v))]
  | .puts v => [encode (.putSpeed (F32.lit v))]
  | .step a => [a.frame]
  | .edges n p => (List.replicate n (advFrames p ++ [encode .ecCapture])).flatten
  | .settle => [.settle]
  | .poll => advFrames Config.pollTicks ++ [StepAgent.sm.frame]

/-- The events of a script. -/
def scriptFrames (ls : List Line) : List Frame := ls.flatMap Line.frames

end Sys2Proof.Machine
end

