-- ==== Sys2Proof/Machine/Status.lean ====
section
/-! DEFINITION. The status outputs (10_state.md R29, 30_encoding.md R82) and the observation points
of a run (70_reset_and_hazards.md R296). All are read-only. -/

namespace Sys2Proof.Machine

/-- The six status outputs. -/
structure Status where
  ms : BitVec 3
  aspd : BitVec 32
  omega : BitVec 32
  tsqCnt : BitVec 3
  tqqCnt : BitVec 2
  scqCnt : BitVec 2
  deriving DecidableEq, Repr

/-- The outputs in a state. -/
def State.status (s : State) : Status where
  ms := s.ms.code
  aspd := s.aspd
  omega := s.intOmega
  tsqCnt := BitVec.ofNat 3 s.tsq.length
  tqqCnt := BitVec.ofNat 2 s.tqq.length
  scqCnt := BitVec.ofNat 2 s.scq.length

/-- *Settled*: EST, INT and SM all wait for the environment (R296). -/
def Block.settled {α : Type} (b : Block α) : Bool :=
  b.tsq.isEmpty && b.tqq.isEmpty && decide (b.ms = .idle) && b.scq.isEmpty

/-- *Quiet*: no operation blocked on a queue is enabled, though a poll may be due (R296). -/
def Block.quiet {α : Type} (b : Block α) : Bool :=
  b.tsq.isEmpty && b.tqq.isEmpty && (decide (b.ms ≠ .idle) || b.scq.isEmpty)

end Sys2Proof.Machine
end

