-- ==== Sys2Proof/Safety.lean ====
section
/-! DEFINITION. What claims about runs are stated in terms of: the invariants of 10_state.md R39, which
scripts are the hardware's own moves (00_scope.md R9, 30_encoding.md R91), and the pairing of the
driver words (45_state_machine.md R205). -/

namespace Sys2Proof.Machine

/-- The bounds of R39 on the queues and the poll timer. -/
abbrev State.Sized (s : State) : Prop :=
  s.tsq.length ≤ Config.tsqCap ∧ s.tqq.length ≤ Config.cmdqCap ∧ s.scq.length ≤ Config.cmdqCap ∧
    s.pollCnt.toNat ≤ Config.pollTicks

/-- The operation is a step of an agent of R9. The storage primitives, GET_DIRECTION (R91) and the
driver words (46_driver_port.md R220) are not: they occur inside such steps. -/
def isAgentStep : Instr → Bool
  | .reset => true
  | .putTorque _ => true
  | .putSpeed _ => true
  | .setDirection _ => false
  | .brake => false
  | .unbrake => false
  | .commandSpeed _ => false
  | .getDirection => false
  | .tickAdv => true
  | .ecCapture => true
  | .estStep => true
  | .intStep => true
  | .smIdle => true
  | .smAcc => true
  | .smDec => true
  | .smXhl => true
  | .smXlh => true
  | .qPut _ _ => false
  | .qGet _ => false
  | .shPut _ => false
  | .shGet => false

/-- The frame is a move of an agent of R9: no primitive and no driver word run alone. -/
def agentFrame (f : Frame) : Bool :=
  match decode f with
  | some (.ok i) => isAgentStep i
  | some (.error _) => true
  | none => true

/-- The frame does not reset the block. -/
def noResetFrame (f : Frame) : Bool :=
  match f with
  | .rstN level => level
  | .opId id _ _ => decide (id ≠ 0x00)
  | _ => true

/-- Every event to come is a move of an agent of R9. -/
abbrev State.AgentScript (s : State) : Prop := s.script.all agentFrame = true

/-- Every event to come is a move of an agent of R9 other than a reset. -/
abbrev State.RunningScript (s : State) : Prop :=
  s.rstLow = false ∧ s.script.all (fun f => agentFrame f && noResetFrame f) = true

/-- `|x| ≤ limit` (R39). -/
abbrev WithinMagnitude (x limit : Num32) : Prop := F32.le (F32.abs x) limit = true

/-- RPM_MAX, the envelope in rpm (44_torque_integrator.md R184). It is an infinity for OMEGA_MAX above
0x7DD6774F (log 29). -/
def rpmMax (c : Cfg) : Num32 := radToRpm Numerics.f32 c.omegaMax

/-- What a speed in rpm can be that came from SCQ: no NaN, and finite where RPM_MAX is (log 29). -/
abbrev SpeedStored (c : Cfg) (x : Num32) : Prop :=
  F32.isNaN x = false ∧ (F32.isFinite (rpmMax c) = true → F32.isFinite x = true)

/-- Every value stored is finite, the speeds in rpm that come from SCQ where RPM_MAX is finite; none is
ever a NaN; INT.omega is within the envelope (R39, 40_numerics.md R128(a), (d); log 29). -/
abbrev State.ValuesFinite (s : State) : Prop :=
  F32.isFinite s.aspd = true ∧ F32.isFinite s.intOmega = true ∧
    WithinMagnitude s.intOmega s.cfg.omegaMax ∧ s.tqq.all F32.isFinite = true ∧
    s.scq.all (fun x => decide (SpeedStored s.cfg x)) = true ∧ SpeedStored s.cfg s.smCmd ∧
    SpeedStored s.cfg s.drv.spd

/-- The states that lie between a BRAKE and the next UNBRAKE (45_state_machine.md R205). -/
def motionBrakes : MotionState → Bool
  | .idle => false
  | .accelerating => false
  | .decelerating => true
  | .crossHighToLow => true
  | .crossLowToHigh => true

/-- The pairing of R205 over a whole sequence of driver words; the index says whether the last of
BRAKE and UNBRAKE was BRAKE. BRAKE comes right after COMMAND_SPEED 0.0; UNBRAKE right before a
COMMAND_SPEED; SET_DIRECTION only while braked and right before UNBRAKE; no COMMAND_SPEED between a
BRAKE and the next UNBRAKE. -/
inductive Paired : Bool → List PortWord → Prop
  | start : Paired false []
  | speed {l : List PortWord} (m : Num32) : Paired false l →
      Paired false (l ++ [DrvWord.word (.commandSpeed (F32.abs m))])
  | brake {l : List PortWord} : Paired false l →
      Paired true (l ++ [DrvWord.word (.commandSpeed 0), DrvWord.word .brake])
  | unbrake {l : List PortWord} (m : Num32) : Paired true l →
      Paired false (l ++ [DrvWord.word .unbrake, DrvWord.word (.commandSpeed (F32.abs m))])
  | cross {l : List PortWord} (p : Polarity) (m : Num32) : Paired true l →
      Paired false (l ++ [DrvWord.word (.setDirection p), DrvWord.word .unbrake,
        DrvWord.word (.commandSpeed (F32.abs m))])

/-- The driver words so far are paired, the last of them agrees with MS, and the reference driver is
braked in the states that brake. -/
def State.BrakePaired (s : State) : Prop :=
  Paired (motionBrakes s.ms) s.drvOut ∧ (motionBrakes s.ms = true → s.drv.brk = .braked)

/-- The work left to SETTLE: an EST_STEP per timestamp, an INT_STEP and at most one SM_IDLE per
torque, an SM_IDLE per speed command (70_reset_and_hazards.md R297). -/
def State.settleWork (s : State) : Nat := s.tsq.length + 2 * s.tqq.length + s.scq.length

end Sys2Proof.Machine
end

