-- ==== Sys2Proof/Certificates/Slice0/Obligations.lean ====
section
/-! DEFINITION. The statements for the provers. Each is said over all states; an operation's result is
the whole next state, so it is the operation's frame too. -/

open Sys2Proof Sys2Proof.Machine

/-! ### Reset -/

/-- R280: RESET from every state; nothing of the driver changes and no driver word is emitted. R280,
R284: while RST_N is low it takes precedence: whatever else is enabled and whatever event is next, but
the release of the pin, the step is RESET. That the pin's level is held, in the field `rstLow`, and that
the event is spent, is the model's choice (log 18). -/
def Obligations.ResetSetsEveryRegister : Prop :=
  (∀ (q : QueueId) (v : Entry), decodeId 0x00 q v = .ok .reset) ∧
  (∀ s : State, exec .reset s = .next { s with
    tick := 0, tsq := [], tqq := [], scq := [], aspd := 0x00000000, estPrev := 0, intLast := 0,
    intOmega := 0x00000000, ms := .idle, smCmd := 0x00000000, pollCnt := 0, senseQ := true }) ∧
  (∀ s : State, s.rstLow = true → s.script.head? ≠ some (.rstN true) →
    step s = exec .reset { s with script := s.script.tail })

/-- R285, which the spec marks as derived from R280 and R92: the record S0 of every configuration (DRV.spd is unspecified there), and that in it EST, INT
and SM wait. -/
def Obligations.ResetStateIsS0 : Prop :=
  ∀ c : Cfg,
    (State.coldStart c).tick = 0 ∧ (State.coldStart c).tsq = [] ∧ (State.coldStart c).tqq = [] ∧
    (State.coldStart c).scq = [] ∧ (State.coldStart c).aspd = 0x00000000 ∧
    (State.coldStart c).estPrev = 0 ∧ (State.coldStart c).intLast = 0 ∧
    (State.coldStart c).intOmega = 0x00000000 ∧ (State.coldStart c).ms = .idle ∧
    (State.coldStart c).smCmd = 0x00000000 ∧ (State.coldStart c).pollCnt = 0 ∧
    (State.coldStart c).senseQ = true ∧ (State.coldStart c).drv.pol = c.polReset ∧
    (State.coldStart c).drv.brk = c.brkReset ∧
    (State.coldStart c).estEnabled = false ∧ (State.coldStart c).intEnabled = false ∧
    (∀ m : MotionState, (State.coldStart c).smEnabled m = false) ∧
    (State.coldStart c).settled = true

/-- R284: the pin going low resets; its release resets nothing and fires nothing, so the block runs
from the state the reset left. How the pin's level is held is the model's choice (log 18). -/
def Obligations.ResetPinActsAtOnce : Prop :=
  (∀ (s : State) (rest : List Frame), s.rstLow = false → s.script = .rstN false :: rest →
    step s = exec .reset { s with rstLow := true, script := rest }) ∧
  (∀ (s : State) (rest : List Frame), s.rstLow = true → s.script = .rstN true :: rest →
    step s = .next { s with rstLow := false, script := rest })

/-! ### The host port -/

/-- R150, R151: each command carries its operand in `arg` and puts it into its queue; a speed is not
clamped to the envelope; while MS is not Idle no step of the sequencer reads SCQ. -/
def Obligations.HostCommandsAreQueued : Prop :=
  (∀ s t : State, s.ms ≠ .idle → exec s.ms.instr s = .next t → t.scq = s.scq) ∧
  ∀ (v : Num32) (s : State),
    decodeHcmd (PortWord.mk 0x01 v) = .ok (.putTorque v) ∧
    decodeHcmd (PortWord.mk 0x02 v) = .ok (.putSpeed v) ∧
    (F32.isFinite v = true →
      exec (.putTorque v) s = .next { s with tqq := queuePut Config.cmdqCap s.tqq v } ∧
      exec (.putSpeed v) s = .next { s with scq := queuePut Config.cmdqCap s.scq v })

/-- R101, R152: an operand with `arg[30:23] = 0xFF` is refused, every other is accepted. -/
def Obligations.HostOperandsAreFinite : Prop :=
  ∀ (v : Num32) (s : State),
    (v.extractLsb' 23 8 = 0xFF → exec (.putTorque v) s = .refused (.nonFiniteOperand v) ∧
      exec (.putSpeed v) s = .refused (.nonFiniteOperand v)) ∧
    (v.extractLsb' 23 8 ≠ 0xFF → exec (.putTorque v) s = .next (s.put .tqq v) ∧
      exec (.putSpeed v) s = .next (s.put .scq v))

/-- R98: a reserved word on HCMD changes nothing; the model only spends the event. -/
def Obligations.ReservedHostWordIsIgnored : Prop :=
  ∀ (s : State) (w : PortWord) (rest : List Frame), s.rstLow = false → s.script = .hcmd w :: rest →
    w.extractLsb' 32 8 ≠ 0x01 → w.extractLsb' 32 8 ≠ 0x02 → step s = .next { s with script := rest }

/-! ### The Bounded Queue and the share -/

/-- R140: Q_PUT on the sequence, and the register pseudocode is the same thing for a ring of any
capacity in any legal position. -/
def Obligations.QueuePutDropsTheOldest : Prop :=
  (∀ (q : QueueId) (v : Entry) (s : State), exec (.qPut q v) s = .next (s.setItems q
    (if queueCap q < (s.items q ++ [v]).length then (s.items q ++ [v]).tail
      else s.items q ++ [v]))) ∧
  (∀ (r : RingBuffer) (v : Entry), r.ok = true →
    (r.put v).ok = true ∧ (r.put v).cap = r.cap ∧ (r.put v).items =
      if r.cap < (r.items ++ [v]).length then (r.items ++ [v]).tail else r.items ++ [v])

/-- R142: Q_GET hands back and removes the oldest entry, and the register pseudocode is the same
thing. Where a get run alone leaves what it hands back is the model's (log 6). -/
def Obligations.QueueGetTakesTheOldest : Prop :=
  (∀ (q : QueueId) (s : State) (v : Entry) (rest : List Entry), s.items q = v :: rest →
    exec (.qGet q) s = .next { s.setItems q rest with ret := v }) ∧
  (∀ (r r' : RingBuffer) (v : Entry), r.ok = true → r.get = some (v, r') →
    r'.ok = true ∧ r.items = v :: r'.items) ∧
  (∀ r : RingBuffer, r.ok = true → (r.get = none ↔ r.items = []))

/-- R141: (a) a full queue loses its oldest entry, and the others keep their order; (b) three puts into
a queue of two leave the last two; (c) after at least CAP puts with no get it holds exactly the last CAP
values put, in the order put; (d) nothing else of the state changes; (e) both branches of the register
form write the slot `(rd + cnt) mod CAP`. The spec marks (c) and (e) as derived from R140. -/
def Obligations.OverflowLosesOnlyTheOldest : Prop :=
  (∀ (q : QueueId) (s : State) (v x : Entry) (rest : List Entry), s.items q = x :: rest →
    (s.items q).length = queueCap q → exec (.qPut q v) s = .next (s.setItems q (rest ++ [v]))) ∧
  (∀ (q : QueueId) (s : State) (a b c : Entry), s.items q = [] → queueCap q = 2 →
    (((s.put q a).put q b).put q c).items q = [b, c]) ∧
  (∀ (q : QueueId) (s : State) (vs : List Entry), (s.items q).length ≤ queueCap q →
    queueCap q ≤ vs.length →
    (vs.foldl (fun t v => t.put q v) s).items q = vs.drop (vs.length - queueCap q)) ∧
  (∀ (q : QueueId) (s : State) (v : Entry), ∃ l : List Entry, s.put q v = s.setItems q l) ∧
  (∀ (r : RingBuffer) (v : Entry), r.ok = true →
    (r.put v).mem = r.mem.set ((r.rd + r.cnt) % r.cap) v)

/-- R68, R313: a put and a get of one queue in either order differ exactly when the queue is full,
and then by the entry lost. -/
def Obligations.PutAndGetCommuteUnlessFull : Prop :=
  ∀ (q : QueueId) (s : State) (x v : Entry) (rest : List Entry), s.items q = x :: rest →
    ((s.items q).length < queueCap q →
      (s.put q v).get q = some (x, (s.setItems q rest).put q v)) ∧
    (∀ (y : Entry) (rest' : List Entry), (s.items q).length = queueCap q → rest = y :: rest' →
      (s.put q v).get q = some (y, s.setItems q (rest' ++ [v])) ∧
      ((s.setItems q rest).put q v).items q = y :: rest' ++ [v])

/-- R145, R146: SH_PUT overwrites the share; SH_GET hands back what it holds and changes nothing of
the block. Where it leaves what it hands back is the model's (log 6). -/
def Obligations.ShareHoldsTheLastValue : Prop :=
  (∀ (v : Num32) (s : State), exec (.shPut v) s = .next { s with aspd := v }) ∧
  (∀ s : State, exec .shGet s = .next { s with ret := s.aspd })

/-- R12, R143: an agent whose step is not enabled has no step. That this shows as an unchanged state
is the model's choice (log 4). -/
def Obligations.BlockedAgentsWait : Prop :=
  (∀ (q : QueueId) (s : State), s.items q = [] → exec (.qGet q) s = .next s) ∧
  (∀ s : State, s.tsq = [] → exec .estStep s = .next s) ∧
  (∀ s : State, s.tqq = [] → exec .intStep s = .next s) ∧
  (∀ s : State, s.ms ≠ .idle ∨ s.scq = [] → exec .smIdle s = .next s) ∧
  (∀ s : State, s.ms ≠ .accelerating ∨ s.pollCnt ≠ 0 → exec .smAcc s = .next s) ∧
  (∀ s : State, s.ms ≠ .decelerating ∨ s.pollCnt ≠ 0 → exec .smDec s = .next s) ∧
  (∀ s : State, s.ms ≠ .crossHighToLow ∨ s.pollCnt ≠ 0 → exec .smXhl s = .next s) ∧
  (∀ s : State, s.ms ≠ .crossLowToHigh ∨ s.pollCnt ≠ 0 → exec .smXlh s = .next s)

/-! ### The driver port -/

/-- R220 to R224: each driver word is appended to DRV_CMD with its encoding and obeyed at once by the
reference driver; nothing else changes. -/
def Obligations.DriverWordsActAtOnce : Prop :=
  (∀ s : State, exec (.setDirection .forward) s = .next { s with
    drv := { s.drv with pol := .forward }, drvOut := s.drvOut ++ [0x1000000000] }) ∧
  (∀ s : State, exec (.setDirection .reverse) s = .next { s with
    drv := { s.drv with pol := .reverse }, drvOut := s.drvOut ++ [0x1000000001] }) ∧
  (∀ s : State, exec .brake s = .next { s with
    drv := { s.drv with brk := .braked }, drvOut := s.drvOut ++ [0x1100000000] }) ∧
  (∀ s : State, exec .unbrake s = .next { s with
    drv := { s.drv with brk := .released }, drvOut := s.drvOut ++ [0x1200000000] }) ∧
  (∀ (m : Num32) (s : State), exec (.commandSpeed m) s = .next { s with
    drv := { s.drv with spd := m }, drvOut := s.drvOut ++ [(0x13 : BitVec 8) ++ m] })

/-- R225: GET_DIRECTION samples the polarity the driver holds, emits nothing and has no side effect on
the block; after SET_DIRECTION p it gives p. Where the sample is left is the model's (log 6). -/
def Obligations.GetDirectionSamplesThePolarity : Prop :=
  (∀ s : State, exec .getDirection s = .next { s with
    ret := if s.drv.pol = .forward then 0 else 1 }) ∧
  (∀ (p : Polarity) (s t : State), exec (.setDirection p) s = .next t → t.drvDir = p)

/-! ### The clock and the edge -/

/-- R160, R111: TICK counts modulo 2^32, POLL_CNT stops at 0, and nothing else changes; a script's
`ADV n` is `n` of these in a row. -/
def Obligations.TickAdvances : Prop :=
  (∀ n : Nat, (Line.adv n).frames = List.replicate n (encode .tickAdv)) ∧
  (∀ (q : QueueId) (v : Entry), decodeId 0x20 q v = .ok .tickAdv) ∧
  ∀ s : State, ∃ t : State, exec .tickAdv s = .next t ∧
    t.tick.toNat = (s.tick.toNat + 1) % 2 ^ 32 ∧
    t.pollCnt.toNat = (if 0 < s.pollCnt.toNat then s.pollCnt.toNat - 1 else 0) ∧
    t = { s with tick := t.tick, pollCnt := t.pollCnt }

/-- R162, R163: the whole operation is one put of TICK to TSQ. -/
def Obligations.EdgeCapturesTheTick : Prop :=
  (∀ (q : QueueId) (v : Entry), decodeId 0x21 q v = .ok .ecCapture) ∧
  ∀ s : State, exec .ecCapture s = .next { s with tsq :=
    if 4 < (s.tsq ++ [s.tick]).length then (s.tsq ++ [s.tick]).tail else s.tsq ++ [s.tick] }

/-- R36: an edge event is a sample 1 after a sample 0, and nothing else is; then SENSE_Q takes the
sample. -/
def Obligations.OnlyARisingSampleIsAnEdge : Prop :=
  ∀ (s : State) (level : Bool) (rest : List Frame), s.rstLow = false →
    s.script = .sense level :: rest →
    step s = if level = true ∧ s.senseQ = false
      then exec .ecCapture { s with senseQ := level, script := rest }
      else .next { s with senseQ := level, script := rest }

/-- R200: after an SM evaluation that ends outside Idle, `n` ticks leave POLL_CNT at 10000 − n, and the
polled operation is enabled exactly from 10000 ticks on; one that ends in Idle does not load the
timer, and SM_IDLE does not wait for it. -/
def Obligations.PollWaitsTenThousandTicks : Prop :=
  (∀ s : State, s.smEnabled .idle = true ↔ s.ms = .idle ∧ s.scq ≠ []) ∧
  ∀ (m : MotionState) (c : Num32) (s : State),
    ((sequence m c s).ms = .idle → (sequence m c s).pollCnt = s.pollCnt) ∧
    ((sequence m c s).ms ≠ .idle → ∀ n : Nat,
      (State.advanceTick^[n] (sequence m c s)).pollCnt.toNat = 10000 - n ∧
      ((State.advanceTick^[n] (sequence m c s)).smEnabled (sequence m c s).ms = true ↔ 10000 ≤ n))

/-! ### The speed estimator -/

/-- R112: the difference modulo 2^32 is the true elapsed tick count modulo 2^32, whatever wrap happened
between; what it is across a wrap the spec marks as derived from R111. -/
def Obligations.ModuloDifferenceIsElapsedTime : Prop :=
  (∀ cur prev : Tick, (mdiff cur prev : Int) = ((cur.toNat : Int) - (prev.toNat : Int)) % 2 ^ 32) ∧
  (∀ (prev : Tick) (n : Nat), mdiff (prev + BitVec.ofNat 32 n) prev = n % 2 ^ 32)

/-- R170, R171: the difference modulo 2^32; three rounded operations; the sign of the driver's polarity
now; EST.prev always refreshed; a zero difference publishes nothing. -/
def Obligations.EstStepPublishesTheSpeed : Prop :=
  (∀ (q : QueueId) (v : Entry), decodeId 0x22 q v = .ok .estStep) ∧
  (∀ s : State, s.estEnabled = true ↔ s.tsq ≠ []) ∧
  ∀ (s : State) (cur : Tick) (rest : List Entry) (dt : Nat) (mag : Num32), s.tsq = cur :: rest →
    (dt : Int) = ((cur.toNat : Int) - (s.estPrev.toNat : Int)) % 2 ^ 32 →
    mag = F32.mul (F32.div 0x3F800000 (F32.div (F32.ofU32 dt) 0x49742400)) 0x41700000 →
    exec .estStep s = .next { s with
      tsq := rest, estPrev := cur,
      aspd := if dt ≠ 0 then (if s.drv.pol = .forward then mag else F32.neg mag) else s.aspd }

/-- R173: whatever EST_STEP writes to ASPD is finite, with magnitude between 0x3B64E1C0 and
0x4B64E1C0; the spec marks this as derived from R129. -/
def Obligations.PublishedSpeedIsInRange : Prop :=
  ∀ (s : State) (cur : Tick) (rest : List Entry), s.tsq = cur :: rest → cur ≠ s.estPrev →
    ∃ t : State, exec .estStep s = .next t ∧ F32.isFinite t.aspd = true ∧
      F32.le 0x3B64E1C0 (F32.abs t.aspd) = true ∧ F32.le (F32.abs t.aspd) 0x4B64E1C0 = true ∧
      (F32.signBit t.aspd = true ↔ s.drv.pol = .reverse)

/-! ### The torque integrator -/

/-- R180: the five steps of the pseudocode, for a configuration that R8 admits. Where the last product
overflows it is the infinity of R116 (log 29). -/
def Obligations.IntStepIntegratesOnce : Prop :=
  (∀ (q : QueueId) (v : Entry), decodeId 0x23 q v = .ok .intStep) ∧
  (∀ s : State, s.intEnabled = true ↔ s.tqq ≠ []) ∧
  ∀ (s : State) (tq : Num32) (rest : List Entry) (d : Int) (dtTicks : Nat) (dtS alpha wMeas wNew wC : Num32),
    cfgOk s.cfg = true → s.tqq = tq :: rest →
    d = (s.tick.toNat : Int) - (s.intLast.toNat : Int) →
    (dtTicks : Int) = (if d ≤ 0 then 1000 else if 1000000 ≤ d then 1000000 else d) →
    dtS = F32.div (F32.ofU32 dtTicks) 0x49742400 →
    alpha = F32.div tq s.cfg.inertia →
    wMeas = F32.mul s.aspd 0x3DD67750 →
    wNew = F32.add (F32.mul alpha dtS) wMeas →
    wC = (if F32.gt wNew s.cfg.omegaMax then s.cfg.omegaMax
      else if F32.lt wNew (F32.neg s.cfg.omegaMax) then F32.neg s.cfg.omegaMax else wNew) →
    exec .intStep s = .next { s with
      tqq := rest, intLast := s.tick, intOmega := wC,
      scq := queuePut Config.cmdqCap s.scq (F32.mul wC 0x4118C9EB) }

/-- R182: the effective time step, in ticks and in seconds. -/
def Obligations.TimeStepIsClamped : Prop :=
  (∀ d : Int, d ≤ 0 → clampTicks d = 1000) ∧
  (∀ d : Int, 1000000 ≤ d → clampTicks d = 1000000) ∧
  (∀ d : Int, 1 ≤ d → d ≤ 999999 → (clampTicks d : Int) = d) ∧
  (∀ now last : Tick, sdiff now last < 0 ↔ now.toNat < last.toNat) ∧
  (∀ now last : Tick, 1 ≤ clampTicks (sdiff now last) ∧ clampTicks (sdiff now last) ≤ 1000000) ∧
  ticksToSec Numerics.f32 1000 = F32.lit (1 / 1000) ∧ ticksToSec Numerics.f32 1000000 = F32.lit 1

/-- R184: for every finite torque, every time step and every finite measured speed the output is
within ±RPM_MAX and INT.omega within ±OMEGA_MAX; the rule's RPM_MAX for OMEGA_MAX = 400.0. The
spec marks the bound in these numerics as derived from R131. -/
def Obligations.IntegratorStaysInTheEnvelope : Prop :=
  F32.mul 0x43C80000 0x4118C9EB = 0x456EBB7F ∧
  ∀ (s : State) (tq : Num32) (rest : List Entry), cfgOk s.cfg = true → s.tqq = tq :: rest →
    F32.isFinite tq = true → F32.isFinite s.aspd = true →
    ∃ (t : State) (out : Num32), exec .intStep s = .next t ∧
      t.scq = queuePut Config.cmdqCap s.scq out ∧
      F32.le (F32.neg s.cfg.omegaMax) t.intOmega = true ∧
      F32.le t.intOmega s.cfg.omegaMax = true ∧
      F32.le (F32.abs out) (F32.mul s.cfg.omegaMax 0x4118C9EB) = true

/-- R8: with J or OMEGA_MAX zero, negative or not finite the model refuses the configuration, in the
operation that reads it (log 24). -/
def Obligations.IllegalConfigurationIsRefused : Prop :=
  ∀ (s : State) (tq : Num32) (rest : List Entry), s.tqq = tq :: rest →
    (F32.isFinite s.cfg.inertia = false ∨ F32.le s.cfg.inertia 0 = true ∨
      F32.isFinite s.cfg.omegaMax = false ∨ F32.le s.cfg.omegaMax 0 = true) →
    exec .intStep s = .refused .invalidConfiguration

/-- Log 8: the configuration of State.reset is admitted, its J and OMEGA_MAX are the Nums that two free
numbers select, and what a number selects from is exactly the values that R8 admits. -/
def Obligations.OpenParametersAreLegalAndFree : Prop :=
  cfgOk State.reset.cfg = true ∧
  State.reset.cfg.inertia = Config.positiveNum Config.freeInertia ∧
  State.reset.cfg.omegaMax = Config.positiveNum Config.freeOmegaMax ∧
  (∀ x : Num32, (∃ n : Nat, Config.positiveNum n = x) ↔
    F32.isFinite x = true ∧ F32.gt x 0 = true)

/-! ### The sequencer -/

/-- R191, over the function of R202: the seven rows, that `gt` and `lt` exclude each other, that with
neither the two are equal, and which crossing a sign difference is (this last marked by the spec as
derived from R119). -/
def Obligations.IdleDecisionTable : Prop :=
  ∀ (c a : Num32) (d : Polarity), F32.isFinite c = true → F32.isFinite a = true →
    (F32.gt c a = true → F32.ge c 0 = F32.ge a 0 → d = .forward →
      smNext Numerics.f32 .idle c a d = (.accelerating, [.commandSpeed (F32.abs c)])) ∧
    (F32.gt c a = true → F32.ge c 0 = F32.ge a 0 → d = .reverse →
      smNext Numerics.f32 .idle c a d = (.decelerating, [.commandSpeed 0, .brake])) ∧
    (F32.gt c a = true → F32.ge c 0 ≠ F32.ge a 0 →
      smNext Numerics.f32 .idle c a d = (.decelerating, [.commandSpeed 0, .brake])) ∧
    (F32.lt c a = true → F32.ge c 0 = F32.ge a 0 → d = .forward →
      smNext Numerics.f32 .idle c a d = (.decelerating, [.commandSpeed 0, .brake])) ∧
    (F32.lt c a = true → F32.ge c 0 = F32.ge a 0 → d = .reverse →
      smNext Numerics.f32 .idle c a d = (.accelerating, [.commandSpeed (F32.abs c)])) ∧
    (F32.lt c a = true → F32.ge c 0 ≠ F32.ge a 0 →
      smNext Numerics.f32 .idle c a d = (.decelerating, [.commandSpeed 0, .brake])) ∧
    (F32.gt c a = false → F32.lt c a = false →
      smNext Numerics.f32 .idle c a d = (.idle, []) ∧ F32.eq c a = true) ∧
    ¬ (F32.gt c a = true ∧ F32.lt c a = true) ∧
    (F32.gt c a = true → F32.ge c 0 ≠ F32.ge a 0 → F32.ge c 0 = true ∧ F32.lt a 0 = true) ∧
    (F32.lt c a = true → F32.ge c 0 ≠ F32.ge a 0 → F32.ge a 0 = true ∧ F32.lt c 0 = true)

/-- R190. -/
def Obligations.SmIdleTakesACommand : Prop :=
  decodeS 0b000 = some .smIdle ∧
  (∀ s : State, s.smEnabled .idle = true ↔ s.ms = .idle ∧ s.scq ≠ []) ∧
  ∀ (s speedUp slowDown : State) (c : Num32) (rest : List Entry),
    s.ms = .idle → s.scq = c :: rest →
    speedUp = { s with
      scq := rest, smCmd := c, ms := .accelerating, pollCnt := 10000,
      drv := { s.drv with spd := F32.abs c },
      drvOut := s.drvOut ++ [(0x13 : BitVec 8) ++ F32.abs c] } →
    slowDown = { s with
      scq := rest, smCmd := c, ms := .decelerating, pollCnt := 10000,
      drv := { s.drv with spd := 0, brk := .braked },
      drvOut := s.drvOut ++ [0x1300000000, 0x1100000000] } →
    exec .smIdle s = .next (
      if F32.gt c s.aspd then
        if F32.ge c 0 = F32.ge s.aspd 0 ∧ s.drv.pol = .forward then speedUp else slowDown
      else if F32.lt c s.aspd then
        if F32.ge c 0 = F32.ge s.aspd 0 ∧ s.drv.pol = .reverse then speedUp else slowDown
      else { s with scq := rest, smCmd := c })

/-- R193. -/
def Obligations.SmAccWaitsForTheBand : Prop :=
  decodeS 0b001 = some .smAcc ∧
  (∀ s : State, s.smEnabled .accelerating = true ↔ s.ms = .accelerating ∧ s.pollCnt = 0) ∧
  ∀ s : State, s.ms = .accelerating → s.pollCnt = 0 →
    exec .smAcc s = .next (
      if F32.le (F32.abs (F32.sub s.aspd s.smCmd)) 0x41A00000 then { s with ms := .idle }
      else { s with pollCnt := 10000 })

/-- R194. -/
def Obligations.SmDecBrakesOrCrosses : Prop :=
  decodeS 0b010 = some .smDec ∧
  (∀ s : State, s.smEnabled .decelerating = true ↔ s.ms = .decelerating ∧ s.pollCnt = 0) ∧
  ∀ s : State, s.ms = .decelerating → s.pollCnt = 0 →
    exec .smDec s = .next (
      if F32.ge s.smCmd 0 = F32.ge s.aspd 0 then
        if F32.le (F32.abs (F32.sub s.aspd s.smCmd)) 0x41A00000 then
          { s with
            ms := .idle, drv := { s.drv with brk := .released, spd := F32.abs s.smCmd },
            drvOut := s.drvOut ++ [0x1200000000, (0x13 : BitVec 8) ++ F32.abs s.smCmd] }
        else { s with pollCnt := 10000 }
      else if F32.lt (F32.abs s.aspd) 0x41A00000 then
        if s.drv.pol = .reverse then { s with ms := .crossHighToLow, pollCnt := 10000 }
        else { s with ms := .crossLowToHigh, pollCnt := 10000 }
      else { s with pollCnt := 10000 })

/-- R196, R197: CrossHighToLow sets Forward, CrossLowToHigh sets Reverse; each is entered only from
SM_DEC, under the polarity it reverses. -/
def Obligations.CrossStatesReverse : Prop :=
  decodeS 0b011 = some .smXhl ∧ decodeS 0b100 = some .smXlh ∧
  (∀ s : State, (s.smEnabled .crossHighToLow = true ↔ s.ms = .crossHighToLow ∧ s.pollCnt = 0) ∧
    (s.smEnabled .crossLowToHigh = true ↔ s.ms = .crossLowToHigh ∧ s.pollCnt = 0)) ∧
  (∀ (i : Instr) (s t : State), exec i s = .next t →
    (s.ms ≠ .crossHighToLow → t.ms = .crossHighToLow → i = .smDec ∧ s.drv.pol = .reverse) ∧
    (s.ms ≠ .crossLowToHigh → t.ms = .crossLowToHigh → i = .smDec ∧ s.drv.pol = .forward)) ∧
  (∀ s : State, s.ms = .crossHighToLow → s.pollCnt = 0 →
    exec .smXhl s = .next { s with
      ms := .accelerating, pollCnt := 10000,
      drv := { pol := .forward, brk := .released, spd := F32.abs s.smCmd },
      drvOut := s.drvOut ++ [0x1000000000, 0x1200000000, (0x13 : BitVec 8) ++ F32.abs s.smCmd] }) ∧
  (∀ s : State, s.ms = .crossLowToHigh → s.pollCnt = 0 →
    exec .smXlh s = .next { s with
      ms := .accelerating, pollCnt := 10000,
      drv := { pol := .reverse, brk := .released, spd := F32.abs s.smCmd },
      drvOut := s.drvOut ++ [0x1000000001, 0x1200000000, (0x13 : BitVec 8) ++ F32.abs s.smCmd] })

/-- R199: the edges of the graph and the operations of their words; there is no other. -/
def Obligations.TransitionGraphIsClosed : Prop :=
  ∀ (m : MotionState) (s t : State), s.smEnabled m = true → exec m.instr s = .next t →
    (m, t.ms, (t.drvOut.drop s.drvOut.length).map PortWord.op) ∈
      ([(.idle, .idle, []), (.idle, .accelerating, [0x13]), (.idle, .decelerating, [0x13, 0x11]),
        (.accelerating, .idle, []), (.accelerating, .accelerating, []),
        (.decelerating, .idle, [0x12, 0x13]), (.decelerating, .crossHighToLow, []),
        (.decelerating, .crossLowToHigh, []), (.decelerating, .decelerating, []),
        (.crossHighToLow, .accelerating, [0x10, 0x12, 0x13]),
        (.crossLowToHigh, .accelerating, [0x10, 0x12, 0x13])] :
        List (MotionState × MotionState × List OpId)) ∧
    t.drvOut.take s.drvOut.length = s.drvOut

/-- R203: no agent's step ever emits COMMAND_SPEED with bit 31 set, from any state. That the sign bit is
clear, which excludes −0.0 too, the spec marks as derived from R190, R194, R196 and R197. -/
def Obligations.CommandSpeedIsNeverNegative : Prop :=
  ∀ (i : Instr) (s t : State), isAgentStep i = true → exec i s = .next t →
    ∀ w ∈ t.drvOut.drop s.drvOut.length, w.extractLsb' 32 8 = 0x13 → w.getLsbD 31 = false

/-- R204: within the deadband, inclusive, Accelerating ends in Idle, and so does Decelerating, through
an unbrake, in the same-sign case; with a sign mismatch and `|a| < 20` it crosses instead. -/
def Obligations.DeadbandEndsInIdle : Prop :=
  ∀ s : State, s.pollCnt = 0 →
    F32.le (F32.abs (F32.sub s.aspd s.smCmd)) 0x41A00000 = true →
    (s.ms = .accelerating → ∃ t : State, exec .smAcc s = .next t ∧ t.ms = .idle ∧
      t.drvOut = s.drvOut) ∧
    (s.ms = .decelerating → F32.ge s.smCmd 0 = F32.ge s.aspd 0 →
      ∃ t : State, exec .smDec s = .next t ∧ t.ms = .idle ∧ t.drv.brk = .released) ∧
    (s.ms = .decelerating → F32.ge s.smCmd 0 ≠ F32.ge s.aspd 0 →
      F32.lt (F32.abs s.aspd) 0x41A00000 = true →
      ∃ t : State, exec .smDec s = .next t ∧ (t.ms = .crossHighToLow ∨ t.ms = .crossLowToHigh) ∧
        t.drvOut = s.drvOut)

/-! ### The whole machine -/

/-- R20, R30, R252: who may write each register. The primitives and the driver words run alone count
as their own writers. -/
def Obligations.RegistersHaveTheirWriters : Prop :=
  ∀ (i : Instr) (s t : State), exec i s = .next t →
    (t.tick ≠ s.tick → i = .tickAdv ∨ i = .reset) ∧
    (t.tsq ≠ s.tsq → i = .ecCapture ∨ i = .estStep ∨ i = .reset ∨ i = .qGet .tsq ∨
      ∃ v, i = .qPut .tsq v) ∧
    (t.tqq ≠ s.tqq → i = .intStep ∨ i = .reset ∨ i = .qGet .tqq ∨ (∃ v, i = .putTorque v) ∨
      ∃ v, i = .qPut .tqq v) ∧
    (t.scq ≠ s.scq → i = .intStep ∨ i = .smIdle ∨ i = .reset ∨ i = .qGet .scq ∨
      (∃ v, i = .putSpeed v) ∨ ∃ v, i = .qPut .scq v) ∧
    (t.aspd ≠ s.aspd → i = .estStep ∨ i = .reset ∨ ∃ v, i = .shPut v) ∧
    (t.estPrev ≠ s.estPrev → i = .estStep ∨ i = .reset) ∧
    (t.intLast ≠ s.intLast → i = .intStep ∨ i = .reset) ∧
    (t.intOmega ≠ s.intOmega → i = .intStep ∨ i = .reset) ∧
    (t.ms ≠ s.ms → i = .reset ∨ i = s.ms.instr) ∧
    (t.smCmd ≠ s.smCmd → i = .smIdle ∨ i = .reset) ∧
    (t.pollCnt ≠ s.pollCnt → i = .tickAdv ∨ i = .reset ∨ i = s.ms.instr) ∧
    (t.senseQ ≠ s.senseQ → i = .reset) ∧
    (t.drv.pol ≠ s.drv.pol → i = .smXhl ∨ i = .smXlh ∨ ∃ p, i = .setDirection p) ∧
    (t.drv.brk ≠ s.drv.brk → i = .smIdle ∨ i = .smDec ∨ i = .smXhl ∨ i = .smXlh ∨ i = .brake ∨
      i = .unbrake) ∧
    (t.drv.spd ≠ s.drv.spd → i = .smIdle ∨ i = .smDec ∨ i = .smXhl ∨ i = .smXlh ∨
      ∃ m, i = .commandSpeed m) ∧
    (t.drvOut ≠ s.drvOut → i = s.ms.instr ∨ i = .brake ∨ i = .unbrake ∨
      (∃ p, i = .setDirection p) ∨ ∃ m, i = .commandSpeed m) ∧
    t.cfg = s.cfg ∧ t.script = s.script ∧ t.rstLow = s.rstLow

/-- R242: under an admitted configuration the one thing refused is a non-finite host operand; nothing
faults. -/
def Obligations.OnlyNonFiniteOperandsAreRefused : Prop :=
  ∀ (i : Instr) (s : State), cfgOk s.cfg = true →
    (∃ t : State, exec i s = .next t) ∨
    ∃ v : Num32, (i = .putTorque v ∨ i = .putSpeed v) ∧ F32.isFinite v = false

/-- R176: what EST_STEP does depends on TSQ, EST.prev and DRV_DIR alone. -/
def Obligations.EstimatorReadsOnlyItsInputs : Prop :=
  ∀ s t s' t' : State, s.tsq = t.tsq → s.estPrev = t.estPrev → s.drv.pol = t.drv.pol →
    exec .estStep s = .next s' → exec .estStep t = .next t' →
    s'.tsq = t'.tsq ∧ s'.estPrev = t'.estPrev ∧ s'.drvOut = s.drvOut ∧
    (s'.aspd = t'.aspd ∨ s'.aspd = s.aspd ∧ t'.aspd = t.aspd)

/-- R206: what the sequencer does depends on MS, SM.cmd, POLL_CNT, SCQ, ASPD and DRV_DIR alone: never
on TSQ, TQQ, TICK, EST.prev or INT.*. -/
def Obligations.SequencerReadsOnlyItsInputs : Prop :=
  ∀ s t s' t' : State, s.ms = t.ms → s.smCmd = t.smCmd → s.pollCnt = t.pollCnt → s.scq = t.scq →
    s.aspd = t.aspd → s.drv = t.drv →
    exec s.ms.instr s = .next s' → exec t.ms.instr t = .next t' →
    s'.ms = t'.ms ∧ s'.smCmd = t'.smCmd ∧ s'.pollCnt = t'.pollCnt ∧ s'.scq = t'.scq ∧
    s'.drv = t'.drv ∧ s'.drvOut.drop s.drvOut.length = t'.drvOut.drop t.drvOut.length

/-- R183, R186(d): what INT_STEP does depends on TQQ, TICK, INT.last, ASPD and the configuration
alone: not on INT.omega, MS, DRV_DIR or SCQ. Both states wait, or the same value goes to INT.omega in both
and the same value is put to SCQ, whatever SCQ held. -/
def Obligations.IntegratorReadsOnlyItsInputs : Prop :=
  ∀ s t s' t' : State, s.tqq = t.tqq → s.tick = t.tick → s.intLast = t.intLast →
    s.aspd = t.aspd → s.cfg = t.cfg →
    exec .intStep s = .next s' → exec .intStep t = .next t' →
    s'.tqq = t'.tqq ∧ s'.intLast = t'.intLast ∧ s'.drvOut = s.drvOut ∧ t'.drvOut = t.drvOut ∧
    (s'.intOmega = s.intOmega ∧ s'.scq = s.scq ∧ t'.intOmega = t.intOmega ∧ t'.scq = t.scq ∨
      s'.intOmega = t'.intOmega ∧ ∃ out : Num32, s'.scq = queuePut Config.cmdqCap s.scq out ∧
        t'.scq = queuePut Config.cmdqCap t.scq out)

/-- R39: the bounds on the queues and on POLL_CNT are kept by every step, whatever the script. -/
def Obligations.EveryStepKeepsTheBounds : Prop :=
  ∀ s t : State, s.Sized → step s = .next t → t.Sized

/-- The bounds hold after a cold start of every configuration, and so at State.reset. -/
def Obligations.BoundsHoldAtReset : Prop :=
  (∀ c : Cfg, (State.coldStart c).Sized) ∧ State.reset.Sized

/-- R39, R128(a), (d): with an admitted configuration (R8) and a script of the hardware's own moves, no
value stored becomes a NaN, every one stays finite and INT.omega stays within the envelope. Where RPM_MAX
overflows, the entries of SCQ, SM.cmd and DRV.spd are said to be no NaN only: R180 with R116 stores an
infinity there (log 29). -/
def Obligations.EveryStepKeepsValuesFinite : Prop :=
  ∀ s t : State, cfgOk s.cfg = true → s.AgentScript → s.ValuesFinite → step s = .next t →
    cfgOk t.cfg = true ∧ t.AgentScript ∧ t.ValuesFinite

/-- The values are finite after a cold start of every admitted configuration. DRV.spd is finite there by
the model's choice (log 10). -/
def Obligations.ValuesAreFiniteAtReset : Prop :=
  ∀ c : Cfg, cfgOk c = true → (State.coldStart c).ValuesFinite ∧ (State.coldStart c).scq = [] ∧
    F32.isFinite (State.coldStart c).smCmd = true ∧ F32.isFinite (State.coldStart c).drv.spd = true

/-- R205: along every run without a reset the driver words stay paired. -/
def Obligations.EveryStepKeepsWordsPaired : Prop :=
  ∀ s t : State, s.RunningScript → s.BrakePaired → step s = .next t →
    t.RunningScript ∧ t.BrakePaired

/-- The pairing holds after a cold start, before any word. -/
def Obligations.WordsArePairedAtReset : Prop :=
  ∀ c : Cfg, (State.coldStart c).BrakePaired ∧ (State.coldStart c).RunningScript

/-! ### Encoding and fetch -/

/-- Every well-formed instruction is read back from its own frame. -/
def Obligations.DecodeOfEncode : Prop :=
  ∀ i : Instr, i.wellFormed = true → decode (encode i) = some (.ok i)

/-- Every word has one meaning: a port word that decodes is the encoding of what it decodes to, and an
id that decodes is the id of what it decodes to. -/
def Obligations.EncodeOfDecode : Prop :=
  (∀ (w : PortWord) (i : Instr), decodeHcmd w = .ok i → encode i = .hcmd w) ∧
  (∀ (w : PortWord) (i : Instr), decodeDrvCmd w = .ok i → encode i = .drvCmd w) ∧
  (∀ (id : OpId) (q : QueueId) (v : Entry) (i : Instr), decodeId id q v = .ok i → i.id = id)

/-- Words written out from 30_encoding.md R86, R89 and R90. -/
def Obligations.SpecWordsDecode : Prop :=
  decodeHcmd 0x013F000000 = .ok (.putTorque 0x3F000000) ∧
  decodeHcmd 0x02C3480000 = .ok (.putSpeed 0xC3480000) ∧
  decodeDrvCmd 0x1000000001 = .ok (.setDirection .reverse) ∧
  decodeDrvCmd 0x1343FA0000 = .ok (.commandSpeed 0x43FA0000) ∧
  decodeS 0b010 = some .smDec ∧ decodeS 0b101 = none ∧
  decodeId 0x22 .tsq 0 = .ok .estStep ∧ decodeId 0x41 .tqq 0 = .ok (.qGet .tqq)

/-- A step out of reset runs the instruction its event decodes to, with the event spent. -/
def Obligations.StepRunsTheDecodedInstruction : Prop :=
  (∀ (s : State) (f : Frame) (rest : List Frame) (i : Instr), s.rstLow = false →
    s.script = f :: rest → decode f = some (.ok i) → step s = exec i { s with script := rest }) ∧
  (∀ (s : State) (rest : List Frame), s.rstLow = false → s.script = .stepSM :: rest →
    step s = exec s.ms.instr { s with script := rest })

/-- R246, R247: with no event given, the enabled agent of the highest priority steps, and if all wait
the clock ticks (log 2). -/
def Obligations.IdleScheduleFollowsPriority : Prop :=
  ∀ s : State, s.rstLow = false → s.script = [] →
    step s = if s.tsq ≠ [] then exec .estStep s
      else if s.tqq ≠ [] then exec .intStep s
      else if s.smEnabled s.ms = true then exec s.ms.instr s
      else exec .tickAdv s

/-- R105, R297: under an admitted configuration SETTLE runs one enabled step while the state is not
quiet, EST_STEP before INT_STEP before SM_IDLE, each time with less work left, and is spent when it is
quiet. That it stays in the script until then is the model's choice (log 1). -/
def Obligations.SettleTerminates : Prop :=
  ∀ (s : State) (rest : List Frame), cfgOk s.cfg = true → s.rstLow = false →
    s.script = .settle :: rest →
    (s.quiet = false →
      step s = (if s.tsq ≠ [] then exec .estStep s
        else if s.tqq ≠ [] then exec .intStep s else exec .smIdle s) ∧
      ∃ t : State, step s = .next t ∧ t.script = s.script ∧
        t.settleWork < s.settleWork ∧ t.tick = s.tick) ∧
    (s.quiet = true → step s = .next { s with script := rest })

/-- R29: the status outputs show the registers, and the count outputs are wide enough: they read back
as the counts. -/
def Obligations.StatusOutputsShowTheState : Prop :=
  ∀ s : State, s.Sized →
    MotionState.ofCode s.status.ms = some s.ms ∧ s.status.aspd = s.aspd ∧
    s.status.omega = s.intOmega ∧ s.status.tsqCnt.toNat = s.tsq.length ∧
    s.status.tqqCnt.toNat = s.tqq.length ∧ s.status.scqCnt.toNat = s.scq.length

/-! ### The numerics -/

/-- R116, R121: rounding is to nearest, ties to even. No finite magnitude is closer to the exact ratio
than a finite result, and one as close has an even last bit only if the result has too. -/
def Obligations.RoundingIsToNearestEven : Prop :=
  ∀ (p q m : Nat), 0 < q → m < F32.infMag → F32.round p q < F32.infMag →
    |(p : Int) - F32.units (F32.round p q) * q| ≤ |(p : Int) - F32.units m * q| ∧
    (|(p : Int) - F32.units (F32.round p q) * q| = |(p : Int) - F32.units m * q| →
      m ≠ F32.round p q → F32.round p q % 2 = 0)

/-- R116: an exact result overflows to infinity exactly from half a unit above the largest finite
value on. -/
def Obligations.OverflowGivesInfinity : Prop :=
  ∀ (p q : Nat), 0 < q →
    (F32.round p q = F32.infMag ↔ (2 ^ 25 - 1) * 2 ^ 252 * q ≤ p)

/-- NP3 of R131: rounding is monotone. -/
def Obligations.OperationsAreMonotone : Prop :=
  ∀ x y c : Num32, F32.isFinite x = true → F32.isFinite y = true → F32.isFinite c = true →
    F32.le x y = true →
    F32.le (F32.add x c) (F32.add y c) = true ∧ F32.le (F32.sub x c) (F32.sub y c) = true ∧
    (F32.gt c 0 = true → F32.le (F32.mul x c) (F32.mul y c) = true ∧
      F32.le (F32.div x c) (F32.div y c) = true)

/-- NP4 of R131: an operation whose exact result is a Num returns a Num of that value. -/
def Obligations.ExactResultsAreReturned : Prop :=
  ∀ x y z : Num32, F32.isFinite x = true → F32.isFinite y = true → F32.isFinite z = true →
    (F32.value x + F32.value y = F32.value z → F32.eq (F32.add x y) z = true) ∧
    (F32.value x - F32.value y = F32.value z → F32.eq (F32.sub x y) z = true) ∧
    (F32.value x * F32.value y = F32.value z * 2 ^ 149 → F32.eq (F32.mul x y) z = true) ∧
    (F32.value y ≠ 0 → F32.value x * 2 ^ 149 = F32.value z * F32.value y →
      F32.eq (F32.div x y) z = true)

/-- NP5 and NP7 of R131. -/
def Obligations.TickConversionIsSound : Prop :=
  (∀ m n : Nat, m ≤ n → n < 2 ^ 32 → F32.le (F32.ofU32 m) (F32.ofU32 n) = true) ∧
  (∀ n : Nat, n ≤ 2 ^ 24 → F32.value (F32.ofU32 n) = n * 2 ^ 149) ∧
  (∀ n : Nat, 1 ≤ n → n < 2 ^ 32 → F32.ge (F32.ofU32 n) 0x3F800000 = true ∧
    F32.isFinite (F32.div (F32.ofU32 n) 0x49742400) = true ∧
    F32.gt (F32.div (F32.ofU32 n) 0x49742400) 0 = true)

/-- NP6 of R131. A sum that is exactly zero is left out: there the two sides are zeros of different
sign. -/
def Obligations.OperationsAreSignSymmetric : Prop :=
  ∀ x y : Num32, F32.isFinite x = true → F32.isFinite y = true →
    F32.mul (F32.neg x) y = F32.neg (F32.mul x y) ∧
    (F32.value x + F32.value y ≠ 0 →
      F32.add (F32.neg x) (F32.neg y) = F32.neg (F32.add x y)) ∧
    F32.eq (F32.add (F32.neg x) (F32.neg y)) (F32.neg (F32.add x y)) = true

/-- NP1, NP2 of R131, R118: magnitudes; every comparison with a NaN is false; on the other numbers the
five comparisons are one total order up to the two zeros, which for finite numbers is the order of their
values, with the infinities at its ends. -/
def Obligations.ComparisonsAreATotalOrder : Prop :=
  (∀ x y : Num32, (F32.isNaN x = true ∨ F32.isNaN y = true) → F32.lt x y = false ∧
    F32.le x y = false ∧ F32.gt x y = false ∧ F32.ge x y = false ∧ F32.eq x y = false) ∧
  (∀ x y : Num32, F32.gt x y = F32.lt y x ∧ F32.ge x y = F32.le y x ∧
    F32.eq x y = (F32.le x y && F32.le y x)) ∧
  F32.eq 0x00000000 0x80000000 = true ∧
  (∀ x y z : Num32, F32.le x y = true → F32.le y z = true → F32.le x z = true) ∧
  (∀ x : Num32, F32.isFinite x = true →
    F32.lt 0xFF800000 x = true ∧ F32.lt x 0x7F800000 = true) ∧
  ∀ x y : Num32, F32.isNaN x = false → F32.isNaN y = false →
    F32.ge (F32.abs x) 0 = true ∧ F32.abs (F32.neg x) = F32.abs x ∧
    ((F32.lt x y = true ∧ F32.eq x y = false ∧ F32.gt x y = false) ∨
      (F32.lt x y = false ∧ F32.eq x y = true ∧ F32.gt x y = false) ∨
      (F32.lt x y = false ∧ F32.eq x y = false ∧ F32.gt x y = true)) ∧
    (F32.le x y = true ↔ F32.lt x y = true ∨ F32.eq x y = true) ∧
    (F32.isFinite x = true → F32.isFinite y = true →
      (F32.lt x y = true ↔ F32.value x < F32.value y) ∧
      (F32.eq x y = true ↔ F32.value x = F32.value y))

/-- NP8 of R131, R120: the clamp's result is within the bounds. -/
def Obligations.ClampIsWithinBounds : Prop :=
  ∀ w h : Num32, F32.isNaN w = false → F32.isFinite h = true → F32.gt h 0 = true →
    F32.le (F32.neg h) (fclamp Numerics.f32 w (F32.neg h) h) = true ∧
    F32.le (fclamp Numerics.f32 w (F32.neg h) h) h = true
end

