-- ==== Sys2Proof/Laws/F32.lean ====
section
/-! SUPPORT. Laws of the binary32 operations (40_numerics.md R115 to R121): packing and unpacking,
the order of magnitudes, and the three facts about rounding from which bounds are derived: it is
monotone, it returns an exact result unchanged, and it is sandwiched between magnitudes. -/

namespace Sys2Proof.Machine

/-! ### Sign and magnitude -/

theorem F32.mag_lt (x : Num32) : F32.mag x < 2 ^ 31 := Nat.mod_lt _ (by decide)

theorem F32.toNat_eq (x : Num32) :
    x.toNat = F32.mag x + if F32.signBit x then 2 ^ 31 else 0 := by
  have h := x.isLt
  unfold F32.mag F32.signBit
  by_cases hs : 2 ^ 31 ≤ x.toNat
  · simp only [hs, decide_true, if_true]; omega
  · simp only [hs, decide_false, Bool.false_eq_true, if_false]; omega

theorem F32.pack_toNat {m : Nat} (neg : Bool) (h : m < 2 ^ 31) :
    (F32.pack neg m).toNat = m + if neg then 2 ^ 31 else 0 := by
  unfold F32.pack
  rw [BitVec.toNat_ofNat]
  apply Nat.mod_eq_of_lt
  cases neg <;> simp <;> omega

theorem F32.mag_pack {m : Nat} (neg : Bool) (h : m < 2 ^ 31) : F32.mag (F32.pack neg m) = m := by
  unfold F32.mag
  rw [F32.pack_toNat neg h]
  cases neg <;> simp <;> omega

theorem F32.signBit_pack {m : Nat} (neg : Bool) (h : m < 2 ^ 31) :
    F32.signBit (F32.pack neg m) = neg := by
  unfold F32.signBit
  rw [F32.pack_toNat neg h]
  cases neg <;> simp <;> omega

theorem F32.pack_signBit_mag (x : Num32) : F32.pack (F32.signBit x) (F32.mag x) = x := by
  apply BitVec.eq_of_toNat_eq
  rw [F32.pack_toNat _ (F32.mag_lt x), ← F32.toNat_eq]

/-- Two Nums with one sign bit and one magnitude are one Num. -/
theorem F32.ext_signBit_mag {x y : Num32} (hs : F32.signBit x = F32.signBit y)
    (hm : F32.mag x = F32.mag y) : x = y := by
  rw [← F32.pack_signBit_mag x, ← F32.pack_signBit_mag y, hs, hm]

@[simp] theorem F32.mag_neg (x : Num32) : F32.mag (F32.neg x) = F32.mag x :=
  F32.mag_pack _ (F32.mag_lt x)

@[simp] theorem F32.signBit_neg (x : Num32) : F32.signBit (F32.neg x) = !F32.signBit x :=
  F32.signBit_pack _ (F32.mag_lt x)

@[simp] theorem F32.mag_abs (x : Num32) : F32.mag (F32.abs x) = F32.mag x :=
  F32.mag_pack _ (F32.mag_lt x)

@[simp] theorem F32.signBit_abs (x : Num32) : F32.signBit (F32.abs x) = false :=
  F32.signBit_pack _ (F32.mag_lt x)

@[simp] theorem F32.isFinite_neg (x : Num32) : F32.isFinite (F32.neg x) = F32.isFinite x := by
  simp [F32.isFinite]

@[simp] theorem F32.isFinite_abs (x : Num32) : F32.isFinite (F32.abs x) = F32.isFinite x := by
  simp [F32.isFinite]

@[simp] theorem F32.isNaN_neg (x : Num32) : F32.isNaN (F32.neg x) = F32.isNaN x := by
  simp [F32.isNaN]

@[simp] theorem F32.isNaN_abs (x : Num32) : F32.isNaN (F32.abs x) = F32.isNaN x := by
  simp [F32.isNaN]

theorem F32.isFinite_iff (x : Num32) : F32.isFinite x = true ↔ F32.mag x < F32.infMag := by
  simp [F32.isFinite]

theorem F32.not_isNaN_of_isFinite {x : Num32} (h : F32.isFinite x = true) :
    F32.isNaN x = false := by
  simp only [F32.isFinite_iff] at h
  simp only [F32.isNaN, decide_eq_false_iff_not]
  omega

theorem F32.not_isInf_of_isFinite {x : Num32} (h : F32.isFinite x = true) :
    F32.isInf x = false := by
  simp only [F32.isFinite_iff] at h
  simp only [F32.isInf, decide_eq_false_iff_not]
  omega

/-! ### The value of a magnitude -/

/-- A magnitude above the subnormals, by its exponent and significand. -/
theorem F32.units_normal {e f : Nat} (hf : f < 2 ^ 23) :
    F32.units ((e + 1) * 2 ^ 23 + f) = (2 ^ 23 + f) * 2 ^ e := by
  have h1 : ¬ (e + 1) * 2 ^ 23 + f < 2 ^ 23 := by omega
  have h2 : ((e + 1) * 2 ^ 23 + f) % 2 ^ 23 = f := by omega
  have h3 : ((e + 1) * 2 ^ 23 + f) / 2 ^ 23 - 1 = e := by omega
  simp only [F32.units, h1, if_false, h2, h3]

theorem F32.units_subnormal {m : Nat} (h : m < 2 ^ 23) : F32.units m = m := by
  simp only [F32.units, h, if_true]

/-- Every magnitude is subnormal, or has an exponent and a fraction. -/
theorem F32.mag_cases (m : Nat) :
    m < 2 ^ 23 ∨ ∃ e f, f < 2 ^ 23 ∧ m = (e + 1) * 2 ^ 23 + f := by
  by_cases h : m < 2 ^ 23
  · exact .inl h
  · exact .inr ⟨m / 2 ^ 23 - 1, m % 2 ^ 23, Nat.mod_lt _ (by decide), by omega⟩

theorem F32.units_succ_lt (m : Nat) : F32.units m < F32.units (m + 1) := by
  rcases F32.mag_cases m with h | ⟨e, f, hf, rfl⟩
  · rw [F32.units_subnormal h]
    by_cases h' : m + 1 < 2 ^ 23
    · rw [F32.units_subnormal h']; omega
    · have : m + 1 = (0 + 1) * 2 ^ 23 + 0 := by omega
      rw [this, F32.units_normal (by decide)]; omega
  · rw [F32.units_normal hf]
    by_cases h' : f + 1 < 2 ^ 23
    · rw [Nat.add_assoc, F32.units_normal h']
      exact Nat.mul_lt_mul_of_pos_right (by omega) (Nat.two_pow_pos e)
    · have : (e + 1) * 2 ^ 23 + f + 1 = (e + 1 + 1) * 2 ^ 23 + 0 := by omega
      rw [this, F32.units_normal (by decide), Nat.pow_succ 2 e, ← Nat.mul_assoc, Nat.mul_right_comm]
      exact Nat.mul_lt_mul_of_pos_right (by omega) (Nat.two_pow_pos e)

/-- Bit patterns of one sign are ordered as their values are (R118). -/
theorem F32.units_strictMono : StrictMono F32.units := strictMono_nat_of_lt_succ F32.units_succ_lt

theorem F32.units_le_iff {m n : Nat} : F32.units m ≤ F32.units n ↔ m ≤ n :=
  F32.units_strictMono.le_iff_le

theorem F32.units_lt_iff {m n : Nat} : F32.units m < F32.units n ↔ m < n :=
  F32.units_strictMono.lt_iff_lt

@[simp] theorem F32.units_zero : F32.units 0 = 0 := rfl

theorem F32.units_pos {m : Nat} (h : 0 < m) : 0 < F32.units m :=
  F32.units_zero ▸ F32.units_lt_iff.2 h

/-! ### Rounding -/

theorem F32.le_nearest (p d : Nat) : p / d ≤ F32.nearest p d := by
  unfold F32.nearest; split <;> omega

theorem F32.nearest_le_succ (p d : Nat) : F32.nearest p d ≤ p / d + 1 := by
  unfold F32.nearest; split <;> omega

/-- `nearest` is monotone in the ratio. -/
theorem F32.nearest_mono {p d p' d' : Nat} (hd : 0 < d) (hd' : 0 < d') (h : p * d' ≤ p' * d) :
    F32.nearest p d ≤ F32.nearest p' d' := by
  have hp := Nat.div_add_mod p d
  have hp' := Nat.div_add_mod p' d'
  have hr := Nat.mod_lt p hd
  have hr' := Nat.mod_lt p' hd'
  rcases Nat.lt_trichotomy (p / d) (p' / d') with hlt | heq | hgt
  · exact (F32.nearest_le_succ p d).trans (hlt.trans_le (F32.le_nearest p' d')) |>.trans le_rfl
  · unfold F32.nearest
    rw [heq] at hp ⊢
    generalize p' / d' = a at *
    generalize p % d = r at *
    generalize p' % d' = r' at *
    have hrr : r * d' ≤ r' * d := by nlinarith
    split
    · next hup =>
      rw [if_pos]
      rcases hup with h1 | ⟨h1, h2⟩
      · left; nlinarith
      · rcases Nat.lt_or_ge d' (2 * r') with h3 | h3
        · exact .inl h3
        · right; refine ⟨?_, h2⟩; nlinarith
    · split <;> omega
  · exfalso
    have h1 : p' < p / d * d' := by
      have : (p' / d' + 1) * d' ≤ p / d * d' := Nat.mul_le_mul_right d' hgt
      nlinarith
    have h2 : p' * d < p / d * d' * d := Nat.mul_lt_mul_of_pos_right h1 hd
    have h3 : p / d * d * d' ≤ p * d' := Nat.mul_le_mul_right d' (Nat.div_mul_le_self p d)
    nlinarith

/-- An integer ratio is its own nearest integer. -/
theorem F32.nearest_mul (a : Nat) {d : Nat} (hd : 0 < d) : F32.nearest (a * d) d = a := by
  have h1 : a * d % d = 0 := Nat.mul_mod_left a d
  have h2 : a * d / d = a := Nat.mul_div_cancel a hd
  unfold F32.nearest
  rw [h1, h2, if_neg]
  omega

theorem F32.excess_mono {n n' : Nat} (h : n ≤ n') : F32.excess n ≤ F32.excess n' := by
  refine Nat.sub_le_sub_right ?_ 23
  rcases Nat.eq_zero_or_pos n with rfl | hn
  · exact Nat.zero_le _
  · exact (Nat.le_log2 (by omega)).2 ((Nat.log2_self_le (by omega)).trans h)

/-- The significand left after giving up `excess` bits has at most 24. -/
theorem F32.lt_of_excess (n : Nat) : n < 2 ^ 24 * 2 ^ F32.excess n := by
  unfold F32.excess
  rw [← Nat.pow_add]
  have h : n < 2 ^ (Nat.log2 n + 1) := Nat.lt_log2_self
  exact h.trans_le (Nat.pow_le_pow_right (by decide) (by omega))

/-- Where bits are given up, the significand has exactly 24. -/
theorem F32.le_of_excess_pos {n : Nat} (h : 0 < F32.excess n) :
    2 ^ 23 * 2 ^ F32.excess n ≤ n := by
  unfold F32.excess at *
  rw [← Nat.pow_add]
  have hn : n ≠ 0 := by rintro rfl; simp at h
  exact (Nat.pow_le_pow_right (by decide) (by omega)).trans (Nat.log2_self_le hn)

/-- The bit pattern before the overflow cap. -/
def F32.pattern (p q : Nat) : Nat :=
  F32.excess (p / q) * 2 ^ 23 + F32.nearest p (q * 2 ^ F32.excess (p / q))

theorem F32.round_eq (p q : Nat) : F32.round p q = min (F32.pattern p q) F32.infMag := rfl

theorem F32.round_le (p q : Nat) : F32.round p q ≤ F32.infMag := Nat.min_le_right _ _

theorem F32.round_lt_pow (p q : Nat) : F32.round p q < 2 ^ 31 :=
  (F32.round_le p q).trans_lt (by decide)

theorem F32.pattern_mono {p q p' q' : Nat} (hq : 0 < q) (hq' : 0 < q') (h : p * q' ≤ p' * q) :
    F32.pattern p q ≤ F32.pattern p' q' := by
  have hn : p / q ≤ p' / q' := by
    rw [Nat.le_div_iff_mul_le hq']
    have h1 := Nat.div_mul_le_self p q
    have : p / q * q' * q ≤ p' * q := by nlinarith
    exact Nat.le_of_mul_le_mul_right this hq
  have hk := F32.excess_mono hn
  unfold F32.pattern
  generalize hk1 : F32.excess (p / q) = k at *
  generalize hk2 : F32.excess (p' / q') = k' at *
  have hpk := Nat.two_pow_pos k
  have hpk' := Nat.two_pow_pos k'
  rcases Nat.lt_or_ge k k' with hlt | hge
  · -- the smaller rounds to at most 2^24 units of its exponent, the larger to at least 2^23 of its
    have hup : F32.nearest p (q * 2 ^ k) ≤ 2 ^ 24 := by
      refine (F32.nearest_le_succ _ _).trans ?_
      have h1 := F32.lt_of_excess (p / q)
      rw [hk1] at h1
      rw [← Nat.div_div_eq_div_mul]
      have := (Nat.div_lt_iff_lt_mul hpk).2 h1
      omega
    have hlo : 2 ^ 23 ≤ F32.nearest p' (q' * 2 ^ k') := by
      refine le_trans ?_ (F32.le_nearest _ _)
      have h1 := F32.le_of_excess_pos (n := p' / q') (by omega)
      rw [hk2] at h1
      rw [← Nat.div_div_eq_div_mul]
      exact (Nat.le_div_iff_mul_le hpk').2 h1
    omega
  · obtain rfl : k = k' := by omega
    have := F32.nearest_mono (p := p) (d := q * 2 ^ k) (p' := p') (d' := q' * 2 ^ k)
      (Nat.mul_pos hq hpk) (Nat.mul_pos hq' hpk) (by nlinarith)
    omega

/-- Rounding is monotone in the exact ratio (R131 NP3, for magnitudes). -/
theorem F32.round_mono {p q p' q' : Nat} (hq : 0 < q) (hq' : 0 < q') (h : p * q' ≤ p' * q) :
    F32.round p q ≤ F32.round p' q' :=
  min_le_min_right _ (F32.pattern_mono hq hq' h)

theorem F32.pattern_units (m : Nat) {q : Nat} (hq : 0 < q) :
    F32.pattern (F32.units m * q) q = m := by
  unfold F32.pattern
  rw [Nat.mul_div_cancel _ hq]
  rcases F32.mag_cases m with h | ⟨e, f, hf, rfl⟩
  · rw [F32.units_subnormal h]
    have hex : F32.excess m = 0 := by
      unfold F32.excess
      rcases Nat.eq_zero_or_pos m with rfl | hm
      · rfl
      · have := (Nat.log2_lt (by omega : m ≠ 0) (k := 23)).2 h
        omega
    rw [hex, Nat.pow_zero, Nat.mul_one, F32.nearest_mul _ hq]; omega
  · rw [F32.units_normal hf]
    have hlog : Nat.log2 ((2 ^ 23 + f) * 2 ^ e) = 23 + e := by
      have hne : (2 ^ 23 + f) * 2 ^ e ≠ 0 := by positivity
      have hlt : (2 ^ 23 + f) * 2 ^ e < 2 ^ (23 + e + 1) := by
        rw [show 23 + e + 1 = 24 + e by omega, Nat.pow_add]
        exact Nat.mul_lt_mul_of_pos_right (by omega) (Nat.two_pow_pos e)
      have hle : 2 ^ (23 + e) ≤ (2 ^ 23 + f) * 2 ^ e := by
        rw [Nat.pow_add]
        exact Nat.mul_le_mul_right _ (by omega)
      have h1 := (Nat.log2_lt hne).2 hlt
      have h2 := (Nat.le_log2 hne).2 hle
      omega
    have hex : F32.excess ((2 ^ 23 + f) * 2 ^ e) = e := by unfold F32.excess; omega
    rw [hex, show (2 ^ 23 + f) * 2 ^ e * q = (2 ^ 23 + f) * (q * 2 ^ e) by ring,
      F32.nearest_mul _ (Nat.mul_pos hq (Nat.two_pow_pos e))]
    omega

/-- An exact finite magnitude is returned unchanged (R131 NP4). -/
theorem F32.round_units {m q : Nat} (hq : 0 < q) (hm : m ≤ F32.infMag) :
    F32.round (F32.units m * q) q = m := by
  rw [F32.round_eq, F32.pattern_units m hq, Nat.min_eq_left hm]

/-- A ratio of at most the units of `m` rounds to at most `m`. -/
theorem F32.round_le_of_le {p q m : Nat} (hq : 0 < q) (h : p ≤ F32.units m * q)
    (hm : m ≤ F32.infMag) : F32.round p q ≤ m :=
  (F32.round_mono hq hq (Nat.mul_le_mul_right q h)).trans (F32.round_units hq hm).le

/-- A ratio of at least the units of `m` rounds to at least `m`. -/
theorem F32.le_round_of_le {p q m : Nat} (hq : 0 < q) (h : F32.units m * q ≤ p)
    (hm : m ≤ F32.infMag) : m ≤ F32.round p q :=
  (F32.round_units hq hm).symm.le.trans (F32.round_mono hq hq (Nat.mul_le_mul_right q h))

/-! ### The operations on finite operands -/

theorem F32.mul_of_finite {x y : Num32} (hx : F32.isFinite x = true) (hy : F32.isFinite y = true) :
    F32.mul x y = F32.pack (F32.signXor x y)
      (F32.round (F32.units (F32.mag x) * F32.units (F32.mag y)) (2 ^ 149)) := by
  simp only [F32.mul, F32.not_isNaN_of_isFinite hx, F32.not_isNaN_of_isFinite hy,
    F32.not_isInf_of_isFinite hx, F32.not_isInf_of_isFinite hy, Bool.or_self, Bool.false_eq_true,
    if_false]

theorem F32.div_of_finite {x y : Num32} (hx : F32.isFinite x = true) (hy : F32.isFinite y = true)
    (h0 : F32.mag y ≠ 0) :
    F32.div x y = F32.pack (F32.signXor x y)
      (F32.round (F32.units (F32.mag x) * 2 ^ 149) (F32.units (F32.mag y))) := by
  simp only [F32.div, F32.not_isNaN_of_isFinite hx, F32.not_isNaN_of_isFinite hy,
    F32.not_isInf_of_isFinite hx, F32.not_isInf_of_isFinite hy, Bool.or_self, Bool.false_eq_true,
    if_false, h0]

theorem F32.add_of_finite {x y : Num32} (hx : F32.isFinite x = true) (hy : F32.isFinite y = true) :
    F32.add x y = F32.addFinite x y := by
  simp only [F32.add, F32.not_isNaN_of_isFinite hx, F32.not_isNaN_of_isFinite hy,
    F32.not_isInf_of_isFinite hx, F32.not_isInf_of_isFinite hy, Bool.or_self, Bool.false_eq_true,
    if_false]

theorem F32.mag_ofU32 (n : Nat) : F32.mag (F32.ofU32 n) = F32.round (n * 2 ^ 149) 1 :=
  F32.mag_pack _ (F32.round_lt_pow _ _)

@[simp] theorem F32.signBit_ofU32 (n : Nat) : F32.signBit (F32.ofU32 n) = false :=
  F32.signBit_pack _ (F32.round_lt_pow _ _)

/-- A NaN result is a NaN, whichever it is. -/
theorem F32.isNaN_nan (op : Nat) (x y : Num32) : F32.isNaN (F32.nan op x y) = true := by
  have h := Nat.mod_lt (Config.freeNaN op x y / 2) (show 0 < 2 ^ 23 - 1 by decide)
  have hm : F32.infMag + 1 + Config.freeNaN op x y / 2 % (2 ^ 23 - 1) < 2 ^ 31 := by
    simp only [F32.infMag]; omega
  simp only [F32.isNaN, F32.nan, F32.mag_pack _ hm, decide_eq_true_eq]
  omega

/-! ### Comparisons -/

theorem F32.lt_iff {x y : Num32} (hx : F32.isNaN x = false) (hy : F32.isNaN y = false) :
    F32.lt x y = true ↔ F32.key x < F32.key y := by
  simp [F32.lt, F32.ordered, hx, hy]

theorem F32.le_iff {x y : Num32} (hx : F32.isNaN x = false) (hy : F32.isNaN y = false) :
    F32.le x y = true ↔ F32.key x ≤ F32.key y := by
  simp [F32.le, F32.ordered, hx, hy]

theorem F32.gt_iff {x y : Num32} (hx : F32.isNaN x = false) (hy : F32.isNaN y = false) :
    F32.gt x y = true ↔ F32.key y < F32.key x := by
  simp [F32.gt, F32.ordered, hx, hy]

theorem F32.ge_iff {x y : Num32} (hx : F32.isNaN x = false) (hy : F32.isNaN y = false) :
    F32.ge x y = true ↔ F32.key y ≤ F32.key x := by
  simp [F32.ge, F32.ordered, hx, hy]

/-- The order key of a finite Num orders as its value does (R118). -/
theorem F32.key_lt_iff_value_lt (x y : Num32) :
    F32.key x < F32.key y ↔ F32.value x < F32.value y := by
  have h := @F32.units_lt_iff (F32.mag x) (F32.mag y)
  have h' := @F32.units_lt_iff (F32.mag y) (F32.mag x)
  have hx : F32.mag x = 0 ↔ F32.units (F32.mag x) = 0 :=
    ⟨fun h => by rw [h]; rfl, fun h => by by_contra hc; have := F32.units_pos (Nat.pos_of_ne_zero hc); omega⟩
  have hy : F32.mag y = 0 ↔ F32.units (F32.mag y) = 0 :=
    ⟨fun h => by rw [h]; rfl, fun h => by by_contra hc; have := F32.units_pos (Nat.pos_of_ne_zero hc); omega⟩
  unfold F32.key F32.value
  split <;> split <;> omega

theorem F32.key_neg (x : Num32) : F32.key (F32.neg x) = -F32.key x := by
  simp only [F32.key, F32.signBit_neg, F32.mag_neg]
  cases F32.signBit x <;> simp

theorem F32.key_abs (x : Num32) : F32.key (F32.abs x) = |F32.key x| := by
  simp only [F32.key, F32.signBit_abs, F32.mag_abs]
  cases F32.signBit x <;> simp

theorem F32.value_neg (x : Num32) : F32.value (F32.neg x) = -F32.value x := by
  simp only [F32.value, F32.signBit_neg, F32.mag_neg]
  cases F32.signBit x <;> simp

end Sys2Proof.Machine
end

