-- ==== Sys2Proof/Laws/Encoding.lean ====
section
/-! SUPPORT. Laws of the encodings' parts (30_encoding.md R85 to R90): the fields of a port word, the
polarity operand and the MS code are read back as they were written, and the reverse. -/

namespace Sys2Proof

open Machine

@[simp] theorem PortWord.op_mk (op : OpId) (arg : BitVec 32) :
    PortWord.op (PortWord.mk op arg) = op := BitVec.extractLsb'_append_eq_left

@[simp] theorem PortWord.arg_mk (op : OpId) (arg : BitVec 32) :
    PortWord.arg (PortWord.mk op arg) = arg := BitVec.extractLsb'_append_eq_right

/-- A port word is its two fields. -/
theorem PortWord.mk_op_arg (w : PortWord) :
    PortWord.mk (PortWord.op w) (PortWord.arg w) = w := by
  apply BitVec.eq_of_getLsbD_eq
  intro i hi
  simp only [PortWord.mk, PortWord.op, PortWord.arg, BitVec.getLsbD_append,
    BitVec.getLsbD_extractLsb']
  by_cases h : i < 32
  · simp [h]
  · simp [h, show i - 32 < 8 by omega, show 32 + (i - 32) = i by omega]

@[simp] theorem Polarity.ofArg_arg (p : Polarity) : Polarity.ofArg p.arg = some p := by
  cases p <;> decide

theorem Polarity.arg_of_ofArg {a : BitVec 32} {p : Polarity} (h : Polarity.ofArg a = some p) :
    p.arg = a := by
  unfold Polarity.ofArg at h
  split_ifs at h with h0 h1
  · cases h; rw [h0]; rfl
  · cases h; rw [h1]; rfl

@[simp] theorem MotionState.ofCode_code (m : MotionState) :
    MotionState.ofCode m.code = some m := by cases m <;> rfl

@[simp] theorem decodeS_code (m : MotionState) : decodeS m.code = some m.instr := by
  simp [decodeS]

end Sys2Proof
end

