-- ==== Sys2Proof/Laws/Numerics.lean ====
section
/-! SUPPORT. The step formulas at the hardware's numerics (40_numerics.md R130): each field of
`Numerics.f32`, then each formula written with the binary32 operations themselves, so that a proof
cites these equations and never unfolds an operation. -/

namespace Sys2Proof.Machine

@[simp] theorem Numerics.f32_lit : Numerics.f32.lit = F32.lit := (rfl)
@[simp] theorem Numerics.f32_isFinite : Numerics.f32.isFinite = F32.isFinite := (rfl)
@[simp] theorem Numerics.f32_fadd : Numerics.f32.fadd = F32.add := (rfl)
@[simp] theorem Numerics.f32_fsub : Numerics.f32.fsub = F32.sub := (rfl)
@[simp] theorem Numerics.f32_fmul : Numerics.f32.fmul = F32.mul := (rfl)
@[simp] theorem Numerics.f32_fdiv : Numerics.f32.fdiv = F32.div := (rfl)
@[simp] theorem Numerics.f32_fabs : Numerics.f32.fabs = F32.abs := (rfl)
@[simp] theorem Numerics.f32_fneg : Numerics.f32.fneg = F32.neg := (rfl)
@[simp] theorem Numerics.f32_flt : Numerics.f32.flt = F32.lt := (rfl)
@[simp] theorem Numerics.f32_fle : Numerics.f32.fle = F32.le := (rfl)
@[simp] theorem Numerics.f32_fgt : Numerics.f32.fgt = F32.gt := (rfl)
@[simp] theorem Numerics.f32_fge : Numerics.f32.fge = F32.ge := (rfl)
@[simp] theorem Numerics.f32_feq : Numerics.f32.feq = F32.eq := (rfl)
@[simp] theorem Numerics.f32_ofU32 : Numerics.f32.ofU32 = F32.ofU32 := (rfl)
@[simp] theorem Numerics.f32_zero : Numerics.f32.zero = 0 := (rfl)
@[simp] theorem Numerics.f32_one : Numerics.f32.one = 0x3F800000 := (rfl)
@[simp] theorem Numerics.f32_kE2M : Numerics.f32.kE2M = 0x41700000 := (rfl)
@[simp] theorem Numerics.f32_deadband : Numerics.f32.deadband = 0x41A00000 := (rfl)
@[simp] theorem Numerics.f32_ticksPerSec : Numerics.f32.ticksPerSec = 0x49742400 := (rfl)
@[simp] theorem Numerics.f32_kRpm2Rad : Numerics.f32.kRpm2Rad = 0x3DD67750 := (rfl)
@[simp] theorem Numerics.f32_kRad2Rpm : Numerics.f32.kRad2Rpm = 0x4118C9EB := (rfl)

/-! ### The predicates of 10_state.md R28 -/

theorem sameSign_f32 (c a : Num32) :
    sameSign Numerics.f32 c a = decide (F32.ge c 0 = F32.ge a 0) := by
  unfold sameSign fsign
  rw [Numerics.f32_fge, Numerics.f32_zero]
  cases F32.ge c 0 <;> cases F32.ge a 0 <;> rfl

theorem inBand_f32 (c a : Num32) :
    inBand Numerics.f32 c a = F32.le (F32.abs (F32.sub a c)) 0x41A00000 := by
  rw [inBand, Numerics.f32_fle, Numerics.f32_fabs, Numerics.f32_fsub, Numerics.f32_deadband]

theorem nearZero_f32 (a : Num32) :
    nearZero Numerics.f32 a = F32.lt (F32.abs a) 0x41A00000 := by
  rw [nearZero, Numerics.f32_flt, Numerics.f32_fabs, Numerics.f32_deadband]

/-! ### The formulas of the steps -/

theorem ticksToSec_f32 (n : Nat) :
    ticksToSec Numerics.f32 n = F32.div (F32.ofU32 n) 0x49742400 := by
  rw [ticksToSec, Numerics.f32_fdiv, Numerics.f32_ofU32, Numerics.f32_ticksPerSec]

theorem rpmToRad_f32 (a : Num32) : rpmToRad Numerics.f32 a = F32.mul a 0x3DD67750 := by
  rw [rpmToRad, Numerics.f32_fmul, Numerics.f32_kRpm2Rad]

theorem radToRpm_f32 (w : Num32) : radToRpm Numerics.f32 w = F32.mul w 0x4118C9EB := by
  rw [radToRpm, Numerics.f32_fmul, Numerics.f32_kRad2Rpm]

theorem fclamp_f32 (w lo hi : Num32) :
    fclamp Numerics.f32 w lo hi =
      if F32.gt w hi then hi else if F32.lt w lo then lo else w := by
  rw [fclamp, Numerics.f32_fgt, Numerics.f32_flt]

theorem estMagnitude_f32 (dt : Nat) :
    estMagnitude Numerics.f32 dt =
      F32.mul (F32.div 0x3F800000 (F32.div (F32.ofU32 dt) 0x49742400)) 0x41700000 := by
  rw [estMagnitude, ticksToSec_f32, Numerics.f32_fmul, Numerics.f32_fdiv, Numerics.f32_one,
    Numerics.f32_kE2M]

theorem estSpeed_f32 (dt : Nat) (d : Polarity) :
    estSpeed Numerics.f32 dt d =
      if d = .forward then estMagnitude Numerics.f32 dt
      else F32.neg (estMagnitude Numerics.f32 dt) := by
  cases d
  · rw [estSpeed, if_pos rfl]
  · rw [estSpeed, if_neg (by decide), Numerics.f32_fneg]

theorem eulerSpeed_f32 (inertia tq : Num32) (dtTicks : Nat) (a : Num32) :
    eulerSpeed Numerics.f32 inertia tq dtTicks a =
      F32.add (F32.mul (F32.div tq inertia) (F32.div (F32.ofU32 dtTicks) 0x49742400))
        (F32.mul a 0x3DD67750) := by
  rw [eulerSpeed, ticksToSec_f32, rpmToRad_f32, Numerics.f32_fadd, Numerics.f32_fmul,
    Numerics.f32_fdiv]

theorem Block.integrated_f32 (b : Block Num32) (tq : Num32) :
    b.integrated Numerics.f32 tq = fclamp Numerics.f32
      (eulerSpeed Numerics.f32 b.cfg.inertia tq (clampTicks (sdiff b.tick b.intLast)) b.aspd)
      (F32.neg b.cfg.omegaMax) b.cfg.omegaMax := by
  rw [Block.integrated, integrate, Numerics.f32_fneg]

theorem hostOperandOk_f32 (v : Num32) : hostOperandOk Numerics.f32 v = F32.isFinite v := by
  rw [hostOperandOk, Numerics.f32_isFinite]

/-- What a configuration is admitted for (00_scope.md R8). -/
theorem cfgOk_iff (c : Cfg) :
    cfgOk c = true ↔ (F32.isFinite c.inertia = true ∧ F32.gt c.inertia 0 = true) ∧
      F32.isFinite c.omegaMax = true ∧ F32.gt c.omegaMax 0 = true := by
  rw [cfgOk, paramsOk]
  simp [positiveFinite]

/-! ### The sequencer's function, state by state (45_state_machine.md R190 to R197) -/

theorem smNext_idle (c a : Num32) (d : Polarity) :
    smNext Numerics.f32 .idle c a d =
      if F32.gt c a then
        if F32.ge c 0 = F32.ge a 0 ∧ d = .forward then (.accelerating, [.commandSpeed (F32.abs c)])
        else (.decelerating, [.commandSpeed 0, .brake])
      else if F32.lt c a then
        if F32.ge c 0 = F32.ge a 0 ∧ d = .reverse then (.accelerating, [.commandSpeed (F32.abs c)])
        else (.decelerating, [.commandSpeed 0, .brake])
      else (.idle, []) := by
  simp only [smNext, sameSign_f32, goAccelerate, goDecelerate, Numerics.f32_fgt, Numerics.f32_flt,
    Numerics.f32_fabs, Numerics.f32_zero, Bool.and_eq_true, decide_eq_true_eq]

theorem smNext_accelerating (c a : Num32) (d : Polarity) :
    smNext Numerics.f32 .accelerating c a d =
      if F32.le (F32.abs (F32.sub a c)) 0x41A00000 then (.idle, []) else (.accelerating, []) := by
  simp only [smNext, inBand_f32]

theorem smNext_decelerating (c a : Num32) (d : Polarity) :
    smNext Numerics.f32 .decelerating c a d =
      if F32.ge c 0 = F32.ge a 0 then
        if F32.le (F32.abs (F32.sub a c)) 0x41A00000 then
          (.idle, [.unbrake, .commandSpeed (F32.abs c)])
        else (.decelerating, [])
      else if F32.lt (F32.abs a) 0x41A00000 then
        if d = .reverse then (.crossHighToLow, []) else (.crossLowToHigh, [])
      else (.decelerating, []) := by
  simp only [smNext, sameSign_f32, inBand_f32, nearZero_f32, Numerics.f32_fabs, decide_eq_true_eq]

theorem smNext_crossHighToLow (c a : Num32) (d : Polarity) :
    smNext Numerics.f32 .crossHighToLow c a d =
      (.accelerating, [.setDirection .forward, .unbrake, .commandSpeed (F32.abs c)]) := by
  rw [smNext, crossTo, Numerics.f32_fabs]

theorem smNext_crossLowToHigh (c a : Num32) (d : Polarity) :
    smNext Numerics.f32 .crossLowToHigh c a d =
      (.accelerating, [.setDirection .reverse, .unbrake, .commandSpeed (F32.abs c)]) := by
  rw [smNext, crossTo, Numerics.f32_fabs]

/-! ### The differences of ticks (40_numerics.md R112, R113) -/

theorem mdiff_eq (cur prev : Tick) :
    (mdiff cur prev : Int) = ((cur.toNat : Int) - (prev.toNat : Int)) % 2 ^ 32 := by
  unfold mdiff
  exact Int.toNat_of_nonneg (Int.emod_nonneg _ (by decide))

theorem mdiff_eq_zero_iff (cur prev : Tick) : mdiff cur prev = 0 ↔ cur = prev := by
  have h := mdiff_eq cur prev
  have hc := cur.isLt
  have hp := prev.isLt
  rw [← BitVec.toNat_inj]
  omega

theorem mdiff_lt (cur prev : Tick) : mdiff cur prev < 2 ^ 32 := by
  have h := mdiff_eq cur prev
  omega

/-- The time step in ticks (44_torque_integrator.md R182). -/
theorem clampTicks_eq (d : Int) :
    (clampTicks d : Int) = if d ≤ 0 then 1000 else if 1000000 ≤ d then 1000000 else d := by
  have h1 : ((Config.dtMaxTicks : Nat) : Int) = 1000000 := rfl
  have h2 : ((Config.dtFallbackTicks : Nat) : Int) = 1000 := rfl
  unfold clampTicks
  split_ifs <;> omega

theorem clampTicks_pos (d : Int) : 1 ≤ clampTicks d := by
  have h := clampTicks_eq d
  split_ifs at h <;> omega

theorem clampTicks_le (d : Int) : clampTicks d ≤ 1000000 := by
  have h := clampTicks_eq d
  split_ifs at h <;> omega

end Sys2Proof.Machine
end

