-- ==== Sys2Proof/Laws/State.lean ====
section
/-! SUPPORT. What each named update of the state leaves in each field: one lemma per field per
update, so that no proof about a step unfolds a record update. -/

namespace Sys2Proof.Machine

/-! ### setItems -/

@[simp] theorem State.setItems_tick (s : State) (q : QueueId) (l : List Entry) :
    (s.setItems q l).tick = s.tick := by cases q <;> rfl

@[simp] theorem State.setItems_aspd (s : State) (q : QueueId) (l : List Entry) :
    (s.setItems q l).aspd = s.aspd := by cases q <;> rfl

@[simp] theorem State.setItems_estPrev (s : State) (q : QueueId) (l : List Entry) :
    (s.setItems q l).estPrev = s.estPrev := by cases q <;> rfl

@[simp] theorem State.setItems_intLast (s : State) (q : QueueId) (l : List Entry) :
    (s.setItems q l).intLast = s.intLast := by cases q <;> rfl

@[simp] theorem State.setItems_intOmega (s : State) (q : QueueId) (l : List Entry) :
    (s.setItems q l).intOmega = s.intOmega := by cases q <;> rfl

@[simp] theorem State.setItems_ms (s : State) (q : QueueId) (l : List Entry) :
    (s.setItems q l).ms = s.ms := by cases q <;> rfl

@[simp] theorem State.setItems_smCmd (s : State) (q : QueueId) (l : List Entry) :
    (s.setItems q l).smCmd = s.smCmd := by cases q <;> rfl

@[simp] theorem State.setItems_pollCnt (s : State) (q : QueueId) (l : List Entry) :
    (s.setItems q l).pollCnt = s.pollCnt := by cases q <;> rfl

@[simp] theorem State.setItems_senseQ (s : State) (q : QueueId) (l : List Entry) :
    (s.setItems q l).senseQ = s.senseQ := by cases q <;> rfl

@[simp] theorem State.setItems_drv (s : State) (q : QueueId) (l : List Entry) :
    (s.setItems q l).drv = s.drv := by cases q <;> rfl

@[simp] theorem State.setItems_drvOut (s : State) (q : QueueId) (l : List Entry) :
    (s.setItems q l).drvOut = s.drvOut := by cases q <;> rfl

@[simp] theorem State.setItems_ret (s : State) (q : QueueId) (l : List Entry) :
    (s.setItems q l).ret = s.ret := by cases q <;> rfl

@[simp] theorem State.setItems_rstLow (s : State) (q : QueueId) (l : List Entry) :
    (s.setItems q l).rstLow = s.rstLow := by cases q <;> rfl

@[simp] theorem State.setItems_script (s : State) (q : QueueId) (l : List Entry) :
    (s.setItems q l).script = s.script := by cases q <;> rfl

@[simp] theorem State.setItems_cfg (s : State) (q : QueueId) (l : List Entry) :
    (s.setItems q l).cfg = s.cfg := by cases q <;> rfl

/-! ### put -/

@[simp] theorem State.put_tick (s : State) (q : QueueId) (v : Entry) :
    (s.put q v).tick = s.tick := by cases q <;> rfl

@[simp] theorem State.put_aspd (s : State) (q : QueueId) (v : Entry) :
    (s.put q v).aspd = s.aspd := by cases q <;> rfl

@[simp] theorem State.put_estPrev (s : State) (q : QueueId) (v : Entry) :
    (s.put q v).estPrev = s.estPrev := by cases q <;> rfl

@[simp] theorem State.put_intLast (s : State) (q : QueueId) (v : Entry) :
    (s.put q v).intLast = s.intLast := by cases q <;> rfl

@[simp] theorem State.put_intOmega (s : State) (q : QueueId) (v : Entry) :
    (s.put q v).intOmega = s.intOmega := by cases q <;> rfl

@[simp] theorem State.put_ms (s : State) (q : QueueId) (v : Entry) :
    (s.put q v).ms = s.ms := by cases q <;> rfl

@[simp] theorem State.put_smCmd (s : State) (q : QueueId) (v : Entry) :
    (s.put q v).smCmd = s.smCmd := by cases q <;> rfl

@[simp] theorem State.put_pollCnt (s : State) (q : QueueId) (v : Entry) :
    (s.put q v).pollCnt = s.pollCnt := by cases q <;> rfl

@[simp] theorem State.put_senseQ (s : State) (q : QueueId) (v : Entry) :
    (s.put q v).senseQ = s.senseQ := by cases q <;> rfl

@[simp] theorem State.put_drv (s : State) (q : QueueId) (v : Entry) :
    (s.put q v).drv = s.drv := by cases q <;> rfl

@[simp] theorem State.put_drvOut (s : State) (q : QueueId) (v : Entry) :
    (s.put q v).drvOut = s.drvOut := by cases q <;> rfl

@[simp] theorem State.put_ret (s : State) (q : QueueId) (v : Entry) :
    (s.put q v).ret = s.ret := by cases q <;> rfl

@[simp] theorem State.put_rstLow (s : State) (q : QueueId) (v : Entry) :
    (s.put q v).rstLow = s.rstLow := by cases q <;> rfl

@[simp] theorem State.put_script (s : State) (q : QueueId) (v : Entry) :
    (s.put q v).script = s.script := by cases q <;> rfl

@[simp] theorem State.put_cfg (s : State) (q : QueueId) (v : Entry) :
    (s.put q v).cfg = s.cfg := by cases q <;> rfl

/-! ### publish -/

@[simp] theorem State.publish_tick (s : State) (v : Num32) :
    (s.publish v).tick = s.tick := rfl

@[simp] theorem State.publish_tsq (s : State) (v : Num32) :
    (s.publish v).tsq = s.tsq := rfl

@[simp] theorem State.publish_tqq (s : State) (v : Num32) :
    (s.publish v).tqq = s.tqq := rfl

@[simp] theorem State.publish_scq (s : State) (v : Num32) :
    (s.publish v).scq = s.scq := rfl

@[simp] theorem State.publish_aspd (s : State) (v : Num32) :
    (s.publish v).aspd = v := rfl

@[simp] theorem State.publish_estPrev (s : State) (v : Num32) :
    (s.publish v).estPrev = s.estPrev := rfl

@[simp] theorem State.publish_intLast (s : State) (v : Num32) :
    (s.publish v).intLast = s.intLast := rfl

@[simp] theorem State.publish_intOmega (s : State) (v : Num32) :
    (s.publish v).intOmega = s.intOmega := rfl

@[simp] theorem State.publish_ms (s : State) (v : Num32) :
    (s.publish v).ms = s.ms := rfl

@[simp] theorem State.publish_smCmd (s : State) (v : Num32) :
    (s.publish v).smCmd = s.smCmd := rfl

@[simp] theorem State.publish_pollCnt (s : State) (v : Num32) :
    (s.publish v).pollCnt = s.pollCnt := rfl

@[simp] theorem State.publish_senseQ (s : State) (v : Num32) :
    (s.publish v).senseQ = s.senseQ := rfl

@[simp] theorem State.publish_drv (s : State) (v : Num32) :
    (s.publish v).drv = s.drv := rfl

@[simp] theorem State.publish_drvOut (s : State) (v : Num32) :
    (s.publish v).drvOut = s.drvOut := rfl

@[simp] theorem State.publish_ret (s : State) (v : Num32) :
    (s.publish v).ret = s.ret := rfl

@[simp] theorem State.publish_rstLow (s : State) (v : Num32) :
    (s.publish v).rstLow = s.rstLow := rfl

@[simp] theorem State.publish_script (s : State) (v : Num32) :
    (s.publish v).script = s.script := rfl

@[simp] theorem State.publish_cfg (s : State) (v : Num32) :
    (s.publish v).cfg = s.cfg := rfl

/-! ### handBack -/

@[simp] theorem State.handBack_tick (s : State) (v : BitVec 32) :
    (s.handBack v).tick = s.tick := rfl

@[simp] theorem State.handBack_tsq (s : State) (v : BitVec 32) :
    (s.handBack v).tsq = s.tsq := rfl

@[simp] theorem State.handBack_tqq (s : State) (v : BitVec 32) :
    (s.handBack v).tqq = s.tqq := rfl

@[simp] theorem State.handBack_scq (s : State) (v : BitVec 32) :
    (s.handBack v).scq = s.scq := rfl

@[simp] theorem State.handBack_aspd (s : State) (v : BitVec 32) :
    (s.handBack v).aspd = s.aspd := rfl

@[simp] theorem State.handBack_estPrev (s : State) (v : BitVec 32) :
    (s.handBack v).estPrev = s.estPrev := rfl

@[simp] theorem State.handBack_intLast (s : State) (v : BitVec 32) :
    (s.handBack v).intLast = s.intLast := rfl

@[simp] theorem State.handBack_intOmega (s : State) (v : BitVec 32) :
    (s.handBack v).intOmega = s.intOmega := rfl

@[simp] theorem State.handBack_ms (s : State) (v : BitVec 32) :
    (s.handBack v).ms = s.ms := rfl

@[simp] theorem State.handBack_smCmd (s : State) (v : BitVec 32) :
    (s.handBack v).smCmd = s.smCmd := rfl

@[simp] theorem State.handBack_pollCnt (s : State) (v : BitVec 32) :
    (s.handBack v).pollCnt = s.pollCnt := rfl

@[simp] theorem State.handBack_senseQ (s : State) (v : BitVec 32) :
    (s.handBack v).senseQ = s.senseQ := rfl

@[simp] theorem State.handBack_drv (s : State) (v : BitVec 32) :
    (s.handBack v).drv = s.drv := rfl

@[simp] theorem State.handBack_drvOut (s : State) (v : BitVec 32) :
    (s.handBack v).drvOut = s.drvOut := rfl

@[simp] theorem State.handBack_ret (s : State) (v : BitVec 32) :
    (s.handBack v).ret = v := rfl

@[simp] theorem State.handBack_rstLow (s : State) (v : BitVec 32) :
    (s.handBack v).rstLow = s.rstLow := rfl

@[simp] theorem State.handBack_script (s : State) (v : BitVec 32) :
    (s.handBack v).script = s.script := rfl

@[simp] theorem State.handBack_cfg (s : State) (v : BitVec 32) :
    (s.handBack v).cfg = s.cfg := rfl

/-! ### emit -/

@[simp] theorem State.emit_tick (s : State) (w : DrvWord Num32) :
    (s.emit w).tick = s.tick := rfl

@[simp] theorem State.emit_tsq (s : State) (w : DrvWord Num32) :
    (s.emit w).tsq = s.tsq := rfl

@[simp] theorem State.emit_tqq (s : State) (w : DrvWord Num32) :
    (s.emit w).tqq = s.tqq := rfl

@[simp] theorem State.emit_scq (s : State) (w : DrvWord Num32) :
    (s.emit w).scq = s.scq := rfl

@[simp] theorem State.emit_aspd (s : State) (w : DrvWord Num32) :
    (s.emit w).aspd = s.aspd := rfl

@[simp] theorem State.emit_estPrev (s : State) (w : DrvWord Num32) :
    (s.emit w).estPrev = s.estPrev := rfl

@[simp] theorem State.emit_intLast (s : State) (w : DrvWord Num32) :
    (s.emit w).intLast = s.intLast := rfl

@[simp] theorem State.emit_intOmega (s : State) (w : DrvWord Num32) :
    (s.emit w).intOmega = s.intOmega := rfl

@[simp] theorem State.emit_ms (s : State) (w : DrvWord Num32) :
    (s.emit w).ms = s.ms := rfl

@[simp] theorem State.emit_smCmd (s : State) (w : DrvWord Num32) :
    (s.emit w).smCmd = s.smCmd := rfl

@[simp] theorem State.emit_pollCnt (s : State) (w : DrvWord Num32) :
    (s.emit w).pollCnt = s.pollCnt := rfl

@[simp] theorem State.emit_senseQ (s : State) (w : DrvWord Num32) :
    (s.emit w).senseQ = s.senseQ := rfl

@[simp] theorem State.emit_drv (s : State) (w : DrvWord Num32) :
    (s.emit w).drv = s.drv.obey w := rfl

@[simp] theorem State.emit_drvOut (s : State) (w : DrvWord Num32) :
    (s.emit w).drvOut = s.drvOut ++ [w.word] := rfl

@[simp] theorem State.emit_ret (s : State) (w : DrvWord Num32) :
    (s.emit w).ret = s.ret := rfl

@[simp] theorem State.emit_rstLow (s : State) (w : DrvWord Num32) :
    (s.emit w).rstLow = s.rstLow := rfl

@[simp] theorem State.emit_script (s : State) (w : DrvWord Num32) :
    (s.emit w).script = s.script := rfl

@[simp] theorem State.emit_cfg (s : State) (w : DrvWord Num32) :
    (s.emit w).cfg = s.cfg := rfl

/-! ### takeEdge -/

@[simp] theorem State.takeEdge_tick (s : State) :
    (s.takeEdge).tick = s.tick := rfl

@[simp] theorem State.takeEdge_tsq (s : State) :
    (s.takeEdge).tsq = queuePut Config.tsqCap s.tsq s.tick := rfl

@[simp] theorem State.takeEdge_tqq (s : State) :
    (s.takeEdge).tqq = s.tqq := rfl

@[simp] theorem State.takeEdge_scq (s : State) :
    (s.takeEdge).scq = s.scq := rfl

@[simp] theorem State.takeEdge_aspd (s : State) :
    (s.takeEdge).aspd = s.aspd := rfl

@[simp] theorem State.takeEdge_estPrev (s : State) :
    (s.takeEdge).estPrev = s.estPrev := rfl

@[simp] theorem State.takeEdge_intLast (s : State) :
    (s.takeEdge).intLast = s.intLast := rfl

@[simp] theorem State.takeEdge_intOmega (s : State) :
    (s.takeEdge).intOmega = s.intOmega := rfl

@[simp] theorem State.takeEdge_ms (s : State) :
    (s.takeEdge).ms = s.ms := rfl

@[simp] theorem State.takeEdge_smCmd (s : State) :
    (s.takeEdge).smCmd = s.smCmd := rfl

@[simp] theorem State.takeEdge_pollCnt (s : State) :
    (s.takeEdge).pollCnt = s.pollCnt := rfl

@[simp] theorem State.takeEdge_senseQ (s : State) :
    (s.takeEdge).senseQ = s.senseQ := rfl

@[simp] theorem State.takeEdge_drv (s : State) :
    (s.takeEdge).drv = s.drv := rfl

@[simp] theorem State.takeEdge_drvOut (s : State) :
    (s.takeEdge).drvOut = s.drvOut := rfl

@[simp] theorem State.takeEdge_ret (s : State) :
    (s.takeEdge).ret = s.ret := rfl

@[simp] theorem State.takeEdge_rstLow (s : State) :
    (s.takeEdge).rstLow = s.rstLow := rfl

@[simp] theorem State.takeEdge_script (s : State) :
    (s.takeEdge).script = s.script := rfl

@[simp] theorem State.takeEdge_cfg (s : State) :
    (s.takeEdge).cfg = s.cfg := rfl

/-! ### advanceTick -/

@[simp] theorem State.advanceTick_tick (s : State) :
    (s.advanceTick).tick = s.tick + 1 := rfl

@[simp] theorem State.advanceTick_tsq (s : State) :
    (s.advanceTick).tsq = s.tsq := rfl

@[simp] theorem State.advanceTick_tqq (s : State) :
    (s.advanceTick).tqq = s.tqq := rfl

@[simp] theorem State.advanceTick_scq (s : State) :
    (s.advanceTick).scq = s.scq := rfl

@[simp] theorem State.advanceTick_aspd (s : State) :
    (s.advanceTick).aspd = s.aspd := rfl

@[simp] theorem State.advanceTick_estPrev (s : State) :
    (s.advanceTick).estPrev = s.estPrev := rfl

@[simp] theorem State.advanceTick_intLast (s : State) :
    (s.advanceTick).intLast = s.intLast := rfl

@[simp] theorem State.advanceTick_intOmega (s : State) :
    (s.advanceTick).intOmega = s.intOmega := rfl

@[simp] theorem State.advanceTick_ms (s : State) :
    (s.advanceTick).ms = s.ms := rfl

@[simp] theorem State.advanceTick_smCmd (s : State) :
    (s.advanceTick).smCmd = s.smCmd := rfl

@[simp] theorem State.advanceTick_pollCnt (s : State) :
    (s.advanceTick).pollCnt = if s.pollCnt = 0 then 0 else s.pollCnt - 1 := rfl

@[simp] theorem State.advanceTick_senseQ (s : State) :
    (s.advanceTick).senseQ = s.senseQ := rfl

@[simp] theorem State.advanceTick_drv (s : State) :
    (s.advanceTick).drv = s.drv := rfl

@[simp] theorem State.advanceTick_drvOut (s : State) :
    (s.advanceTick).drvOut = s.drvOut := rfl

@[simp] theorem State.advanceTick_ret (s : State) :
    (s.advanceTick).ret = s.ret := rfl

@[simp] theorem State.advanceTick_rstLow (s : State) :
    (s.advanceTick).rstLow = s.rstLow := rfl

@[simp] theorem State.advanceTick_script (s : State) :
    (s.advanceTick).script = s.script := rfl

@[simp] theorem State.advanceTick_cfg (s : State) :
    (s.advanceTick).cfg = s.cfg := rfl

/-! ### resetBlock -/

@[simp] theorem State.resetBlock_tick (s : State) :
    (s.resetBlock).tick = 0 := rfl

@[simp] theorem State.resetBlock_tsq (s : State) :
    (s.resetBlock).tsq = [] := rfl

@[simp] theorem State.resetBlock_tqq (s : State) :
    (s.resetBlock).tqq = [] := rfl

@[simp] theorem State.resetBlock_scq (s : State) :
    (s.resetBlock).scq = [] := rfl

@[simp] theorem State.resetBlock_aspd (s : State) :
    (s.resetBlock).aspd = 0 := rfl

@[simp] theorem State.resetBlock_estPrev (s : State) :
    (s.resetBlock).estPrev = 0 := rfl

@[simp] theorem State.resetBlock_intLast (s : State) :
    (s.resetBlock).intLast = 0 := rfl

@[simp] theorem State.resetBlock_intOmega (s : State) :
    (s.resetBlock).intOmega = 0 := rfl

@[simp] theorem State.resetBlock_ms (s : State) :
    (s.resetBlock).ms = .idle := rfl

@[simp] theorem State.resetBlock_smCmd (s : State) :
    (s.resetBlock).smCmd = 0 := rfl

@[simp] theorem State.resetBlock_pollCnt (s : State) :
    (s.resetBlock).pollCnt = 0 := rfl

@[simp] theorem State.resetBlock_senseQ (s : State) :
    (s.resetBlock).senseQ = true := rfl

@[simp] theorem State.resetBlock_drv (s : State) :
    (s.resetBlock).drv = s.drv := rfl

@[simp] theorem State.resetBlock_drvOut (s : State) :
    (s.resetBlock).drvOut = s.drvOut := rfl

@[simp] theorem State.resetBlock_ret (s : State) :
    (s.resetBlock).ret = s.ret := rfl

@[simp] theorem State.resetBlock_rstLow (s : State) :
    (s.resetBlock).rstLow = s.rstLow := rfl

@[simp] theorem State.resetBlock_script (s : State) :
    (s.resetBlock).script = s.script := rfl

@[simp] theorem State.resetBlock_cfg (s : State) :
    (s.resetBlock).cfg = s.cfg := rfl

/-! ### withBlock -/

@[simp] theorem State.withBlock_tick (s : State) (b : Block Num32) :
    (s.withBlock b).tick = b.tick := rfl

@[simp] theorem State.withBlock_tsq (s : State) (b : Block Num32) :
    (s.withBlock b).tsq = b.tsq := rfl

@[simp] theorem State.withBlock_tqq (s : State) (b : Block Num32) :
    (s.withBlock b).tqq = b.tqq := rfl

@[simp] theorem State.withBlock_scq (s : State) (b : Block Num32) :
    (s.withBlock b).scq = b.scq := rfl

@[simp] theorem State.withBlock_aspd (s : State) (b : Block Num32) :
    (s.withBlock b).aspd = b.aspd := rfl

@[simp] theorem State.withBlock_estPrev (s : State) (b : Block Num32) :
    (s.withBlock b).estPrev = b.estPrev := rfl

@[simp] theorem State.withBlock_intLast (s : State) (b : Block Num32) :
    (s.withBlock b).intLast = b.intLast := rfl

@[simp] theorem State.withBlock_intOmega (s : State) (b : Block Num32) :
    (s.withBlock b).intOmega = b.intOmega := rfl

@[simp] theorem State.withBlock_ms (s : State) (b : Block Num32) :
    (s.withBlock b).ms = b.ms := rfl

@[simp] theorem State.withBlock_smCmd (s : State) (b : Block Num32) :
    (s.withBlock b).smCmd = b.smCmd := rfl

@[simp] theorem State.withBlock_pollCnt (s : State) (b : Block Num32) :
    (s.withBlock b).pollCnt = b.pollCnt := rfl

@[simp] theorem State.withBlock_senseQ (s : State) (b : Block Num32) :
    (s.withBlock b).senseQ = b.senseQ := rfl

@[simp] theorem State.withBlock_drv (s : State) (b : Block Num32) :
    (s.withBlock b).drv = b.drv := rfl

@[simp] theorem State.withBlock_drvOut (s : State) (b : Block Num32) :
    (s.withBlock b).drvOut = s.drvOut := rfl

@[simp] theorem State.withBlock_ret (s : State) (b : Block Num32) :
    (s.withBlock b).ret = s.ret := rfl

@[simp] theorem State.withBlock_rstLow (s : State) (b : Block Num32) :
    (s.withBlock b).rstLow = s.rstLow := rfl

@[simp] theorem State.withBlock_script (s : State) (b : Block Num32) :
    (s.withBlock b).script = s.script := rfl

@[simp] theorem State.withBlock_cfg (s : State) (b : Block Num32) :
    (s.withBlock b).cfg = b.cfg := rfl

/-! ### withWords -/

@[simp] theorem State.withWords_tick (s : State) (r : Block Num32 × List (DrvWord Num32)) :
    (s.withWords r).tick = r.1.tick := rfl

@[simp] theorem State.withWords_tsq (s : State) (r : Block Num32 × List (DrvWord Num32)) :
    (s.withWords r).tsq = r.1.tsq := rfl

@[simp] theorem State.withWords_tqq (s : State) (r : Block Num32 × List (DrvWord Num32)) :
    (s.withWords r).tqq = r.1.tqq := rfl

@[simp] theorem State.withWords_scq (s : State) (r : Block Num32 × List (DrvWord Num32)) :
    (s.withWords r).scq = r.1.scq := rfl

@[simp] theorem State.withWords_aspd (s : State) (r : Block Num32 × List (DrvWord Num32)) :
    (s.withWords r).aspd = r.1.aspd := rfl

@[simp] theorem State.withWords_estPrev (s : State) (r : Block Num32 × List (DrvWord Num32)) :
    (s.withWords r).estPrev = r.1.estPrev := rfl

@[simp] theorem State.withWords_intLast (s : State) (r : Block Num32 × List (DrvWord Num32)) :
    (s.withWords r).intLast = r.1.intLast := rfl

@[simp] theorem State.withWords_intOmega (s : State) (r : Block Num32 × List (DrvWord Num32)) :
    (s.withWords r).intOmega = r.1.intOmega := rfl

@[simp] theorem State.withWords_ms (s : State) (r : Block Num32 × List (DrvWord Num32)) :
    (s.withWords r).ms = r.1.ms := rfl

@[simp] theorem State.withWords_smCmd (s : State) (r : Block Num32 × List (DrvWord Num32)) :
    (s.withWords r).smCmd = r.1.smCmd := rfl

@[simp] theorem State.withWords_pollCnt (s : State) (r : Block Num32 × List (DrvWord Num32)) :
    (s.withWords r).pollCnt = r.1.pollCnt := rfl

@[simp] theorem State.withWords_senseQ (s : State) (r : Block Num32 × List (DrvWord Num32)) :
    (s.withWords r).senseQ = r.1.senseQ := rfl

@[simp] theorem State.withWords_drv (s : State) (r : Block Num32 × List (DrvWord Num32)) :
    (s.withWords r).drv = r.1.drv := rfl

@[simp] theorem State.withWords_drvOut (s : State) (r : Block Num32 × List (DrvWord Num32)) :
    (s.withWords r).drvOut = s.drvOut ++ r.2.map DrvWord.word := rfl

@[simp] theorem State.withWords_ret (s : State) (r : Block Num32 × List (DrvWord Num32)) :
    (s.withWords r).ret = s.ret := rfl

@[simp] theorem State.withWords_rstLow (s : State) (r : Block Num32 × List (DrvWord Num32)) :
    (s.withWords r).rstLow = s.rstLow := rfl

@[simp] theorem State.withWords_script (s : State) (r : Block Num32 × List (DrvWord Num32)) :
    (s.withWords r).script = s.script := rfl

@[simp] theorem State.withWords_cfg (s : State) (r : Block Num32 × List (DrvWord Num32)) :
    (s.withWords r).cfg = r.1.cfg := rfl

/-! ### withScript -/

@[simp] theorem State.withScript_tick (s : State) (l : List Frame) :
    (s.withScript l).tick = s.tick := rfl

@[simp] theorem State.withScript_tsq (s : State) (l : List Frame) :
    (s.withScript l).tsq = s.tsq := rfl

@[simp] theorem State.withScript_tqq (s : State) (l : List Frame) :
    (s.withScript l).tqq = s.tqq := rfl

@[simp] theorem State.withScript_scq (s : State) (l : List Frame) :
    (s.withScript l).scq = s.scq := rfl

@[simp] theorem State.withScript_aspd (s : State) (l : List Frame) :
    (s.withScript l).aspd = s.aspd := rfl

@[simp] theorem State.withScript_estPrev (s : State) (l : List Frame) :
    (s.withScript l).estPrev = s.estPrev := rfl

@[simp] theorem State.withScript_intLast (s : State) (l : List Frame) :
    (s.withScript l).intLast = s.intLast := rfl

@[simp] theorem State.withScript_intOmega (s : State) (l : List Frame) :
    (s.withScript l).intOmega = s.intOmega := rfl

@[simp] theorem State.withScript_ms (s : State) (l : List Frame) :
    (s.withScript l).ms = s.ms := rfl

@[simp] theorem State.withScript_smCmd (s : State) (l : List Frame) :
    (s.withScript l).smCmd = s.smCmd := rfl

@[simp] theorem State.withScript_pollCnt (s : State) (l : List Frame) :
    (s.withScript l).pollCnt = s.pollCnt := rfl

@[simp] theorem State.withScript_senseQ (s : State) (l : List Frame) :
    (s.withScript l).senseQ = s.senseQ := rfl

@[simp] theorem State.withScript_drv (s : State) (l : List Frame) :
    (s.withScript l).drv = s.drv := rfl

@[simp] theorem State.withScript_drvOut (s : State) (l : List Frame) :
    (s.withScript l).drvOut = s.drvOut := rfl

@[simp] theorem State.withScript_ret (s : State) (l : List Frame) :
    (s.withScript l).ret = s.ret := rfl

@[simp] theorem State.withScript_rstLow (s : State) (l : List Frame) :
    (s.withScript l).rstLow = s.rstLow := rfl

@[simp] theorem State.withScript_script (s : State) (l : List Frame) :
    (s.withScript l).script = l := rfl

@[simp] theorem State.withScript_cfg (s : State) (l : List Frame) :
    (s.withScript l).cfg = s.cfg := rfl

/-! ### withFrame -/

@[simp] theorem State.withFrame_tick (s : State) (f : Frame) :
    (s.withFrame f).tick = s.tick := rfl

@[simp] theorem State.withFrame_tsq (s : State) (f : Frame) :
    (s.withFrame f).tsq = s.tsq := rfl

@[simp] theorem State.withFrame_tqq (s : State) (f : Frame) :
    (s.withFrame f).tqq = s.tqq := rfl

@[simp] theorem State.withFrame_scq (s : State) (f : Frame) :
    (s.withFrame f).scq = s.scq := rfl

@[simp] theorem State.withFrame_aspd (s : State) (f : Frame) :
    (s.withFrame f).aspd = s.aspd := rfl

@[simp] theorem State.withFrame_estPrev (s : State) (f : Frame) :
    (s.withFrame f).estPrev = s.estPrev := rfl

@[simp] theorem State.withFrame_intLast (s : State) (f : Frame) :
    (s.withFrame f).intLast = s.intLast := rfl

@[simp] theorem State.withFrame_intOmega (s : State) (f : Frame) :
    (s.withFrame f).intOmega = s.intOmega := rfl

@[simp] theorem State.withFrame_ms (s : State) (f : Frame) :
    (s.withFrame f).ms = s.ms := rfl

@[simp] theorem State.withFrame_smCmd (s : State) (f : Frame) :
    (s.withFrame f).smCmd = s.smCmd := rfl

@[simp] theorem State.withFrame_pollCnt (s : State) (f : Frame) :
    (s.withFrame f).pollCnt = s.pollCnt := rfl

@[simp] theorem State.withFrame_senseQ (s : State) (f : Frame) :
    (s.withFrame f).senseQ = s.senseQ := rfl

@[simp] theorem State.withFrame_drv (s : State) (f : Frame) :
    (s.withFrame f).drv = s.drv := rfl

@[simp] theorem State.withFrame_drvOut (s : State) (f : Frame) :
    (s.withFrame f).drvOut = s.drvOut := rfl

@[simp] theorem State.withFrame_ret (s : State) (f : Frame) :
    (s.withFrame f).ret = s.ret := rfl

@[simp] theorem State.withFrame_rstLow (s : State) (f : Frame) :
    (s.withFrame f).rstLow = false := rfl

@[simp] theorem State.withFrame_script (s : State) (f : Frame) :
    (s.withFrame f).script = f :: s.script := rfl

@[simp] theorem State.withFrame_cfg (s : State) (f : Frame) :
    (s.withFrame f).cfg = s.cfg := rfl

/-! ### The block inside the machine -/

@[simp] theorem State.toBlock_withBlock (s : State) (b : Block Num32) :
    (s.withBlock b).toBlock = b := rfl

@[simp] theorem State.toBlock_withWords (s : State) (r : Block Num32 × List (DrvWord Num32)) :
    (s.withWords r).toBlock = r.1 := rfl

@[simp] theorem State.toBlock_handBack (s : State) (v : BitVec 32) :
    (s.handBack v).toBlock = s.toBlock := rfl

@[simp] theorem State.toBlock_withScript (s : State) (l : List Frame) :
    (s.withScript l).toBlock = s.toBlock := rfl

@[simp] theorem State.toBlock_withFrame (s : State) (f : Frame) :
    (s.withFrame f).toBlock = s.toBlock := rfl

/-! ### The items of a queue -/

@[simp] theorem State.items_tsq (s : State) : s.items .tsq = s.tsq := rfl

@[simp] theorem State.items_tqq (s : State) : s.items .tqq = s.tqq := rfl

@[simp] theorem State.items_scq (s : State) : s.items .scq = s.scq := rfl

@[simp] theorem State.setItems_tsq_eq (s : State) (l : List Entry) :
    s.setItems .tsq l = { s with tsq := l } := rfl

@[simp] theorem State.setItems_tqq_eq (s : State) (l : List Entry) :
    s.setItems .tqq l = { s with tqq := l } := rfl

@[simp] theorem State.setItems_scq_eq (s : State) (l : List Entry) :
    s.setItems .scq l = { s with scq := l } := rfl

@[simp] theorem State.items_setItems_self (s : State) (q : QueueId) (l : List Entry) :
    (s.setItems q l).items q = l := by cases q <;> rfl

theorem State.items_setItems_of_ne (s : State) {q r : QueueId} (h : r ≠ q) (l : List Entry) :
    (s.setItems q l).items r = s.items r := by
  cases q <;> cases r <;> first | rfl | exact absurd rfl h

end Sys2Proof.Machine
end

