-- ==== Sys2Proof/Laws/Ops.lean ====
section
/-! SUPPORT. What each shared operation can do, said once: the queue, the driver port, the timer. -/

namespace Sys2Proof.Machine

/-! ### The Bounded Queue (41_queue_share.md R140 to R143) -/

/-- On a queue within its capacity, `put` keeps the last `cap` entries of the queue and the new one. -/
theorem queuePut_eq_drop {ε : Type} {cap : Nat} {l : List ε} (hcap : 0 < cap) (h : l.length ≤ cap)
    (v : ε) : queuePut cap l v = (l ++ [v]).drop (l.length + 1 - cap) := by
  unfold queuePut
  rw [List.length_append, List.length_singleton]
  split
  · obtain rfl : l.length = cap := by omega
    rw [Nat.add_sub_cancel_left, List.drop_one]
  · rw [show l.length + 1 - cap = 0 by omega, List.drop_zero]

theorem queuePut_of_lt {ε : Type} {cap : Nat} {l : List ε} (h : l.length < cap) (v : ε) :
    queuePut cap l v = l ++ [v] := by
  unfold queuePut
  rw [if_neg]
  rw [List.length_append, List.length_singleton]
  omega

theorem queuePut_of_full {ε : Type} {cap : Nat} {x : ε} {l : List ε} (h : (x :: l).length = cap)
    (v : ε) : queuePut cap (x :: l) v = l ++ [v] := by
  unfold queuePut
  rw [if_pos]
  · rfl
  · rw [List.length_append, h, List.length_singleton]; omega

theorem length_queuePut_le {ε : Type} {cap : Nat} {l : List ε} (hcap : 0 < cap) (h : l.length ≤ cap)
    (v : ε) : (queuePut cap l v).length ≤ cap := by
  rw [queuePut_eq_drop hcap h, List.length_drop, List.length_append, List.length_singleton]
  omega

theorem mem_of_mem_queuePut {ε : Type} {cap : Nat} {l : List ε} {v x : ε}
    (h : x ∈ queuePut cap l v) : x ∈ l ∨ x = v := by
  unfold queuePut at h
  have : x ∈ l ++ [v] := by
    split at h
    · exact List.mem_of_mem_tail h
    · exact h
  simpa using this

theorem queueCap_pos (q : QueueId) : 0 < queueCap q := by cases q <;> decide

@[simp] theorem State.items_put_self (s : State) (q : QueueId) (v : Entry) :
    (s.put q v).items q = queuePut (queueCap q) (s.items q) v := by simp [State.put]

theorem State.items_put_of_ne (s : State) {q r : QueueId} (h : r ≠ q) (v : Entry) :
    (s.put q v).items r = s.items r := State.items_setItems_of_ne s h _

@[simp] theorem State.put_tsq_tsq (s : State) (v : Entry) :
    (s.put .tsq v).tsq = queuePut Config.tsqCap s.tsq v := rfl

@[simp] theorem State.put_tsq_tqq (s : State) (v : Entry) : (s.put .tsq v).tqq = s.tqq := rfl

@[simp] theorem State.put_tsq_scq (s : State) (v : Entry) : (s.put .tsq v).scq = s.scq := rfl

@[simp] theorem State.put_tqq_tsq (s : State) (v : Entry) : (s.put .tqq v).tsq = s.tsq := rfl

@[simp] theorem State.put_tqq_tqq (s : State) (v : Entry) :
    (s.put .tqq v).tqq = queuePut Config.cmdqCap s.tqq v := rfl

@[simp] theorem State.put_tqq_scq (s : State) (v : Entry) : (s.put .tqq v).scq = s.scq := rfl

@[simp] theorem State.put_scq_tsq (s : State) (v : Entry) : (s.put .scq v).tsq = s.tsq := rfl

@[simp] theorem State.put_scq_tqq (s : State) (v : Entry) : (s.put .scq v).tqq = s.tqq := rfl

@[simp] theorem State.put_scq_scq (s : State) (v : Entry) :
    (s.put .scq v).scq = queuePut Config.cmdqCap s.scq v := rfl

/-- A get has no step exactly on an empty queue (R143). -/
theorem State.get_eq_none_iff (s : State) (q : QueueId) : s.get q = none ↔ s.items q = [] := by
  unfold State.get; split <;> simp_all

/-- A get answers the oldest entry and the state without it (R142). -/
theorem State.get_eq_some_iff (s : State) (q : QueueId) (v : Entry) (t : State) :
    s.get q = some (v, t) ↔ ∃ rest, s.items q = v :: rest ∧ t = s.setItems q rest := by
  unfold State.get
  split
  · simp_all
  · next x rest h =>
    rw [h]
    constructor
    · rintro ⟨⟩; exact ⟨rest, rfl, rfl⟩
    · rintro ⟨r, ⟨⟩, rfl⟩; rfl

theorem State.get_of_items_eq_cons {s : State} {q : QueueId} {v : Entry} {rest : List Entry}
    (h : s.items q = v :: rest) : s.get q = some (v, s.setItems q rest) :=
  (s.get_eq_some_iff q v _).2 ⟨rest, h, rfl⟩

theorem State.get_of_items_eq_nil {s : State} {q : QueueId} (h : s.items q = []) :
    s.get q = none := (s.get_eq_none_iff q).2 h

theorem State.queueEmpty_eq_true_iff (s : State) (q : QueueId) :
    s.queueEmpty q = true ↔ s.items q = [] := by simp [State.queueEmpty]

section
variable {α : Type}

theorem Block.estEnabled_iff (b : Block α) : b.estEnabled = true ↔ b.tsq ≠ [] := by
  simp [Block.estEnabled]

theorem Block.intEnabled_iff (b : Block α) : b.intEnabled = true ↔ b.tqq ≠ [] := by
  simp [Block.intEnabled]

theorem Block.smEnabled_idle_iff (b : Block α) :
    b.smEnabled .idle = true ↔ b.ms = .idle ∧ b.scq ≠ [] := by
  simp [Block.smEnabled]

theorem Block.smEnabled_polled_iff (b : Block α) {m : MotionState} (h : m ≠ .idle) :
    b.smEnabled m = true ↔ b.ms = m ∧ b.pollCnt = 0 := by
  simp [Block.smEnabled, Block.pollDue, h]

@[simp] theorem Block.drvDir_eq (b : Block α) : b.drvDir = b.drv.pol := rfl

end

/-! ### The driver port and waiting (46_driver_port.md R220, 00_scope.md R12) -/

/-- A step that emits no word is a step of the block alone. -/
@[simp] theorem State.withWords_nil (s : State) (b : Block Num32) :
    s.withWords (b, []) = s.withBlock b := by simp [State.withWords, State.withBlock]

@[simp] theorem State.withBlock_toBlock (s : State) : s.withBlock s.toBlock = s := rfl

@[simp] theorem State.after_none (s : State) : s.after none = .next s := rfl

@[simp] theorem State.after_some (s : State) (r : Block Num32 × List (DrvWord Num32)) :
    s.after (some r) = .next (s.withWords r) := rfl

/-! ### The counters (42_edge_capture.md R160) -/

/-- One tick on the numbers: TICK counts modulo 2^32, POLL_CNT stops at 0. -/
theorem State.advanceTick_toNat (s : State) :
    s.advanceTick.tick.toNat = (s.tick.toNat + 1) % 2 ^ 32 ∧
      s.advanceTick.pollCnt.toNat = s.pollCnt.toNat - 1 := by
  refine ⟨by simp [BitVec.toNat_add], ?_⟩
  rw [State.advanceTick_pollCnt]
  split
  · next h => rw [h]; rfl
  · next h =>
    have h0 : s.pollCnt.toNat ≠ 0 := fun h' => h (BitVec.eq_of_toNat_eq h')
    have := s.pollCnt.isLt
    rw [BitVec.toNat_sub]
    simp
    omega

end Sys2Proof.Machine
end

