-- ==== Sys2Proof/Laws/Exec.lean ====
section
/-! SUPPORT. One lemma per operation, or two where it can wait: what `exec` answers. -/

namespace Sys2Proof.Machine

theorem exec_reset (s : State) : exec .reset s = .next s.resetBlock := rfl

theorem exec_putTorque_ok {v : Num32} (h : F32.isFinite v = true) (s : State) :
    exec (.putTorque v) s = .next (s.put .tqq v) := by
  simp [exec, execPutTorque, hostPut, hostOperandOk_f32, h]

theorem exec_putSpeed_ok {v : Num32} (h : F32.isFinite v = true) (s : State) :
    exec (.putSpeed v) s = .next (s.put .scq v) := by
  simp [exec, execPutSpeed, hostPut, hostOperandOk_f32, h]

theorem exec_putTorque_refused {v : Num32} (h : F32.isFinite v = false) (s : State) :
    exec (.putTorque v) s = .refused (.nonFiniteOperand v) := by
  simp [exec, execPutTorque, hostPut, hostOperandOk_f32, h]

theorem exec_putSpeed_refused {v : Num32} (h : F32.isFinite v = false) (s : State) :
    exec (.putSpeed v) s = .refused (.nonFiniteOperand v) := by
  simp [exec, execPutSpeed, hostPut, hostOperandOk_f32, h]

theorem exec_setDirection (p : Polarity) (s : State) :
    exec (.setDirection p) s = .next (s.emit (.setDirection p)) := rfl

theorem exec_brake (s : State) : exec .brake s = .next (s.emit .brake) := rfl

theorem exec_unbrake (s : State) : exec .unbrake s = .next (s.emit .unbrake) := rfl

theorem exec_commandSpeed (m : Num32) (s : State) :
    exec (.commandSpeed m) s = .next (s.emit (.commandSpeed m)) := rfl

theorem exec_getDirection (s : State) :
    exec .getDirection s = .next (s.handBack s.drv.pol.arg) := rfl

theorem exec_tickAdv (s : State) : exec .tickAdv s = .next s.advanceTick := rfl

theorem exec_ecCapture (s : State) : exec .ecCapture s = .next s.takeEdge := rfl

theorem exec_estStep_blocked {s : State} (h : s.tsq = []) : exec .estStep s = .next s := by
  simp [exec, execEstStep, estStep, h]

/-- EST_STEP with a timestamp waiting, as one record (43_speed_estimator.md R170, R171). -/
theorem exec_estStep_cons {s : State} {cur : Tick} {rest : List Tick} (h : s.tsq = cur :: rest) :
    exec .estStep s = .next { s with
      tsq := rest, estPrev := cur,
      aspd := if mdiff cur s.estPrev = 0 then s.aspd
        else estSpeed Numerics.f32 (mdiff cur s.estPrev) s.drv.pol } := by
  simp only [exec, execEstStep, estStep, h, State.after_some, State.withWords_nil, estimate]
  split <;> simp [State.withBlock, Block.publish]

theorem exec_intStep_blocked {s : State} (h : s.tqq = []) : exec .intStep s = .next s := by
  simp [exec, execIntStep, intStep, Block.intEnabled, h]

/-- INT_STEP with a torque waiting, as one record (44_torque_integrator.md R180). -/
theorem exec_intStep_cons {s : State} {tq : Num32} {rest : List Num32} (h : s.tqq = tq :: rest)
    (hc : cfgOk s.cfg = true) :
    exec .intStep s = .next { s with
      tqq := rest, intLast := s.tick, intOmega := s.integrated Numerics.f32 tq,
      scq := queuePut Config.cmdqCap s.scq
        (radToRpm Numerics.f32 (s.integrated Numerics.f32 tq)) } := by
  simp only [exec, execIntStep, hc, Bool.not_true, Bool.and_false, Bool.false_eq_true, if_false,
    intStep, h, State.after_some, State.withWords_nil]
  rfl

theorem exec_intStep_refused {s : State} {tq : Num32} {rest : List Num32} (h : s.tqq = tq :: rest)
    (hc : cfgOk s.cfg = false) : exec .intStep s = .refused .invalidConfiguration := by
  simp [exec, execIntStep, Block.intEnabled, h, hc]

theorem exec_smIdle_blocked {s : State} (h : s.smEnabled .idle = false) :
    exec .smIdle s = .next s := by
  simp [exec, execSmIdle, idleStep, h]

theorem exec_smIdle_cons {s : State} {c : Num32} {rest : List Num32} (hm : s.ms = .idle)
    (h : s.scq = c :: rest) :
    exec .smIdle s = .next (sequence .idle c { s with scq := rest, smCmd := c }) := by
  have he : s.smEnabled .idle = true := s.smEnabled_idle_iff.2 ⟨hm, by simp [h]⟩
  simp only [exec, execSmIdle, idleStep, he, if_true, h, State.after_some]
  rfl

/-- The operation of a polled state. -/
theorem exec_polled {s : State} {m : MotionState} (h : s.smEnabled m = true) (hm : m ≠ .idle) :
    exec m.instr s = .next (sequence m s.smCmd s) := by
  cases m <;>
    simp_all [exec, MotionState.instr, execSmAcc, execSmDec, execSmXhl, execSmXlh, pollStep, sequence]

theorem exec_polled_blocked {s : State} {m : MotionState} (h : s.smEnabled m = false) :
    exec m.instr s = .next s := by
  cases m <;>
    simp_all [exec, MotionState.instr, execSmIdle, execSmAcc, execSmDec, execSmXhl, execSmXlh,
      pollStep, idleStep]

theorem exec_qPut (q : QueueId) (v : Entry) (s : State) :
    exec (.qPut q v) s = .next (s.put q v) := rfl

theorem exec_qGet_blocked {s : State} {q : QueueId} (h : s.items q = []) :
    exec (.qGet q) s = .next s := by
  simp [exec, execQGet, State.get_of_items_eq_nil h, blocked]

theorem exec_qGet_cons {s : State} {q : QueueId} {v : Entry} {rest : List Entry}
    (h : s.items q = v :: rest) :
    exec (.qGet q) s = .next ((s.setItems q rest).handBack v) := by
  simp [exec, execQGet, State.get_of_items_eq_cons h]

theorem exec_shPut (v : Num32) (s : State) : exec (.shPut v) s = .next (s.publish v) := rfl

theorem exec_shGet (s : State) : exec .shGet s = .next (s.handBack s.aspd) := rfl

/-! ### What an operation that answers a next state did -/

theorem exec_putTorque_cases {v : Num32} {s t : State} (h : exec (.putTorque v) s = .next t) :
    F32.isFinite v = true ∧ t = s.put .tqq v := by
  by_cases hv : F32.isFinite v = true
  · rw [exec_putTorque_ok hv] at h; cases h; exact ⟨hv, rfl⟩
  · rw [exec_putTorque_refused (by simpa using hv)] at h; cases h

theorem exec_putSpeed_cases {v : Num32} {s t : State} (h : exec (.putSpeed v) s = .next t) :
    F32.isFinite v = true ∧ t = s.put .scq v := by
  by_cases hv : F32.isFinite v = true
  · rw [exec_putSpeed_ok hv] at h; cases h; exact ⟨hv, rfl⟩
  · rw [exec_putSpeed_refused (by simpa using hv)] at h; cases h

theorem exec_estStep_cases {s t : State} (h : exec .estStep s = .next t) :
    (s.tsq = [] ∧ t = s) ∨
      ∃ cur rest, s.tsq = cur :: rest ∧ t = { s with
        tsq := rest, estPrev := cur,
        aspd := if mdiff cur s.estPrev = 0 then s.aspd
          else estSpeed Numerics.f32 (mdiff cur s.estPrev) s.drv.pol } := by
  rcases hq : s.tsq with _ | ⟨cur, rest⟩
  · rw [exec_estStep_blocked hq] at h; cases h; exact .inl ⟨rfl, rfl⟩
  · rw [exec_estStep_cons hq] at h; cases h; exact .inr ⟨cur, rest, rfl, rfl⟩

theorem exec_intStep_cases {s t : State} (h : exec .intStep s = .next t) :
    (s.tqq = [] ∧ t = s) ∨
      ∃ tq rest, s.tqq = tq :: rest ∧ cfgOk s.cfg = true ∧ t = { s with
        tqq := rest, intLast := s.tick, intOmega := s.integrated Numerics.f32 tq,
        scq := queuePut Config.cmdqCap s.scq
          (radToRpm Numerics.f32 (s.integrated Numerics.f32 tq)) } := by
  rcases hq : s.tqq with _ | ⟨tq, rest⟩
  · rw [exec_intStep_blocked hq] at h; cases h; exact .inl ⟨rfl, rfl⟩
  · by_cases hc : cfgOk s.cfg = true
    · rw [exec_intStep_cons hq hc] at h; cases h; exact .inr ⟨tq, rest, rfl, hc, rfl⟩
    · rw [exec_intStep_refused hq (by simpa using hc)] at h; cases h

/-- The operation of any state of the sequencer: it waited, it took a command in Idle, or the poll
was due. -/
theorem exec_sm_cases {m : MotionState} {s t : State} (h : exec m.instr s = .next t) :
    (s.smEnabled m = false ∧ t = s) ∨
    (∃ c rest, m = .idle ∧ s.ms = .idle ∧ s.scq = c :: rest ∧
      t = sequence .idle c { s with scq := rest, smCmd := c }) ∨
    (m ≠ .idle ∧ s.ms = m ∧ s.pollCnt = 0 ∧ t = sequence m s.smCmd s) := by
  by_cases he : s.smEnabled m = true
  · by_cases hm : m = .idle
    · subst hm
      obtain ⟨h1, h2⟩ := s.smEnabled_idle_iff.1 he
      obtain ⟨c, rest, hs⟩ := List.exists_cons_of_ne_nil h2
      rw [MotionState.instr, exec_smIdle_cons h1 hs] at h
      exact .inr (.inl ⟨c, rest, rfl, h1, hs, (Host.Outcome.next.inj h).symm⟩)
    · rw [exec_polled he hm] at h
      cases h
      obtain ⟨h1, h2⟩ := (s.smEnabled_polled_iff hm).1 he
      exact .inr (.inr ⟨hm, h1, h2, rfl⟩)
  · rw [exec_polled_blocked (by simpa using he)] at h
    cases h
    exact .inl ⟨by simpa using he, rfl⟩

theorem exec_qGet_cases {q : QueueId} {s t : State} (h : exec (.qGet q) s = .next t) :
    (s.items q = [] ∧ t = s) ∨
      ∃ v rest, s.items q = v :: rest ∧ t = (s.setItems q rest).handBack v := by
  rcases hq : s.items q with _ | ⟨v, rest⟩
  · rw [exec_qGet_blocked hq] at h; cases h; exact .inl ⟨rfl, rfl⟩
  · rw [exec_qGet_cons hq] at h; cases h; exact .inr ⟨v, rest, rfl, rfl⟩

/-! ### The sequencer's evaluation -/

/-- One sequencer evaluation as one record: what the pure function answers, and the poll timer. -/
theorem sequence_eq (m : MotionState) (c : Num32) (s : State) :
    sequence m c s = { s with
      drv := (smNext Numerics.f32 m c s.aspd s.drv.pol).2.foldl Drv.obey s.drv
      drvOut := s.drvOut ++ (smNext Numerics.f32 m c s.aspd s.drv.pol).2.map DrvWord.word
      ms := (smNext Numerics.f32 m c s.aspd s.drv.pol).1
      pollCnt := if (smNext Numerics.f32 m c s.aspd s.drv.pol).1 = .idle then s.pollCnt
        else BitVec.ofNat 14 Config.pollTicks } := by
  rfl

/-- Every answer of the sequencer's function is an edge of the graph of 45_state_machine.md R199. -/
theorem smNext_cases {α : Type} (N : Numerics α) (ms : MotionState) (c a : α) (d : Polarity) :
    (ms = .idle ∧ smNext N ms c a d = (.idle, [])) ∨
    (ms = .idle ∧ smNext N ms c a d = goAccelerate N c) ∨
    (ms = .idle ∧ smNext N ms c a d = goDecelerate N) ∨
    (ms = .accelerating ∧ smNext N ms c a d = (.idle, [])) ∨
    (ms = .accelerating ∧ smNext N ms c a d = (.accelerating, [])) ∨
    (ms = .decelerating ∧ smNext N ms c a d = (.idle, [.unbrake, .commandSpeed (N.fabs c)])) ∨
    (ms = .decelerating ∧ smNext N ms c a d = (.decelerating, [])) ∨
    (ms = .decelerating ∧ smNext N ms c a d = (.crossHighToLow, [])) ∨
    (ms = .decelerating ∧ smNext N ms c a d = (.crossLowToHigh, [])) ∨
    (ms = .crossHighToLow ∧ smNext N ms c a d = crossTo N .forward c) ∨
    (ms = .crossLowToHigh ∧ smNext N ms c a d = crossTo N .reverse c) := by
  cases ms <;> simp only [smNext]
  case idle => split_ifs <;> simp [goAccelerate, goDecelerate]
  case accelerating => split_ifs <;> simp
  case decelerating => split_ifs <;> simp
  case crossHighToLow => simp
  case crossLowToHigh => simp

/-! ### One step -/

theorem step_run {s t : State} {i : Instr} (h : fetch s = .run i t) : step s = exec i t := by
  simp [step, h]

theorem step_pass {s t : State} (h : fetch s = .pass t) : step s = .next t := by
  simp [step, h]

/-- Out of reset, a step looks at the first event of the script. -/
theorem fetch_cons {s : State} {f : Frame} {rest : List Frame} (hr : s.rstLow = false)
    (h : s.script = f :: rest) : fetch s = fetchFrame f (s.withScript rest) := by
  simp [fetch, hr, h]

/-- If a step answers a next state, either an operation ran or nothing happened. -/
theorem step_eq_next_cases {s t : State} (h : step s = .next t) :
    (∃ i u, fetch s = .run i u ∧ exec i u = .next t) ∨ fetch s = .pass t := by
  unfold step at h
  split at h
  · next i u hf => exact .inl ⟨i, u, hf, h⟩
  · next u hf => cases h; exact .inr hf
  · cases h

end Sys2Proof.Machine
end

