-- ==== Sys2Proof/Laws/Fetch.lean ====
section
/-! SUPPORT. Everything a fetch can find (Machine/Fetch.lean), said once: which operation fires, from
which frame, and in which state. Invariants of `step` cite these and never unfold `fetch`. -/

namespace Sys2Proof.Machine

@[simp] theorem State.settleInstr_withScript (s : State) (l : List Frame) :
    (s.withScript l).settleInstr = s.settleInstr := rfl

theorem State.withScript_cons_eq {s : State} {f : Frame} {rest : List Frame}
    (h : s.script = f :: rest) : (s.withScript rest).withScript (f :: rest) = s := by
  cases s
  simp only [State.withScript] at h ⊢
  rw [h]

theorem fetchDecoded_eq_run {r : Except Reject Instr} {s u : State} {i : Instr}
    (h : fetchDecoded r s = .run i u) : r = .ok i ∧ u = s := by
  unfold fetchDecoded at h
  split at h
  · cases h; exact ⟨rfl, rfl⟩
  all_goals cases h

theorem fetchDecoded_eq_pass {r : Except Reject Instr} {s u : State}
    (h : fetchDecoded r s = .pass u) : r = .error .reservedHostWord ∧ u = s := by
  unfold fetchDecoded at h
  split at h
  · cases h
  · cases h; exact ⟨rfl, rfl⟩
  all_goals cases h

/-- The operation that one frame fires out of reset, and the state it fires in. -/
theorem fetchFrame_eq_run {f : Frame} {s u : State} {i : Instr} (h : fetchFrame f s = .run i u) :
    (decode f = some (.ok i) ∧ u = s) ∨
    (f = .stepSM ∧ i = s.ms.instr ∧ u = s) ∨
    (f = .sense true ∧ s.senseQ = false ∧ i = .ecCapture ∧ u = { s with senseQ := true }) ∨
    (f = .rstN false ∧ i = .reset ∧ u = { s with rstLow := true }) ∨
    (f = .settle ∧ s.settleInstr = some i ∧ u = s.withScript (.settle :: s.script)) := by
  cases f with
  | hcmd w =>
    obtain ⟨h1, h2⟩ := fetchDecoded_eq_run h
    exact .inl ⟨congrArg some h1, h2⟩
  | drvCmd w =>
    obtain ⟨h1, h2⟩ := fetchDecoded_eq_run h
    exact .inl ⟨congrArg some h1, h2⟩
  | opId id q v =>
    obtain ⟨h1, h2⟩ := fetchDecoded_eq_run h
    exact .inl ⟨congrArg some h1, h2⟩
  | stepSM => cases h; exact .inr (.inl ⟨rfl, rfl, rfl⟩)
  | sense level =>
    simp only [fetchFrame, fetchSense] at h
    split at h
    · next hc =>
      cases h
      cases level <;> simp at hc
      exact .inr (.inr (.inl ⟨rfl, hc, rfl, rfl⟩))
    · cases h
  | rstN level =>
    cases level <;> cases h
    exact .inr (.inr (.inr (.inl ⟨rfl, rfl, rfl⟩)))
  | settle =>
    simp only [fetchFrame] at h
    split at h
    · next hi => cases h; exact .inr (.inr (.inr (.inr ⟨rfl, hi, rfl⟩)))
    · cases h

/-- What one frame that fires nothing does. -/
theorem fetchFrame_eq_pass {f : Frame} {s u : State} (h : fetchFrame f s = .pass u) :
    (decode f = some (.error .reservedHostWord) ∧ u = s) ∨
    (∃ level, f = .sense level ∧ u = { s with senseQ := level }) ∨
    (f = .rstN true ∧ u = { s with rstLow := false }) ∨
    (f = .settle ∧ s.settleInstr = none ∧ u = s) := by
  cases f with
  | hcmd w =>
    obtain ⟨h1, h2⟩ := fetchDecoded_eq_pass h
    exact .inl ⟨congrArg some h1, h2⟩
  | drvCmd w =>
    obtain ⟨h1, h2⟩ := fetchDecoded_eq_pass h
    exact .inl ⟨congrArg some h1, h2⟩
  | opId id q v =>
    obtain ⟨h1, h2⟩ := fetchDecoded_eq_pass h
    exact .inl ⟨congrArg some h1, h2⟩
  | stepSM => cases h
  | sense level =>
    simp only [fetchFrame, fetchSense] at h
    split at h
    · cases h
    · cases h; exact .inr (.inl ⟨level, rfl, rfl⟩)
  | rstN level =>
    cases level <;> cases h
    exact .inr (.inr (.inl ⟨rfl, rfl⟩))
  | settle =>
    simp only [fetchFrame] at h
    split at h
    · cases h
    · next hi => cases h; exact .inr (.inr (.inr ⟨rfl, hi, rfl⟩))

/-- A fetch that finds an operation: held in reset it is RESET; with no event it is the schedule's; and
otherwise the first frame's. -/
theorem fetch_eq_run {s u : State} {i : Instr} (h : fetch s = .run i u) :
    (s.rstLow = true ∧ i = .reset ∧
      ((s.script = [] ∧ u = s) ∨ ∃ f rest, s.script = f :: rest ∧ u = s.withScript rest)) ∨
    (s.rstLow = false ∧ s.script = [] ∧ i = s.autoInstr ∧ u = s) ∨
    (s.rstLow = false ∧ ∃ f rest, s.script = f :: rest ∧
      fetchFrame f (s.withScript rest) = .run i u) := by
  unfold fetch at h
  split at h
  · next hr =>
    refine .inl ⟨hr, ?_⟩
    unfold fetchInReset at h
    split at h
    · next hs => cases h; exact ⟨rfl, .inl ⟨hs, rfl⟩⟩
    · cases h
    · next f rest _ hs => cases h; exact ⟨rfl, .inr ⟨f, rest, hs, rfl⟩⟩
  · next hr =>
    have hr' : s.rstLow = false := by simpa using hr
    split at h
    · next hs => cases h; exact .inr (.inl ⟨hr', hs, rfl, rfl⟩)
    · next f rest hs => exact .inr (.inr ⟨hr', f, rest, hs, h⟩)

/-- A fetch that finds no operation. -/
theorem fetch_eq_pass {s u : State} (h : fetch s = .pass u) :
    (s.rstLow = true ∧ ∃ rest, s.script = .rstN true :: rest ∧
      u = { s with rstLow := false, script := rest }) ∨
    (s.rstLow = false ∧ ∃ f rest, s.script = f :: rest ∧
      fetchFrame f (s.withScript rest) = .pass u) := by
  unfold fetch at h
  split at h
  · next hr =>
    refine .inl ⟨hr, ?_⟩
    unfold fetchInReset at h
    split at h
    · cases h
    · next rest hs => cases h; exact ⟨rest, hs, rfl⟩
    · cases h
  · next hr =>
    have hr' : s.rstLow = false := by simpa using hr
    split at h
    · cases h
    · next f rest hs => exact .inr ⟨hr', f, rest, hs, h⟩

/-- The schedule's own choices are operations of agents. -/
theorem State.autoInstr_cases (s : State) :
    s.autoInstr = .estStep ∨ s.autoInstr = .intStep ∨ s.autoInstr = s.ms.instr ∨
      s.autoInstr = .tickAdv := by
  unfold State.autoInstr
  split_ifs <;> simp

theorem State.settleInstr_cases {s : State} {i : Instr} (h : s.settleInstr = some i) :
    i = .estStep ∨ i = .intStep ∨ i = .smIdle := by
  unfold State.settleInstr at h
  split_ifs at h <;> cases h <;> simp

/-- An invariant that looks at none of the script, SENSE_Q and the reset pin, and that every operation
keeps, is kept by every step. -/
theorem step_keeps {P : State → Prop} (hscript : ∀ s l, P s → P { s with script := l })
    (hrst : ∀ s b, P s → P { s with rstLow := b }) (hsense : ∀ s b, P s → P { s with senseQ := b })
    (hexec : ∀ i s t, P s → exec i s = .next t → P t) {s t : State} (hs : P s)
    (h : step s = .next t) : P t := by
  rcases step_eq_next_cases h with ⟨i, u, hf, hx⟩ | hf
  · refine hexec i u t ?_ hx
    rcases fetch_eq_run hf with ⟨_, _, ⟨_, rfl⟩ | ⟨f, rest, _, rfl⟩⟩ | ⟨_, _, _, rfl⟩ |
      ⟨_, f, rest, _, hf⟩
    · exact hs
    · exact hscript _ _ hs
    · exact hs
    · have hr := hscript s rest hs
      rcases fetchFrame_eq_run hf with ⟨_, rfl⟩ | ⟨_, _, rfl⟩ | ⟨_, _, _, rfl⟩ | ⟨_, _, rfl⟩ |
        ⟨_, _, rfl⟩
      · exact hr
      · exact hr
      · exact hsense _ true hr
      · exact hrst _ true hr
      · exact hscript _ _ hr
  · rcases fetch_eq_pass hf with ⟨_, rest, _, rfl⟩ | ⟨_, f, rest, _, hf⟩
    · exact hrst _ false (hscript s rest hs)
    · have hr := hscript s rest hs
      rcases fetchFrame_eq_pass hf with ⟨_, rfl⟩ | ⟨level, _, rfl⟩ | ⟨_, rfl⟩ | ⟨_, _, rfl⟩
      · exact hr
      · exact hsense _ level hr
      · exact hrst _ false hr
      · exact hr

end Sys2Proof.Machine
end

