-- ==== Sys2Proof/Laws/PerInstr.lean ====
section
/-! SUPPORT. Statements made once per instruction. `TableWord`: the word of every well-formed
instruction lies in its row of spec/opcode_table.json (width, match and mask). -/

namespace Sys2Proof.Laws

open Machine

/-- The word of the instruction has the width of its row, and under the row's mask it is the row's
match. -/
def TableWord.Statement (i : Instr) : Prop :=
  i.wellFormed = true →
    i.tableWord < 2 ^ i.row.width ∧ i.tableWord &&& i.row.mask = i.row.pattern

/-- A port word under a mask, field by field. -/
theorem portWord_and (op opMask : OpId) (arg argMask : BitVec 32) :
    (PortWord.mk op arg).toNat &&& (opMask ++ argMask).toNat =
      ((op &&& opMask) ++ (arg &&& argMask)).toNat := by
  rw [← BitVec.toNat_and, PortWord.mk, BitVec.and_append]

theorem portWord_lt (op : OpId) (arg : BitVec 32) : (PortWord.mk op arg).toNat < 2 ^ 40 :=
  (PortWord.mk op arg).isLt

/-- A Num with its sign bit clear has nothing under the mask of bit 31. -/
theorem and_signMask_of_signBit {m : Num32} (h : F32.signBit m = false) :
    m &&& 0x80000000 = 0 := by
  have hlt : m.toNat < 2 ^ 31 := by simpa [F32.signBit] using h
  apply BitVec.eq_of_toNat_eq
  rw [BitVec.toNat_and, show (0x80000000 : BitVec 32).toNat = 2 ^ 31 by decide, Nat.and_two_pow,
    Nat.testBit_lt_two_pow hlt]
  rfl

theorem TableWord.reset : TableWord.Statement .reset := by unfold TableWord.Statement; decide

theorem TableWord.putTorque (v : Num32) : TableWord.Statement (.putTorque v) := fun _ =>
  ⟨portWord_lt _ _, (portWord_and 0x01 0xFF v 0).trans (by simp [Instr.row])⟩

theorem TableWord.putSpeed (v : Num32) : TableWord.Statement (.putSpeed v) := fun _ =>
  ⟨portWord_lt _ _, (portWord_and 0x02 0xFF v 0).trans (by simp [Instr.row])⟩

theorem TableWord.setDirection (p : Polarity) : TableWord.Statement (.setDirection p) := by
  cases p <;> (unfold TableWord.Statement; decide)

theorem TableWord.brake : TableWord.Statement .brake := by unfold TableWord.Statement; decide

theorem TableWord.unbrake : TableWord.Statement .unbrake := by unfold TableWord.Statement; decide

theorem TableWord.commandSpeed (m : Num32) : TableWord.Statement (.commandSpeed m) := fun h => by
  have hs : F32.signBit m = false := by
    have : (!F32.signBit m && F32.ge m 0) = true := h
    simp at this
    exact this.1
  refine ⟨portWord_lt _ _, (portWord_and 0x13 0xFF m 0x80000000).trans ?_⟩
  rw [and_signMask_of_signBit hs]
  rfl

theorem TableWord.getDirection : TableWord.Statement .getDirection := by
  unfold TableWord.Statement; decide

theorem TableWord.tickAdv : TableWord.Statement .tickAdv := by unfold TableWord.Statement; decide

theorem TableWord.ecCapture : TableWord.Statement .ecCapture := by
  unfold TableWord.Statement; decide

theorem TableWord.estStep : TableWord.Statement .estStep := by unfold TableWord.Statement; decide

theorem TableWord.intStep : TableWord.Statement .intStep := by unfold TableWord.Statement; decide

theorem TableWord.smIdle : TableWord.Statement .smIdle := by unfold TableWord.Statement; decide

theorem TableWord.smAcc : TableWord.Statement .smAcc := by unfold TableWord.Statement; decide

theorem TableWord.smDec : TableWord.Statement .smDec := by unfold TableWord.Statement; decide

theorem TableWord.smXhl : TableWord.Statement .smXhl := by unfold TableWord.Statement; decide

theorem TableWord.smXlh : TableWord.Statement .smXlh := by unfold TableWord.Statement; decide

theorem TableWord.qPut (q : QueueId) (v : Entry) : TableWord.Statement (.qPut q v) := fun _ => by
  show (0x40 : Nat) < 2 ^ 8 ∧ (0x40 : Nat) &&& 0xFF = 0x40; decide

theorem TableWord.qGet (q : QueueId) : TableWord.Statement (.qGet q) := fun _ => by
  show (0x41 : Nat) < 2 ^ 8 ∧ (0x41 : Nat) &&& 0xFF = 0x41; decide

theorem TableWord.shPut (v : Num32) : TableWord.Statement (.shPut v) := fun _ => by
  show (0x42 : Nat) < 2 ^ 8 ∧ (0x42 : Nat) &&& 0xFF = 0x42; decide

theorem TableWord.shGet : TableWord.Statement .shGet := by unfold TableWord.Statement; decide

end Sys2Proof.Laws
end

