-- ==== Sys2Proof/Machine/Reference.lean ====
section
/-! DEFINITION. The block over any numerics (40_numerics.md R130): one step of any agent of
00_scope.md R9, and a script (30_encoding.md R104) run on it. At `Numerics.f32` it is what `exec` does;
at `Numerics.rat` it is the ideal reference Q. -/

namespace Sys2Proof.Machine

/-- A step of an agent, with its operand in the carrier. -/
inductive Move (α : Type) where
  | reset
  | putTorque (v : α)
  | putSpeed (v : α)
  | tickAdv
  | ecCapture
  | estStep
  | intStep
  | smStep
  deriving DecidableEq, Repr

/-- The step on the block, with the driver words it emits. None where the agent has no step: it waits
(R12), the operand is not finite (41_queue_share.md R152), or the configuration is not admitted
(R8). -/
def Block.move {α : Type} (N : Numerics α) (b : Block α) :
    Move α → Option (Block α × List (DrvWord α))
  | .reset => some (Block.clear N b, [])
  | .putTorque v =>
    if hostOperandOk N v then some ({ b with tqq := queuePut Config.cmdqCap b.tqq v }, []) else none
  | .putSpeed v =>
    if hostOperandOk N v then some ({ b with scq := queuePut Config.cmdqCap b.scq v }, []) else none
  | .tickAdv => some (b.advanceTick, [])
  | .ecCapture => some (b.takeEdge, [])
  | .estStep => Machine.estStep N b
  | .intStep => if paramsOk N b.cfg then Machine.intStep N b else none
  | .smStep => Machine.smStep N b

/-- One run after another, with the words of both. -/
def andThen {α : Type} (r : Option (Block α × List (DrvWord α)))
    (f : Block α → Option (Block α × List (DrvWord α))) : Option (Block α × List (DrvWord α)) :=
  match r with
  | none => none
  | some (b, ws) => (f b).map fun r => (r.1, ws ++ r.2)

/-- The steps in order; none as soon as one of them has no step. -/
def Block.moves {α : Type} (N : Numerics α) (b : Block α) :
    List (Move α) → Option (Block α × List (DrvWord α))
  | [] => some (b, [])
  | m :: ms => andThen (b.move N m) fun b' => b'.moves N ms

/-- The step of a `STEP` line. -/
def StepAgent.move {α : Type} : StepAgent → Move α
  | .est => .estStep
  | .int => .intStep
  | .sm => .smStep

/-- SETTLE (30_encoding.md R105) with at most `fuel` steps: EST, INT or SM_IDLE, in this order, while one
is enabled. -/
def Block.settle {α : Type} (N : Numerics α) (b : Block α) :
    Nat → Option (Block α × List (DrvWord α))
  | 0 => some (b, [])
  | fuel + 1 =>
    if b.estEnabled then andThen (b.move N .estStep) fun b' => b'.settle N fuel
    else if b.intEnabled then andThen (b.move N .intStep) fun b' => b'.settle N fuel
    else if b.smEnabled .idle then andThen (b.move N .smStep) fun b' => b'.settle N fuel
    else some (b, [])

/-- One line of a script; a literal is converted by the numerics' own `lit` (R114), and SETTLE has one
step for each entry that waits and for each command an INT_STEP puts (70_reset_and_hazards.md R297). -/
def Block.line {α : Type} (N : Numerics α) (b : Block α) : Line → Option (Block α × List (DrvWord α))
  | .reset => b.move N .reset
  | .adv n => b.moves N (List.replicate n .tickAdv)
  | .edge => b.move N .ecCapture
  | .putt v => b.move N (.putTorque (N.lit v))
  | .puts v => b.move N (.putSpeed (N.lit v))
  | .step a => b.move N a.move
  | .edges n p => b.moves N (List.replicate n (List.replicate p .tickAdv ++ [.ecCapture])).flatten
  | .settle => b.settle N (b.tsq.length + 2 * b.tqq.length + b.scq.length)
  | .poll => b.moves N (List.replicate Config.pollTicks .tickAdv ++ [.smStep])

/-- A script run from a state of the block, with all its driver words (R104). -/
def Block.runScript {α : Type} (N : Numerics α) (b : Block α) :
    List Line → Option (Block α × List (DrvWord α))
  | [] => some (b, [])
  | l :: ls => andThen (b.line N l) fun b' => b'.runScript N ls

end Sys2Proof.Machine
end

