-- ==== Sys2Proof/Laws/Reference.lean ====
section
/-! SUPPORT. The machine is the block over any numerics at binary32 (40_numerics.md R130): where
`Block.move` has a step, `exec` answers it. -/

namespace Sys2Proof.Machine

/-- The operation of a step, for the sequencer the one that MS selects. -/
def Move.instr (m : MotionState) : Move Num32 → Instr
  | .reset => .reset
  | .putTorque v => .putTorque v
  | .putSpeed v => .putSpeed v
  | .tickAdv => .tickAdv
  | .ecCapture => .ecCapture
  | .estStep => .estStep
  | .intStep => .intStep
  | .smStep => m.instr

theorem exec_sm_after (s : State) : exec s.ms.instr s = s.after (smStep Numerics.f32 s.toBlock) := by
  unfold smStep
  cases s.ms <;> rfl

/-- What a step of the block does, the machine's operation does. -/
theorem exec_of_move {s : State} {m : Move Num32} {r : Block Num32 × List (DrvWord Num32)}
    (h : s.toBlock.move Numerics.f32 m = some r) :
    exec (m.instr s.ms) s = .next (s.withWords r) := by
  cases m with
  | reset => cases h; rw [State.withWords_nil]; rfl
  | putTorque v =>
    simp only [Block.move, hostOperandOk_f32] at h
    split at h
    · next hv => cases h; rw [State.withWords_nil]; exact exec_putTorque_ok hv s
    · cases h
  | putSpeed v =>
    simp only [Block.move, hostOperandOk_f32] at h
    split at h
    · next hv => cases h; rw [State.withWords_nil]; exact exec_putSpeed_ok hv s
    · cases h
  | tickAdv => cases h; rw [State.withWords_nil]; rfl
  | ecCapture => cases h; rw [State.withWords_nil]; rfl
  | estStep => exact congrArg s.after h
  | intStep =>
    simp only [Block.move] at h
    split at h
    · next hc =>
      simp only [Move.instr, exec, execIntStep, cfgOk, hc, Bool.not_true, Bool.and_false,
        Bool.false_eq_true, if_false]
      exact congrArg s.after h
    · cases h
  | smStep => exact (exec_sm_after s).trans (congrArg s.after h)

end Sys2Proof.Machine
end

