-- ==== Sys2Proof/Tests/Slice0.lean ====
section
/-! SUPPORT. The model's own tests: words written out from 30_encoding.md, single steps whose results
are the vectors of 95_test_vectors.md ("V-..."), and for each statement with hypotheses a state that
meets them. -/

namespace Sys2Proof.Tests

-- One proof at a time: each kernel evaluation below would otherwise wait in a thread of its own.
set_option Elab.async false

open Machine

/-- The test configuration of 95_test_vectors.md section 0. -/
def cfg0 : Cfg := ⟨0x3A800000, 0x43C80000, .forward, .released⟩

/-- The same configuration in Q. -/
def qCfg : Params Rat := ⟨1 / 1024, 400, .forward, .released⟩

/-- `S0` of that configuration. -/
def s0 : State := State.coldStart cfg0

/-- The next state of an outcome. -/
def nextOf (r : Result) : Option State :=
  match r with
  | .next s => some s
  | .fault _ => none
  | .refused _ => none

/-- The refusal of an outcome. -/
def refusalOf (r : Result) : Option Refusal :=
  match r with
  | .next _ => none
  | .fault _ => none
  | .refused e => some e

/-! ### Well-formedness -/

theorem test_wellFormed_putTorque : (Instr.putTorque 0x7F7FFFFF).wellFormed = true ∧
    (Instr.putTorque 0x7FC00000).wellFormed = false := by decide

theorem test_wellFormed_putSpeed : (Instr.putSpeed 0x80000000).wellFormed = true ∧
    (Instr.putSpeed 0xFF800000).wellFormed = false := by decide

theorem test_wellFormed_commandSpeed : (Instr.commandSpeed 0x43FA0000).wellFormed = true ∧
    (Instr.commandSpeed 0xC3FA0000).wellFormed = false ∧
    (Instr.commandSpeed 0x7FC00000).wellFormed = false := by decide

/-! ### Decoding: one word per operation, from R86, R89, R90 -/

theorem test_decode_putTorque : decodeHcmd
    (0b00000001#8 ++ 0b00111111000000000000000000000000#32) = .ok (.putTorque 0x3F000000) := by
  decide

theorem test_decode_putSpeed : decodeHcmd
    (0b00000010#8 ++ 0b11000011010010000000000000000000#32) = .ok (.putSpeed 0xC3480000) := by
  decide

theorem test_decode_setDirection :
    decodeDrvCmd (0b00010000#8 ++ 0b0#31 ++ 0b0#1) = .ok (.setDirection .forward) ∧
    decodeDrvCmd (0b00010000#8 ++ 0b0#31 ++ 0b1#1) = .ok (.setDirection .reverse) := by decide

theorem test_decode_brake : decodeDrvCmd (0b00010001#8 ++ 0b0#32) = .ok .brake := by decide

theorem test_decode_unbrake : decodeDrvCmd (0b00010010#8 ++ 0b0#32) = .ok .unbrake := by decide

theorem test_decode_commandSpeed : decodeDrvCmd
    (0b00010011#8 ++ 0b01000011111110100000000000000000#32) = .ok (.commandSpeed 0x43FA0000) := by
  decide

theorem test_decode_ids :
    decodeId 0b00000000 .tsq 0 = .ok .reset ∧ decodeId 0b00010100 .tsq 0 = .ok .getDirection ∧
    decodeId 0b00100000 .tsq 0 = .ok .tickAdv ∧ decodeId 0b00100001 .tsq 0 = .ok .ecCapture ∧
    decodeId 0b00100010 .tsq 0 = .ok .estStep ∧ decodeId 0b00100011 .tsq 0 = .ok .intStep ∧
    decodeId 0b01000000 .tqq 7 = .ok (.qPut .tqq 7) ∧ decodeId 0b01000001 .scq 7 = .ok (.qGet .scq) ∧
    decodeId 0b01000010 .tsq 7 = .ok (.shPut 7) ∧ decodeId 0b01000011 .tsq 7 = .ok .shGet := by decide

theorem test_decode_S :
    decodeS 0b000 = some .smIdle ∧ decodeS 0b001 = some .smAcc ∧ decodeS 0b010 = some .smDec ∧
    decodeS 0b011 = some .smXhl ∧ decodeS 0b100 = some .smXlh ∧
    decodeS 0b101 = none ∧ decodeS 0b110 = none ∧ decodeS 0b111 = none := by decide

theorem test_decode_rejects :
    decodeHcmd 0x1100000000 = .error .reservedHostWord ∧
    decodeDrvCmd 0x1000000002 = .error .neverEmitted ∧
    decodeDrvCmd 0x1100000001 = .error .neverEmitted ∧
    decodeDrvCmd 0x1380000000 = .error .neverEmitted ∧
    decodeDrvCmd 0x1400000000 = .error .neverEmitted ∧
    decodeId 0x15 .tsq 0 = .error .unassignedId := by decide

theorem test_decodeTableWord :
    decodeTableWord 40 0x1000000001 = some (.setDirection .reverse) ∧
    decodeTableWord 40 0x0243480000 = some (.putSpeed 0x43480000) ∧
    decodeTableWord 8 0x00 = some .reset ∧ decodeTableWord 3 0 = some .smIdle ∧
    decodeTableWord 8 0x04 = some .smXlh ∧ decodeTableWord 8 0x43 = some .shGet ∧
    decodeTableWord 40 0x0300000000 = none := by decide

theorem test_withFetchWord :
    nextOf (step (State.withFetchWord s0 8 0x20)) = nextOf (exec .tickAdv s0) ∧
    nextOf (step (State.withFetchWord s0 8 0x03)) =
      nextOf (exec .smXhl { s0 with ms := .crossHighToLow }) ∧
    refusalOf (step (State.withFetchWord s0 40 0x017FC00000)) =
      some (.nonFiniteOperand 0x7FC00000) := by
  decide +kernel

/-! ### One step of each operation -/

/-- V-RST-1, V-RST-2: the driver is left as it was. -/
theorem test_reset :
    (nextOf (exec .reset { s0 with
      tick := 9, tsq := [1, 2], ms := .decelerating, pollCnt := 5, senseQ := false,
      drv := ⟨.reverse, .braked, 0x43480000⟩ })) =
    some { s0 with drv := ⟨.reverse, .braked, 0x43480000⟩ } := by decide +kernel

/-- V-HOST-1, V-HOST-5. -/
theorem test_putTorque :
    (nextOf (exec (.putTorque 0x3F000000) s0)).map (·.tqq) = some [0x3F000000] ∧
    (nextOf (exec (.putTorque 3) { s0 with tqq := [1, 2] })).map (·.tqq) = some [2, 3] := by
  decide +kernel

/-- V-HOST-4. -/
theorem test_putTorque_refused :
    refusalOf (exec (.putTorque 0x7FC00000) s0) = some (.nonFiniteOperand 0x7FC00000) := by
  decide +kernel

/-- V-HOST-2, and V-HOST-4 for the infinity. -/
theorem test_putSpeed :
    (nextOf (exec (.putSpeed 0xC3480000) s0)).map (·.scq) = some [0xC3480000] ∧
    refusalOf (exec (.putSpeed 0x7F800000) s0) = some (.nonFiniteOperand 0x7F800000) := by
  decide +kernel

/-- V-DRV-1, V-DRV-2. -/
theorem test_setDirection :
    (nextOf (exec (.setDirection .reverse) s0)).map (fun t => (t.drv.pol, t.drvOut)) =
      some (.reverse, [0x1000000001]) ∧
    (nextOf (exec (.setDirection .forward) s0)).map (fun t => (t.drv.pol, t.drvOut)) =
      some (.forward, [0x1000000000]) := by decide +kernel

/-- V-DRV-3. -/
theorem test_brake : (nextOf (exec .brake s0)).map (fun t => (t.drv.brk, t.drvOut)) =
    some (.braked, [0x1100000000]) := by decide +kernel

/-- V-DRV-4. -/
theorem test_unbrake :
    (nextOf (exec .unbrake { s0 with drv := ⟨.forward, .braked, 0⟩ })).map
      (fun t => (t.drv.brk, t.drvOut)) = some (.released, [0x1200000000]) := by decide +kernel

/-- V-DRV-5. -/
theorem test_commandSpeed :
    (nextOf (exec (.commandSpeed 0x43FA0000) s0)).map (fun t => (t.drv.spd, t.drvOut)) =
      some (0x43FA0000, [0x1343FA0000]) := by decide +kernel

/-- V-DRV-7. -/
theorem test_getDirection :
    nextOf (exec .getDirection { s0 with drv := ⟨.reverse, .released, 0⟩ }) =
      some { s0 with drv := ⟨.reverse, .released, 0⟩, ret := 1 } := by decide +kernel

/-- V-TK-2, and the example of R160. -/
theorem test_tickAdv :
    (nextOf (exec .tickAdv { s0 with tick := 0xFFFFFFFF })).map (·.tick) = some 0 ∧
    (nextOf (exec .tickAdv { s0 with tick := 7, pollCnt := 1 })).map
      (fun t => (t.tick, t.pollCnt)) = some (8, 0) := by decide +kernel

/-- V-EC-1, V-EC-2. -/
theorem test_ecCapture :
    nextOf (exec .ecCapture { s0 with tick := 1000 }) =
      some { s0 with tick := 1000, tsq := [1000] } ∧
    (nextOf (exec .ecCapture { s0 with tick := 90000, tsq := [30000, 45000, 60000, 75000] })).map
      (·.tsq) = some [45000, 60000, 75000, 90000] := by decide +kernel

/-- The published speed after one EST_STEP. -/
def estAspd (prev cur : Tick) (p : Polarity) : Option Num32 :=
  (nextOf (exec .estStep { s0 with estPrev := prev, tsq := [cur], drv := ⟨p, .released, 0⟩ })).map
    (·.aspd)

/-- V-EST-1 to V-EST-12, V-EST-14, V-EST-17 to V-EST-19. -/
theorem test_estStep :
    [(1, 0x4B64E1C0), (2, 0x4AE4E1C0), (1000, 0x466A5FFF), (6667, 0x450C9E34), (15000, 0x447A0001),
      (30000, 0x43FA0001), (75000, 0x43480000), (85000, 0x43307878), (749999, 0x41A0000E),
      (750000, 0x41A00000), (750001, 0x419FFFF2), (1000000, 0x41700000),
      (4294967295, 0x3B64E1C0), (16777217, 0x3F64E1C0)].all
      (fun r => decide (estAspd 0 r.1 .forward = some r.2)) = true ∧
    estAspd 4294967196 100 .forward = some 0x47927C00 ∧
    estAspd 30000 45000 .reverse = some 0xC47A0001 := by decide +kernel

/-- V-EST-13: a zero interval publishes nothing. -/
theorem test_estStep_zero :
    nextOf (exec .estStep { s0 with estPrev := 7, tsq := [7], aspd := 0x42000000 }) =
      some { s0 with estPrev := 7, aspd := 0x42000000 } := by decide +kernel

/-- The registers after one INT_STEP: INT.omega and what went to SCQ. -/
def intResult (tq : Num32) (now last : Tick) (a : Num32) : Option (Num32 × List Entry) :=
  (nextOf (exec .intStep { s0 with tqq := [tq], tick := now, intLast := last, aspd := a })).map
    fun t => (t.intOmega, t.scq)

/-- V-INT-1, V-INT-2, V-INT-9, V-INT-10, V-INT-12 to V-INT-15. -/
theorem test_intStep_torque :
    intResult 0x3F000000 50000 40000 0x447A0001 = some (0x42DBADF6, [0x44831C8F]) ∧
    intResult 0x3F000000 40000 0 0x447A0001 = some (0x42FA6648, [0x4495723B]) ∧
    intResult 0x7F61B1E6 50000 40000 0x447A0001 = some (0x43C80000, [0x456EBB7F]) ∧
    intResult 0xFF61B1E6 50000 40000 0x447A0001 = some (0xC3C80000, [0xC56EBB7F]) ∧
    intResult 0xBF000000 50000 40000 0x447A0001 = some (0x42C73314, [0x446DC6E4]) ∧
    intResult 0x41200000 50000 40000 0x447A0001 = some (0x434F1EA8, [0x44F73B22]) ∧
    intResult 0xC1200000 50000 40000 0x447A0001 = some (0x40147720, [0x41B137AA]) ∧
    intResult 0 160000 0 0x43480000 = some (0x41A78D36, [0x4347FFFF]) := by decide +kernel

/-- V-INT-3 to V-INT-8, V-INT-11. -/
theorem test_intStep_time :
    intResult 0x3E800000 5 5 0 = some (0x3E83126F, [0x401C74A7]) ∧
    intResult 0x3E800000 6 5 0 = some (0x398637BD, [0x3B2035EA]) ∧
    intResult 0x3E800000 1004 5 0 = some (0x3E82F0E1, [0x401C4C9A]) ∧
    intResult 0x3E800000 1000004 5 0 = some (0x437FFFEF, [0x4518C9E1]) ∧
    intResult 0x3E800000 1000005 5 0 = some (0x43800000, [0x4518C9EB]) ∧
    intResult 0x3E800000 3000000 5 0 = some (0x43800000, [0x4518C9EB]) ∧
    intResult 0x3E800000 4 5 0 = some (0x3E83126F, [0x401C74A7]) ∧
    intResult 0x3E800000 100 4294967000 0 = some (0x3E83126F, [0x401C74A7]) := by decide +kernel

/-- What a sequencer step did: next state, words, POLL_CNT. -/
def smResult (i : Instr) (s : State) : Option (MotionState × List PortWord × BitVec 14) :=
  (nextOf (exec i s)).map fun t => (t.ms, t.drvOut, t.pollCnt)

/-- SM_IDLE with this speed, command and polarity. -/
def smIdleRow (a c : Num32) (p : Polarity) : Option (MotionState × List PortWord × BitVec 14) :=
  smResult .smIdle { s0 with scq := [c], aspd := a, drv := ⟨p, .released, 0⟩ }

/-- "C0, B → Decelerating". -/
def slows : Option (MotionState × List PortWord × BitVec 14) :=
  some (.decelerating, [0x1300000000, 0x1100000000], 10000)

/-- "COMMAND_SPEED fabs(c) → Accelerating". -/
def speeds (w : PortWord) : Option (MotionState × List PortWord × BitVec 14) :=
  some (.accelerating, [w], 10000)

/-- V-SMI-1 to V-SMI-8: the rows of the Idle table. -/
theorem test_smIdle_table :
    [smIdleRow 0x42C80000 0x43FA0000 .forward,
      smIdleRow 0xC3FA0000 0xC2C80000 .reverse,
      smIdleRow 0xC2C80000 0x43FA0000 .forward,
      smIdleRow 0xC2C80000 0x43FA0000 .reverse,
      smIdleRow 0x43FA0000 0x42C80000 .forward,
      smIdleRow 0xC2C80000 0xC3FA0000 .reverse,
      smIdleRow 0x43FA0000 0xC2C80000 .forward,
      smIdleRow 0x43FA0000 0xC2C80000 .reverse] =
    [speeds 0x1343FA0000,
      slows,
      slows,
      slows,
      slows,
      speeds 0x1343FA0000,
      slows,
      slows] := by decide +kernel

/-- V-SMI-9, V-SMI-11 to V-SMI-24: equality, zeros, the exact compare, sign against polarity. -/
theorem test_smIdle_corners :
    [smIdleRow 0x43FA0000 0x43FA0000 .forward,
      smIdleRow 0 0x80000000 .reverse,
      smIdleRow 0 0x43FA0000 .forward,
      smIdleRow 0 0x43FA0000 .reverse,
      smIdleRow 0 0xC3FA0000 .forward,
      smIdleRow 0 0xC3FA0000 .reverse,
      smIdleRow 0xC0A00000 0 .reverse,
      smIdleRow 0x40A00000 0 .forward,
      smIdleRow 0 0x40A00000 .forward,
      smIdleRow 0x447A0000 0xC3480000 .forward,
      smIdleRow 0x447A0001 0x447A0000 .forward,
      smIdleRow 0xC3FA0000 0xC2C80000 .forward,
      smIdleRow 0x43FA0000 0x42C80000 .reverse] =
    [some (.idle, [], 0),
      some (.idle, [], 0),
      speeds 0x1343FA0000,
      slows,
      slows,
      slows,
      slows,
      slows,
      speeds 0x1340A00000,
      slows,
      slows,
      speeds 0x1342C80000,
      speeds 0x1342C80000] := by decide +kernel

/-- A polled operation in this state with this speed, command and polarity, braked. -/
def pollRow (m : MotionState) (a c : Num32) (p : Polarity) :
    Option (MotionState × List PortWord × BitVec 14) :=
  smResult m.instr { s0 with ms := m, aspd := a, smCmd := c, drv := ⟨p, .braked, 0⟩ }

/-- V-SMA-1 to V-SMA-10. -/
theorem test_smAcc :
    [(0x43F00000, 0x43FA0000), (0x44020000, 0x43FA0000), (0xC3F00000, 0xC3FA0000), (0, 0x41700000),
      (0x41200000, 0xC1200000)].all (fun r => decide
        (pollRow .accelerating r.1 r.2 .forward = some (.idle, [], 0))) = true ∧
    [(0x43EFFFFF, 0x43FA0000), (0x44020001, 0x43FA0000), (0, 0x43FA0000), (0xC3307878, 0xC3480000),
      (0x41700000, 0xC3480000)].all (fun r => decide
        (pollRow .accelerating r.1 r.2 .forward = some (.accelerating, [], 10000))) = true := by
  decide +kernel

/-- V-SMA-11: not enabled. -/
theorem test_smAcc_waits :
    nextOf (exec .smAcc { s0 with ms := .accelerating, pollCnt := 1 }) =
      some { s0 with ms := .accelerating, pollCnt := 1 } := by decide +kernel

/-- V-SMD-2 to V-SMD-8, V-SMD-15: a sign mismatch. -/
theorem test_smDec_mismatch :
    [pollRow .decelerating 0x41700000 0xC3480000 .forward,
      pollRow .decelerating 0x41A00000 0xC3480000 .forward,
      pollRow .decelerating 0x419FFFFF 0xC3480000 .forward,
      pollRow .decelerating 0xC1700000 0x43480000 .reverse,
      pollRow .decelerating 0xC1A00000 0x43480000 .reverse,
      pollRow .decelerating 0 0xC3480000 .reverse,
      pollRow .decelerating 0x40A00000 0xC0A00000 .forward,
      pollRow .decelerating 0xC1200000 0 .reverse] =
    [some (.crossLowToHigh, [], 10000),
      some (.decelerating, [], 10000),
      some (.crossLowToHigh, [], 10000),
      some (.crossHighToLow, [], 10000),
      some (.decelerating, [], 10000),
      some (.crossHighToLow, [], 10000),
      some (.crossLowToHigh, [], 10000),
      some (.crossHighToLow, [], 10000)] := by
  decide +kernel

/-- V-SMD-9, V-SMD-10, V-SMD-12 to V-SMD-14, V-SMD-16, V-SMD-19: one sign. -/
theorem test_smDec_same :
    [pollRow .decelerating 0x42F00000 0x42C80000 .forward,
      pollRow .decelerating 0x42F00001 0x42C80000 .forward,
      pollRow .decelerating 0x42A00000 0x42C80000 .forward,
      pollRow .decelerating 0xC2F00000 0xC2C80000 .reverse,
      pollRow .decelerating 0x41200000 0 .forward,
      pollRow .decelerating 0x41F00000 0 .forward,
      pollRow .decelerating 0x42C80000 0x43FA0000 .reverse] =
    [some (.idle, [0x1200000000, 0x1342C80000], 0),
      some (.decelerating, [], 10000),
      some (.idle, [0x1200000000, 0x1342C80000], 0),
      some (.idle, [0x1200000000, 0x1342C80000], 0),
      some (.idle, [0x1200000000, 0x1300000000], 0),
      some (.decelerating, [], 10000),
      some (.decelerating, [], 10000)] := by
  decide +kernel

/-- V-SMX-1, V-SMX-3. -/
theorem test_smXhl :
    pollRow .crossHighToLow 0 0x43480000 .reverse =
      some (.accelerating, [0x1000000000, 0x1200000000, 0x1343480000], 10000) ∧
    (nextOf (exec .smXhl { s0 with
      ms := .crossHighToLow, smCmd := 0xC3FA0000, drv := ⟨.reverse, .braked, 0⟩ })).map (·.drv) =
      some ⟨.forward, .released, 0x43FA0000⟩ := by decide +kernel

/-- V-SMX-2, V-SMX-4. -/
theorem test_smXlh :
    pollRow .crossLowToHigh 0 0xC3480000 .forward =
      some (.accelerating, [0x1000000001, 0x1200000000, 0x1343480000], 10000) ∧
    pollRow .crossLowToHigh 0 0x80000000 .forward =
      some (.accelerating, [0x1000000001, 0x1200000000, 0x1300000000], 10000) := by decide +kernel

/-- V-Q-1, V-Q-2. -/
theorem test_qPut :
    (nextOf (exec (.qPut .tsq 7) s0)).map (·.tsq) = some [7] ∧
    (nextOf (exec (.qPut .tsq 5) { s0 with tsq := [1, 2, 3, 4] })).map (·.tsq) =
      some [2, 3, 4, 5] := by decide +kernel

/-- V-Q-4, V-Q-5. -/
theorem test_qGet :
    nextOf (exec (.qGet .tqq) { s0 with tqq := [8, 9] }) =
      some { s0 with tqq := [9], ret := 8 } ∧
    nextOf (exec (.qGet .tqq) s0) = some s0 := by decide +kernel

/-- V-Q-7. -/
theorem test_ringBuffer_put :
    (RingBuffer.put ⟨4, [12, 13, 14, 11], 3, 4⟩ 15) = ⟨4, [12, 13, 14, 15], 0, 4⟩ ∧
    (RingBuffer.items ⟨4, [12, 13, 14, 15], 0, 4⟩) = [12, 13, 14, 15] ∧
    (RingBuffer.items ⟨4, [12, 13, 14, 11], 3, 4⟩) = [11, 12, 13, 14] := by decide

/-- V-SH-1, V-SH-2. -/
theorem test_share :
    nextOf (exec (.shPut 0x43480000) { s0 with aspd := 0x447A0000 }) =
      some { s0 with aspd := 0x43480000 } ∧
    nextOf (exec .shGet { s0 with aspd := 0x43480000, ret := 5 }) =
      some { s0 with aspd := 0x43480000, ret := 0x43480000 } := by decide +kernel

/-! ### Steps: events and the schedule -/

/-- V-EC-4: a level high through reset is no edge; a rise is one. -/
theorem test_step_sense :
    nextOf (step { s0 with script := [.sense true] }) = some s0 ∧
    nextOf (step { s0 with script := [.sense true], senseQ := false, tick := 3 }) =
      some { s0 with tsq := [3], tick := 3 } := by decide +kernel

/-- R284: held in reset a tick is ignored; the release lets the next event in. -/
theorem test_step_rstN :
    nextOf (step { s0 with rstLow := true, tick := 4, script := [encode .tickAdv] }) =
      some { s0 with rstLow := true } ∧
    nextOf (step { s0 with rstLow := true, script := [.rstN true] }) = some s0 := by decide +kernel

/-- R246: EST before INT before SM; with nothing enabled a tick. -/
theorem test_step_schedule :
    (nextOf (step { s0 with tsq := [5], tqq := [0], scq := [0] })).map (fun t => (t.tsq, t.tqq)) =
      some ([], [0]) ∧
    (nextOf (step { s0 with tqq := [0], scq := [7] })).map (fun t => (t.tqq, t.scq)) =
      some ([], [7, 0]) ∧
    (nextOf (step s0)).map (·.tick) = some 1 := by decide +kernel

/-- R105: SETTLE stays until the state is quiet. -/
theorem test_step_settle :
    (nextOf (step { s0 with tsq := [75000], script := [.settle] })).map
      (fun t => (t.aspd, t.script)) = some (0x43480000, [.settle]) ∧
    nextOf (step { s0 with script := [.settle] }) = some s0 := by decide +kernel

/-- R99, R90: frames that are no operation. -/
theorem test_step_refuses :
    refusalOf (step { s0 with script := [.drvCmd 0x1000000002] }) = some .neverEmitted ∧
    refusalOf (step { s0 with script := [.opId 0x35 .tsq 0] }) = some .unassignedId := by
  decide +kernel

/-! ### The numerics (40_numerics.md) -/

/-- The literals of R114. -/
theorem test_lit :
    F32.lit 15 = 0x41700000 ∧ F32.lit 20 = 0x41A00000 ∧ F32.lit 1000000 = 0x49742400 ∧
    F32.lit (878453 / 8388608) = 0x3DD67750 ∧ F32.lit (10013163 / 1048576) = 0x4118C9EB ∧
    F32.lit (1 / 1000) = 0x3A83126F ∧ F32.lit (-200) = 0xC3480000 := by decide +kernel

/-- The examples of R116, R121, R122 and R119. -/
theorem test_numerics :
    F32.div 0x466A6000 0x49742400 = 0x3C75C28F ∧ F32.ofU32 6667 = 0x45D05800 ∧
    F32.ofU32 4294967295 = 0x4F800000 ∧ rpmToRad Numerics.f32 0x447A0000 = 0x42D17084 ∧
    radToRpm Numerics.f32 0x42D17084 = 0x447A0000 ∧ rpmToRad Numerics.f32 0x43480000 = 0x41A78D36 ∧
    radToRpm Numerics.f32 0x41A78D36 = 0x4347FFFF ∧
    fsign Numerics.f32 0x80000000 = .plus ∧ fsign Numerics.f32 0xBA83126F = .minus := by
  decide +kernel

/-- Gradual underflow and the special operands of R116 that give no NaN. -/
theorem test_numerics_special :
    F32.mul 0x00800000 0x3F000000 = 0x00400000 ∧ F32.mul 0x00000001 0x3F000000 = 0 ∧
    F32.add 0x7F7FFFFF 0x7F7FFFFF = 0x7F800000 ∧ F32.div 0x3F800000 0 = 0x7F800000 ∧
    F32.div 0xBF800000 0x7F800000 = 0x80000000 ∧ F32.add 0x7F800000 0xBF800000 = 0x7F800000 ∧
    F32.sub 0x3F800000 0x3F800000 = 0 := by decide +kernel

/-- The Q column of V-EST-4 and V-INT-15. -/
theorem test_numerics_rat :
    estMagnitude Numerics.rat 6667 = 15000000 / 6667 ∧
    radToRpm Numerics.rat (integrate Numerics.rat (1 / 1024) 400 0 160000 200) =
      219902326920975 / 1099511627776 := by decide +kernel

/-- V-EST-4 and V-EST-19 in Q: one EST_STEP of the block over exact rationals. -/
theorem test_estStep_rat :
    (estStep Numerics.rat { Block.coldStart Numerics.rat qCfg with tsq := [6667] }).map
      (fun r => (r.1.aspd, r.1.estPrev)) = some (15000000 / 6667, 6667) ∧
    (estStep Numerics.rat { Block.coldStart Numerics.rat qCfg with
      estPrev := 30000, tsq := [45000], drv := ⟨.reverse, .released, 0⟩ }).map (·.1.aspd) =
      some (-1000) := by decide +kernel

/-- V-INT-1 and V-INT-9 in Q. -/
theorem test_intStep_rat :
    (intStep Numerics.rat { Block.coldStart Numerics.rat qCfg with
      tqq := [1 / 2], tick := 50000, intLast := 40000, aspd := 16384001 / 16384 }).map
      (fun r => (r.1.intOmega, r.1.scq, r.1.intLast)) =
      some (377406556805741 / 3435973836800,
        [3779033370564643968783 / 3602879701896396800], 50000) ∧
    (intStep Numerics.rat { Block.coldStart Numerics.rat qCfg with
      tqq := [300000000000000000000000000000000000000], tick := 50000, intLast := 40000 }).map
      (·.1.scq) = some [250329075 / 65536] := by decide +kernel

/-- V-SMI-1's command as script lines, at both numerics. -/
theorem test_script :
    ((Block.coldStart Numerics.rat qCfg).runScript Numerics.rat [.puts 500, .step .sm]).map
      (fun r => (r.1.ms, r.2)) = some (.accelerating, [.commandSpeed 500]) ∧
    (s0.toBlock.runScript Numerics.f32 [.puts 500, .step .sm]).map
      (fun r => (r.1.ms, r.2)) = some (.accelerating, [.commandSpeed 0x43FA0000]) ∧
    (s0.toBlock.runScript Numerics.f32 [.step .est]) = none := by decide +kernel

/-- Logs 27 and 28: a literal of value zero, one that rounds to zero (2^-150, halfway), one beyond the
range. -/
theorem test_lit_open :
    F32.lit 0 = 0x00000000 ∧ F32.lit (-(1 / 2 ^ 150)) = 0x80000000 ∧
    F32.lit (-(10 ^ 39)) = 0xFF800000 := by decide +kernel

/-! ### For each statement with hypotheses, operands that meet them all (clauses in their order) -/

/-- ResetSetsEveryRegister, ResetPinActsAtOnce. -/
theorem test_meets_heldReset :
    ({ s0 with rstLow := true, script := [.settle] } : State).rstLow = true ∧
    ({ s0 with rstLow := true, script := [.settle] } : State).script.head? ≠ some (.rstN true) ∧
    ({ s0 with script := [.rstN false] } : State).rstLow = false ∧
    ({ s0 with script := [.rstN false] } : State).script = .rstN false :: [] ∧
    ({ s0 with rstLow := true, script := [.rstN true] } : State).script = .rstN true :: [] := by
  decide +kernel

/-- HostCommandsAreQueued, HostOperandsAreFinite: the largest finite operand, and an infinity. -/
theorem test_meets_hostOperand :
    F32.isFinite 0x7F7FFFFF = true ∧ (0x7F7FFFFF : Num32).extractLsb' 23 8 ≠ 0xFF ∧
    (0x7F800000 : Num32).extractLsb' 23 8 = 0xFF := by decide

/-- ReservedHostWordIsIgnored: the word just above the two that are read. -/
theorem test_meets_reservedHostWord :
    ({ s0 with script := [.hcmd 0x0300000000] } : State).rstLow = false ∧
    ({ s0 with script := [.hcmd 0x0300000000] } : State).script = .hcmd 0x0300000000 :: [] ∧
    (0x0300000000 : PortWord).extractLsb' 32 8 ≠ 0x01 ∧
    (0x0300000000 : PortWord).extractLsb' 32 8 ≠ 0x02 := by decide +kernel

/-- QueuePutDropsTheOldest, QueueGetTakesTheOldest, OverflowLosesOnlyTheOldest: a full ring, an empty
one, and a get. -/
theorem test_meets_ring :
    (RingBuffer.ok ⟨4, [12, 13, 14, 11], 3, 4⟩) = true ∧ (RingBuffer.ok ⟨1, [9], 0, 0⟩) = true ∧
    (RingBuffer.get ⟨4, [12, 13, 14, 11], 3, 4⟩) = some (11, ⟨4, [12, 13, 14, 11], 0, 3⟩) := by
  decide

/-- QueueGetTakesTheOldest, OverflowLosesOnlyTheOldest, PutAndGetCommuteUnlessFull. -/
theorem test_meets_queues :
    ({ s0 with tqq := [8, 9] } : State).items .tqq = 8 :: [9] ∧
    (({ s0 with tqq := [8, 9] } : State).items .tqq).length = queueCap .tqq ∧
    s0.items .tqq = [] ∧ queueCap .tqq = 2 ∧
    (s0.items .tsq).length ≤ queueCap .tsq ∧ queueCap .tsq ≤ ([1, 2, 3, 4] : List Entry).length ∧
    ({ s0 with tqq := [8] } : State).items .tqq = 8 :: [] ∧
    (({ s0 with tqq := [8] } : State).items .tqq).length < queueCap .tqq := by decide +kernel

/-- BlockedAgentsWait. -/
theorem test_meets_blocked :
    s0.items .scq = [] ∧ s0.tsq = [] ∧ s0.tqq = [] ∧ (s0.ms ≠ .idle ∨ s0.scq = []) ∧
    (({ s0 with ms := .accelerating, pollCnt := 1 } : State).ms ≠ .accelerating ∨
      ({ s0 with ms := .accelerating, pollCnt := 1 } : State).pollCnt ≠ 0) ∧
    (s0.ms ≠ .decelerating ∨ s0.pollCnt ≠ 0) ∧ (s0.ms ≠ .crossHighToLow ∨ s0.pollCnt ≠ 0) ∧
    (s0.ms ≠ .crossLowToHigh ∨ s0.pollCnt ≠ 0) := by decide +kernel

/-- GetDirectionSamplesThePolarity. -/
theorem test_meets_setDirection :
    exec (.setDirection .reverse) s0 = .next (s0.emit (.setDirection .reverse)) := rfl

/-- OnlyARisingSampleIsAnEdge. -/
theorem test_meets_sense :
    ({ s0 with script := [.sense true] } : State).rstLow = false ∧
    ({ s0 with script := [.sense true] } : State).script = .sense true :: [] := by decide +kernel

/-- PollWaitsTenThousandTicks: an evaluation that ends in Idle and one that does not. -/
theorem test_meets_poll :
    (sequence .idle 0 s0).ms = .idle ∧ (sequence .idle 0x43FA0000 s0).ms ≠ .idle := by
  decide +kernel

/-- EstStepPublishesTheSpeed: a zero and a non-zero difference, across the wrap of TICK. -/
theorem test_meets_estStep :
    ({ s0 with tsq := [7] } : State).tsq = 7 :: [] ∧
    ((0 : Nat) : Int) = (((7 : Tick).toNat : Int) - ((7 : Tick).toNat : Int)) % 2 ^ 32 ∧
    ((200 : Nat) : Int) = (((100 : Tick).toNat : Int) - ((4294967196 : Tick).toNat : Int)) % 2 ^ 32 ∧
    0x47927C00 =
      F32.mul (F32.div 0x3F800000 (F32.div (F32.ofU32 200) 0x49742400)) 0x41700000 := by
  decide +kernel

/-- PublishedSpeedIsInRange: the shortest and the longest interval. -/
theorem test_meets_publishedSpeed :
    ({ s0 with tsq := [1] } : State).tsq = 1 :: [] ∧ (1 : Tick) ≠ s0.estPrev ∧
    ({ s0 with tsq := [0xFFFFFFFF] } : State).tsq = 0xFFFFFFFF :: [] ∧
    (0xFFFFFFFF : Tick) ≠ s0.estPrev := by decide +kernel

/-- The state of V-INT-1. -/
def sInt : State :=
  { s0 with tqq := [0x3F000000], tick := 50000, intLast := 40000, aspd := 0x447A0001 }

/-- IntStepIntegratesOnce, with the intermediate values of V-INT-1. -/
theorem test_meets_intStep :
    cfgOk sInt.cfg = true ∧ sInt.tqq = 0x3F000000 :: [] ∧
    (10000 : Int) = (sInt.tick.toNat : Int) - (sInt.intLast.toNat : Int) ∧
    ((10000 : Nat) : Int) = (if (10000 : Int) ≤ 0 then 1000
      else if (1000000 : Int) ≤ 10000 then 1000000 else 10000) ∧
    0x3C23D70A = F32.div (F32.ofU32 10000) 0x49742400 ∧
    0x44000000 = F32.div 0x3F000000 sInt.cfg.inertia ∧
    0x42D17085 = F32.mul sInt.aspd 0x3DD67750 ∧
    0x42DBADF6 = F32.add (F32.mul 0x44000000 0x3C23D70A) 0x42D17085 ∧
    (0x42DBADF6 : Num32) = (if F32.gt 0x42DBADF6 sInt.cfg.omegaMax then sInt.cfg.omegaMax
      else if F32.lt 0x42DBADF6 (F32.neg sInt.cfg.omegaMax) then F32.neg sInt.cfg.omegaMax
      else 0x42DBADF6) := by decide +kernel

/-- TimeStepIsClamped: each clause at its bounds (R182). -/
theorem test_meets_timeStep :
    [clampTicks (-1), clampTicks 0, clampTicks 1, clampTicks 999, clampTicks 1000,
      clampTicks 999999, clampTicks 1000000] = [1000, 1000, 1, 999, 1000, 999999, 1000000] := by
  decide +kernel

/-- IntegratorStaysInTheEnvelope: the largest torque and the largest measured speed. -/
theorem test_meets_envelope :
    cfgOk cfg0 = true ∧ ({ s0 with tqq := [0x7F7FFFFF] } : State).tqq = 0x7F7FFFFF :: [] ∧
    F32.isFinite 0x7F7FFFFF = true := by decide +kernel

/-- IllegalConfigurationIsRefused: an infinite and a zero inertia, a NaN and a negative top speed. -/
theorem test_meets_illegalConfiguration :
    ({ s0 with tqq := [0], cfg := ⟨0x7F800000, 0x43C80000, .forward, .released⟩ } : State).tqq
      = 0 :: [] ∧
    F32.isFinite 0x7F800000 = false ∧ F32.le 0 0 = true ∧ F32.isFinite 0x7FC00000 = false ∧
    F32.le 0xBF800000 0 = true := by decide +kernel

/-- OpenParametersAreLegalAndFree: the least and the largest legal value. -/
theorem test_meets_openParameters :
    Config.positiveNum 0 = 0x00000001 ∧ Config.positiveNum 0x7F7FFFFE = 0x7F7FFFFF := by decide

/-- The configuration with the largest OMEGA_MAX, which R8 admits. -/
def cfgTop : Cfg := { cfg0 with omegaMax := 0x7F7FFFFF }

/-- IntStepIntegratesOnce, IntegratorStaysInTheEnvelope and EveryStepKeepsValuesFinite where RPM_MAX
overflows: with the largest OMEGA_MAX and torque, INT.omega is finite and what is put to SCQ is the infinity
of R116, of the speed's sign. With no torque and no speed the step puts +0.0. -/
theorem test_meets_intStep_overflow :
    cfgOk cfgTop = true ∧ State.ValuesFinite { s0 with cfg := cfgTop, tqq := [0x7F7FFFFF] } ∧
    (nextOf (exec .intStep { s0 with cfg := cfgTop, tqq := [0x7F7FFFFF] })).map
      (fun t => (t.intOmega, t.scq)) = some (0x7F7FFFFF, [0x7F800000]) ∧
    (nextOf (exec .intStep { s0 with cfg := cfgTop, tqq := [0xFF7FFFFF] })).map
      (fun t => (t.intOmega, t.scq)) = some (0xFF7FFFFF, [0xFF800000]) ∧
    (nextOf (exec .intStep { s0 with cfg := cfgTop, tqq := [0] })).map (·.scq) = some [0] := by
  decide +kernel

/-- IdleDecisionTable: a pair for each of `gt` and `lt`, with one sign and with two, and an equal
pair. -/
theorem test_meets_idleTable :
    F32.isFinite 0x43FA0000 = true ∧ F32.isFinite 0 = true ∧
    F32.gt 0x43FA0000 0 = true ∧ F32.ge 0x43FA0000 0 = F32.ge 0 0 ∧
    F32.gt 0 0xC0A00000 = true ∧ F32.ge 0 0 ≠ F32.ge 0xC0A00000 0 ∧
    F32.lt 0 0x40A00000 = true ∧ F32.ge 0 0 = F32.ge 0x40A00000 0 ∧
    F32.lt 0xC0A00000 0 = true ∧ F32.ge 0xC0A00000 0 ≠ F32.ge 0 0 ∧
    F32.gt 0x80000000 0 = false ∧ F32.lt 0x80000000 0 = false := by decide +kernel

/-- SmIdleTakesACommand. -/
theorem test_meets_smIdle :
    ({ s0 with scq := [0x43FA0000, 5] } : State).ms = .idle ∧
    ({ s0 with scq := [0x43FA0000, 5] } : State).scq = 0x43FA0000 :: [5] := by decide +kernel

/-- SmAccWaitsForTheBand, SmDecBrakesOrCrosses, CrossStatesReverse. -/
theorem test_meets_polled :
    ({ s0 with ms := .accelerating } : State).ms = .accelerating ∧
    ({ s0 with ms := .decelerating } : State).ms = .decelerating ∧
    ({ s0 with ms := .crossHighToLow } : State).ms = .crossHighToLow ∧
    ({ s0 with ms := .crossLowToHigh } : State).ms = .crossLowToHigh ∧
    s0.pollCnt = 0 := by decide +kernel

/-- TransitionGraphIsClosed, RegistersHaveTheirWriters, CommandSpeedIsNeverNegative: a step that
emits. -/
theorem test_meets_graph :
    ({ s0 with scq := [0x43FA0000] } : State).smEnabled .idle = true ∧
    isAgentStep .smIdle = true ∧
    ((nextOf (exec MotionState.idle.instr { s0 with scq := [0x43FA0000] })).map fun t =>
      (t.drvOut.drop s0.drvOut.length).map fun w => w.extractLsb' 32 8) = some [0x13] := by
  decide +kernel

/-- CrossStatesReverse, its entry: from Decelerating at standstill. HostCommandsAreQueued: a step of the
sequencer outside Idle. -/
theorem test_meets_crossEntry :
    ({ s0 with ms := .decelerating, smCmd := 0xC3480000 } : State).ms ≠ .crossLowToHigh ∧
    ({ s0 with ms := .decelerating, smCmd := 0xC3480000 } : State).ms ≠ .idle ∧
    (nextOf (exec .smDec { s0 with ms := .decelerating, smCmd := 0xC3480000 })).map (·.ms)
      = some .crossLowToHigh ∧
    (nextOf (exec .smDec { s0 with
      ms := .decelerating, smCmd := 0x43480000, aspd := 0xC0A00000,
      drv := ⟨.reverse, .braked, 0⟩ })).map (·.ms) = some .crossHighToLow := by decide +kernel

/-- DeadbandEndsInIdle: the bound of 20.0 in each of the three cases, and a sign mismatch. -/
theorem test_meets_deadband :
    s0.pollCnt = 0 ∧
    F32.le (F32.abs (F32.sub 0x43F00000 0x43FA0000)) 0x41A00000 = true ∧
    F32.ge 0x43FA0000 0 = F32.ge 0x43F00000 0 ∧
    F32.le (F32.abs (F32.sub 0x41200000 0xC1200000)) 0x41A00000 = true ∧
    F32.ge 0xC1200000 0 ≠ F32.ge 0x41200000 0 ∧ F32.lt (F32.abs 0x41200000) 0x41A00000 = true := by
  decide +kernel

/-- OnlyNonFiniteOperandsAreRefused, ValuesAreFiniteAtReset. -/
theorem test_meets_cfgOk : cfgOk s0.cfg = true := by decide +kernel

/-- EstimatorReadsOnlyItsInputs: two states that agree on the inputs and differ elsewhere. -/
theorem test_meets_estimatorInputs :
    ({ s0 with tsq := [5] } : State).tsq = ({ s0 with tsq := [5], tick := 9, tqq := [1] } : State).tsq ∧
    (nextOf (exec .estStep { s0 with tsq := [5] })).isSome = true ∧
    (nextOf (exec .estStep { s0 with tsq := [5], tick := 9, tqq := [1] })).isSome = true := by
  decide +kernel

/-- SequencerReadsOnlyItsInputs. -/
theorem test_meets_sequencerInputs :
    ({ s0 with scq := [5] } : State).scq = ({ s0 with scq := [5], tick := 9, tsq := [1] } : State).scq ∧
    (nextOf (exec s0.ms.instr { s0 with scq := [5] })).isSome = true ∧
    (nextOf (exec s0.ms.instr { s0 with scq := [5], tick := 9, tsq := [1] })).isSome = true := by
  decide +kernel

/-- IntegratorReadsOnlyItsInputs: the states differ in INT.omega, MS and SCQ, full in one of them; and two
that wait. -/
theorem test_meets_integratorInputs :
    sInt.tqq = ({ sInt with intOmega := 7, ms := .decelerating, scq := [1, 2] } : State).tqq ∧
    (nextOf (exec .intStep sInt)).isSome = true ∧
    (nextOf (exec .intStep { sInt with intOmega := 7, ms := .decelerating, scq := [1, 2] })).isSome =
      true ∧
    s0.tqq = ({ s0 with scq := [1] } : State).tqq ∧
    (nextOf (exec .intStep s0)).isSome = true ∧
    (nextOf (exec .intStep { s0 with scq := [1] })).isSome = true := by
  decide +kernel

/-- EveryStepKeepsTheBounds, StatusOutputsShowTheState: every queue full, the poll timer loaded. -/
theorem test_meets_bounds :
    ({ s0 with tsq := [1, 2, 3, 4], tqq := [1, 2], scq := [1, 2], pollCnt := 10000 } : State).Sized ∧
    (nextOf (step { s0 with
      tsq := [1, 2, 3, 4], tqq := [1, 2], scq := [1, 2], pollCnt := 10000 })).isSome = true := by
  decide +kernel

/-- EveryStepKeepsValuesFinite. -/
theorem test_meets_valuesFinite :
    cfgOk sInt.cfg = true ∧ sInt.AgentScript ∧ sInt.ValuesFinite ∧
    (nextOf (step sInt)).isSome = true := by decide +kernel

/-- EveryStepKeepsWordsPaired: after COMMAND_SPEED 0.0 and BRAKE, in Decelerating. -/
theorem test_meets_paired :
    State.BrakePaired { s0 with
      ms := .decelerating, drv := ⟨.forward, .braked, 0⟩, drvOut := [0x1300000000, 0x1100000000] } ∧
    State.RunningScript s0 ∧
    (nextOf (step { s0 with
      ms := .decelerating, drv := ⟨.forward, .braked, 0⟩,
      drvOut := [0x1300000000, 0x1100000000] })).isSome = true :=
  ⟨⟨Paired.brake Paired.start, fun _ => rfl⟩, by decide +kernel, by decide +kernel⟩

/-- DecodeOfEncode, EncodeOfDecode. -/
theorem test_meets_encoding :
    (Instr.commandSpeed 0x7F800000).wellFormed = true ∧
    decodeHcmd 0x017F7FFFFF = .ok (.putTorque 0x7F7FFFFF) ∧
    decodeDrvCmd 0x1000000001 = .ok (.setDirection .reverse) ∧
    decodeId 0x10 .tsq 1 = .ok (.setDirection .reverse) := by decide

/-- StepRunsTheDecodedInstruction, IdleScheduleFollowsPriority. -/
theorem test_meets_step :
    ({ s0 with script := [.hcmd 0x0243FA0000] } : State).script = .hcmd 0x0243FA0000 :: [] ∧
    decode (.hcmd 0x0243FA0000) = some (.ok (.putSpeed 0x43FA0000)) ∧
    ({ s0 with script := [.stepSM] } : State).script = .stepSM :: [] ∧
    s0.rstLow = false ∧ s0.script = [] := by decide +kernel

/-- ComparisonsAreATotalOrder: a NaN, and a chain from one infinity to the other. -/
theorem test_meets_comparisons :
    F32.isNaN 0x7FC00000 = true ∧ F32.le 0xFF800000 0x80000000 = true ∧
    F32.le 0x80000000 0x7F800000 = true ∧ F32.isNaN 0x7F800000 = false := by decide

/-- RegistersHaveTheirWriters: the driver's brake and speed change. -/
theorem test_meets_driverWriters :
    (nextOf (exec .smIdle { s0 with scq := [0xC3FA0000], drv := ⟨.forward, .released, 7⟩ })).map
      (fun t => (t.drv.brk, t.drv.spd)) = some (.braked, 0) := by decide +kernel

/-- SettleTerminates: a state that is not quiet and one that is. -/
theorem test_meets_settle :
    cfgOk s0.cfg = true ∧ ({ s0 with script := [.settle] } : State).script = .settle :: [] ∧
    ({ s0 with tsq := [1], script := [.settle] } : State).quiet = false ∧
    ({ s0 with script := [.settle] } : State).quiet = true := by decide +kernel

/-- RoundingIsToNearestEven: a tie, 2^24 + 1 units. -/
theorem test_meets_rounding :
    0 < 1 ∧ 0x01000001 < F32.infMag ∧ F32.round 16777217 1 < F32.infMag ∧
    F32.units (F32.round 16777217 1) = 16777216 := by decide +kernel

/-- OverflowGivesInfinity: the threshold and the integer below it. -/
theorem test_meets_overflow :
    F32.round ((2 ^ 25 - 1) * 2 ^ 252) 1 = F32.infMag ∧
    F32.round ((2 ^ 25 - 1) * 2 ^ 252 - 1) 1 = 0x7F7FFFFF := by decide +kernel

/-- OperationsAreMonotone, OperationsAreSignSymmetric, ComparisonsAreATotalOrder. -/
theorem test_meets_order :
    F32.isFinite 0xFF7FFFFF = true ∧ F32.isFinite 0x00000001 = true ∧
    F32.le 0xFF7FFFFF 0x00000001 = true ∧ F32.gt 0x00000001 0 = true ∧
    F32.value 0xFF7FFFFF + F32.value 0x00000001 ≠ 0 ∧
    F32.isNaN 0x7F800000 = false ∧ F32.isNaN 0xFF800000 = false := by decide +kernel

/-- ExactResultsAreReturned: 1 + 1 = 2, 1 − 1 = 0, 1 · 2 = 2, 2 / 1 = 2. -/
theorem test_meets_exact :
    F32.value 0x3F800000 + F32.value 0x3F800000 = F32.value 0x40000000 ∧
    F32.value 0x3F800000 - F32.value 0x3F800000 = F32.value 0 ∧
    F32.value 0x3F800000 * F32.value 0x40000000 = F32.value 0x40000000 * 2 ^ 149 ∧
    F32.value 0x3F800000 ≠ 0 ∧
    F32.value 0x40000000 * 2 ^ 149 = F32.value 0x40000000 * F32.value 0x3F800000 := by
  decide +kernel

/-- TickConversionIsSound at its bounds, and ClampIsWithinBounds on an infinity. -/
theorem test_meets_conversion :
    F32.ofU32 (2 ^ 24) = 0x4B800000 ∧ F32.ofU32 1 = 0x3F800000 ∧
    F32.isNaN 0x7F800000 = false ∧ F32.isFinite 0x43C80000 = true ∧ F32.gt 0x43C80000 0 = true ∧
    fclamp Numerics.f32 0x7F800000 0xC3C80000 0x43C80000 = 0x43C80000 := by decide +kernel

end Sys2Proof.Tests
end

section
/-! PROOFS. The scope and the configuration (00_scope.md R7, R8, R12): which Nums R8 admits, what
INT_STEP answers under a configuration it does not admit, and which operations wait. -/

namespace Sys2Proof.Machine

/-! ### The Nums that R8 admits -/

theorem F32.not_gt_of_le {x y : Num32} (hle : F32.le x y = true) : F32.gt x y ≠ true := by
  intro hgt
  simp only [F32.le, F32.gt, Bool.and_eq_true, decide_eq_true_eq] at hle hgt
  exact absurd hgt.2 hle.2.not_gt

/-- A Num is above +0.0 exactly if its sign is plus and its magnitude is not zero. -/
theorem F32.zero_lt_key_iff (x : Num32) :
    0 < F32.key x ↔ F32.signBit x = false ∧ 0 < F32.mag x := by
  unfold F32.key
  cases F32.signBit x <;> simp

/-- The finite positive Nums are the bit patterns 1 to 0x7F7FFFFF (40_numerics.md R115). -/
theorem F32.isFinite_and_gt_zero_iff (x : Num32) :
    F32.isFinite x = true ∧ F32.gt x 0 = true ↔ 0 < x.toNat ∧ x.toNat < F32.infMag := by
  have hgt (hf : F32.isFinite x = true) :
      F32.gt x 0 = true ↔ F32.signBit x = false ∧ 0 < F32.mag x :=
    (F32.gt_iff (F32.not_isNaN_of_isFinite hf) rfl).trans (F32.zero_lt_key_iff x)
  rw [and_congr_right hgt, F32.isFinite_iff]
  have hx := F32.toNat_eq x
  simp only [F32.infMag]
  cases hs : F32.signBit x <;> simp [hs] at hx ⊢ <;> omega

theorem Config.positiveNum_toNat (n : Nat) :
    (Config.positiveNum n).toNat = 1 + n % 0x7F7FFFFF := by
  rw [Config.positiveNum, BitVec.toNat_ofNat]
  omega

/-- What some number selects is exactly what R8 admits for J and for OMEGA_MAX (log 8). -/
theorem Config.exists_positiveNum_eq_iff (x : Num32) :
    (∃ n : Nat, Config.positiveNum n = x) ↔ F32.isFinite x = true ∧ F32.gt x 0 = true := by
  rw [F32.isFinite_and_gt_zero_iff, F32.infMag]
  constructor
  · rintro ⟨n, rfl⟩
    rw [Config.positiveNum_toNat]
    omega
  · rintro ⟨hpos, hlt⟩
    refine ⟨x.toNat - 1, BitVec.eq_of_toNat_eq ?_⟩
    rw [Config.positiveNum_toNat]
    omega

theorem cfgOk_built : cfgOk Config.built = true :=
  (cfgOk_iff _).2 ⟨(Config.exists_positiveNum_eq_iff _).1 ⟨_, rfl⟩,
    (Config.exists_positiveNum_eq_iff _).1 ⟨_, rfl⟩⟩

/-- What makes R8 refuse a configuration. -/
theorem cfgOk_eq_false_of_illegal {c : Cfg}
    (h : F32.isFinite c.inertia = false ∨ F32.le c.inertia 0 = true ∨
      F32.isFinite c.omegaMax = false ∨ F32.le c.omegaMax 0 = true) : cfgOk c = false := by
  rw [Bool.eq_false_iff, ne_eq, cfgOk_iff]
  rintro ⟨⟨hJ, hJ0⟩, hW, hW0⟩
  rcases h with h | h | h | h
  · exact Bool.eq_false_iff.1 h hJ
  · exact F32.not_gt_of_le h hJ0
  · exact Bool.eq_false_iff.1 h hW
  · exact F32.not_gt_of_le h hW0

/-! ### Waiting -/

/-- SM_IDLE has no step outside Idle or with SCQ empty (45_state_machine.md R190). -/
theorem exec_smIdle_waits {s : State} (h : s.ms ≠ .idle ∨ s.scq = []) :
    exec .smIdle s = .next s := by
  apply exec_smIdle_blocked
  rw [Bool.eq_false_iff, ne_eq, s.smEnabled_idle_iff]
  tauto

/-- A polled operation has no step in another state or before its poll is due (R200). -/
theorem exec_polled_waits {s : State} {m : MotionState} (hm : m ≠ .idle)
    (h : s.ms ≠ m ∨ s.pollCnt ≠ 0) : exec m.instr s = .next s := by
  apply exec_polled_blocked
  rw [Bool.eq_false_iff, ne_eq, s.smEnabled_polled_iff hm]
  tauto

/-! ### The obligations -/

/-- Settles O25: an illegal parameter fails the check of R8, and INT_STEP with a torque waiting
refuses what fails it. -/
theorem illegalConfigurationIsRefused : Obligations.IllegalConfigurationIsRefused :=
  fun _ _ _ htqq hillegal => exec_intStep_refused htqq (cfgOk_eq_false_of_illegal hillegal)

/-- Settles O26: the bit patterns that a number selects are those of the finite positive Nums. -/
theorem openParametersAreLegalAndFree : Obligations.OpenParametersAreLegalAndFree :=
  ⟨cfgOk_built, rfl, rfl, Config.exists_positiveNum_eq_iff⟩

/-- Settles O12: each operation is not enabled under its premise, and so it waits. -/
theorem blockedAgentsWait : Obligations.BlockedAgentsWait :=
  ⟨fun _ _ => exec_qGet_blocked, fun _ => exec_estStep_blocked, fun _ => exec_intStep_blocked,
    fun _ => exec_smIdle_waits,
    fun _ => exec_polled_waits (m := .accelerating) (by decide),
    fun _ => exec_polled_waits (m := .decelerating) (by decide),
    fun _ => exec_polled_waits (m := .crossHighToLow) (by decide),
    fun _ => exec_polled_waits (m := .crossLowToHigh) (by decide)⟩

end Sys2Proof.Machine
end

section
/-! PROOFS. The bounds of 10_state.md R39 on the queues and on POLL_CNT: each update of the state
keeps them, so every operation and every step does; and the count outputs of R29 are wide enough for
them. The edge event of R36. -/

namespace Sys2Proof.Machine

/-! ### The updates that keep the bounds -/

theorem State.Sized.put {s : State} (hs : s.Sized) (q : QueueId) (v : Entry) :
    (s.put q v).Sized := by
  obtain ⟨htsq, htqq, hscq, hpoll⟩ := hs
  cases q with
  | tsq => exact ⟨length_queuePut_le (by decide) htsq v, htqq, hscq, hpoll⟩
  | tqq => exact ⟨htsq, length_queuePut_le (by decide) htqq v, hscq, hpoll⟩
  | scq => exact ⟨htsq, htqq, length_queuePut_le (by decide) hscq v, hpoll⟩

/-- What a queue holds after a get is shorter than what it held. -/
theorem length_le_of_eq_cons {ε : Type} {l rest : List ε} {v : ε} {cap : Nat} (hl : l.length ≤ cap)
    (h : l = v :: rest) : rest.length ≤ cap := by
  subst h
  exact (Nat.le_succ _).trans hl

theorem State.Sized.setItems_rest {s : State} (hs : s.Sized) {q : QueueId} {v : Entry}
    {rest : List Entry} (h : s.items q = v :: rest) : (s.setItems q rest).Sized := by
  obtain ⟨htsq, htqq, hscq, hpoll⟩ := hs
  cases q with
  | tsq => exact ⟨length_le_of_eq_cons htsq h, htqq, hscq, hpoll⟩
  | tqq => exact ⟨htsq, length_le_of_eq_cons htqq h, hscq, hpoll⟩
  | scq => exact ⟨htsq, htqq, length_le_of_eq_cons hscq h, hpoll⟩

theorem State.Sized.advanceTick {s : State} (hs : s.Sized) : s.advanceTick.Sized := by
  obtain ⟨htsq, htqq, hscq, hpoll⟩ := hs
  refine ⟨htsq, htqq, hscq, ?_⟩
  rw [s.advanceTick_toNat.2]
  exact (Nat.sub_le _ _).trans hpoll

/-- A sequencer evaluation leaves POLL_CNT or loads it with POLL_TICKS (45_state_machine.md
R200). -/
theorem State.Sized.sequence {s : State} (hs : s.Sized) (m : MotionState) (c : Num32) :
    (sequence m c s).Sized := by
  obtain ⟨htsq, htqq, hscq, hpoll⟩ := hs
  rw [sequence_eq]
  refine ⟨htsq, htqq, hscq, ?_⟩
  dsimp only
  split
  · exact hpoll
  · decide

theorem State.sized_resetBlock (s : State) : s.resetBlock.Sized := by
  simp [State.Sized]

/-! ### The operations -/

theorem sized_of_exec_estStep {s t : State} (hs : s.Sized) (h : exec .estStep s = .next t) :
    t.Sized := by
  rcases exec_estStep_cases h with ⟨_, rfl⟩ | ⟨cur, rest, hq, rfl⟩
  · exact hs
  · exact hs.setItems_rest (q := .tsq) hq

theorem sized_of_exec_intStep {s t : State} (hs : s.Sized) (h : exec .intStep s = .next t) :
    t.Sized := by
  rcases exec_intStep_cases h with ⟨_, rfl⟩ | ⟨tq, rest, hq, _, rfl⟩
  · exact hs
  · exact (hs.setItems_rest (q := .tqq) hq).put .scq _

theorem sized_of_exec_sm {m : MotionState} {s t : State} (hs : s.Sized)
    (h : exec m.instr s = .next t) : t.Sized := by
  rcases exec_sm_cases h with ⟨_, rfl⟩ | ⟨c, rest, _, _, hq, rfl⟩ | ⟨_, _, _, rfl⟩
  · exact hs
  · refine State.Sized.sequence (s := { s with scq := rest, smCmd := c }) ?_ _ _
    exact hs.setItems_rest (q := .scq) hq
  · exact hs.sequence m _

theorem sized_of_exec_qGet {q : QueueId} {s t : State} (hs : s.Sized)
    (h : exec (.qGet q) s = .next t) : t.Sized := by
  rcases exec_qGet_cases h with ⟨_, rfl⟩ | ⟨v, rest, hq, rfl⟩
  · exact hs
  · exact hs.setItems_rest hq

/-- Every operation keeps the bounds of R39. -/
theorem sized_of_exec {i : Instr} {s t : State} (hs : s.Sized) (h : exec i s = .next t) :
    t.Sized := by
  cases i with
  | reset => cases h; exact s.sized_resetBlock
  | putTorque v =>
    obtain ⟨_, rfl⟩ := exec_putTorque_cases h
    exact hs.put .tqq v
  | putSpeed v =>
    obtain ⟨_, rfl⟩ := exec_putSpeed_cases h
    exact hs.put .scq v
  | tickAdv => cases h; exact hs.advanceTick
  | ecCapture => cases h; exact hs.put .tsq s.tick
  | estStep => exact sized_of_exec_estStep hs h
  | intStep => exact sized_of_exec_intStep hs h
  | smIdle => exact sized_of_exec_sm (m := .idle) hs h
  | smAcc => exact sized_of_exec_sm (m := .accelerating) hs h
  | smDec => exact sized_of_exec_sm (m := .decelerating) hs h
  | smXhl => exact sized_of_exec_sm (m := .crossHighToLow) hs h
  | smXlh => exact sized_of_exec_sm (m := .crossLowToHigh) hs h
  | qPut q v => cases h; exact hs.put q v
  | qGet q => exact sized_of_exec_qGet hs h
  | setDirection | brake | unbrake | commandSpeed | getDirection | shPut | shGet =>
    cases h; exact hs

/-! ### The obligations -/

/-- Settles O40: the bounds look at no script, no pin and no SENSE_Q, and every operation keeps
them. -/
theorem everyStepKeepsTheBounds : Obligations.EveryStepKeepsTheBounds := fun _ _ =>
  step_keeps (P := State.Sized) (fun _ _ => id) (fun _ _ => id) (fun _ _ => id)
    (fun _ _ _ => sized_of_exec)

theorem State.sized_coldStart (c : Cfg) : (State.coldStart c).Sized := by
  simp [State.Sized, State.coldStart, Block.coldStart]

/-- Settles O41: the queues are empty and POLL_CNT is 0 in `S0` of every configuration. -/
theorem boundsHoldAtReset : Obligations.BoundsHoldAtReset :=
  ⟨State.sized_coldStart, State.sized_coldStart _⟩

/-- Settles O52: a count within its capacity is below the modulus of its output. -/
theorem statusOutputsShowTheState : Obligations.StatusOutputsShowTheState := by
  rintro s ⟨htsq, htqq, hscq, -⟩
  rw [Config.tsqCap] at htsq
  rw [Config.cmdqCap] at htqq hscq
  refine ⟨MotionState.ofCode_code s.ms, rfl, rfl, ?_, ?_, ?_⟩ <;>
    exact (BitVec.toNat_ofNat _ _).trans (Nat.mod_eq_of_lt (by omega))

/-- Settles O17: the frame of a sample fires EC_CAPTURE on a 1 after a 0 and otherwise nothing. -/
theorem onlyARisingSampleIsAnEdge : Obligations.OnlyARisingSampleIsAnEdge := by
  intro s level rest hr hscript
  have hfetch : fetch s = fetchSense level (s.withScript rest) := fetch_cons hr hscript
  split_ifs with hedge
  · obtain ⟨rfl, hq⟩ := hedge
    exact step_run (hfetch.trans (by simp [fetchSense, hq, State.withScript]))
  · refine step_pass (hfetch.trans ?_)
    have hno : (level && !s.senseQ) = false := by simpa using hedge
    simp [fetchSense, hno, State.withScript]

end Sys2Proof.Machine
end

section
/-! PROOFS. Who writes each register (10_state.md R20 and R30, 60_exceptions.md R252): what every
operation leaves as it was. -/

namespace Sys2Proof.Machine

/-- What differs between the two states is what this operation writes, out of the first state: the
statement for one run of one operation, so that the operations are settled apart. -/
def WritesOnlyItsOwn (i : Instr) (s t : State) : Prop :=
  (t.tick ≠ s.tick → i = .tickAdv ∨ i = .reset) ∧
  (t.tsq ≠ s.tsq → i = .ecCapture ∨ i = .estStep ∨ i = .reset ∨ i = .qGet .tsq ∨
    ∃ v, i = .qPut .tsq v) ∧
  (t.tqq ≠ s.tqq → i = .intStep ∨ i = .reset ∨ i = .qGet .tqq ∨ (∃ v, i = .putTorque v) ∨
    ∃ v, i = .qPut .tqq v) ∧
  (t.scq ≠ s.scq → i = .intStep ∨ i = .smIdle ∨ i = .reset ∨ i = .qGet .scq ∨
    (∃ v, i = .putSpeed v) ∨ ∃ v, i = .qPut .scq v) ∧
  (t.aspd ≠ s.aspd → i = .estStep ∨ i = .reset ∨ ∃ v, i = .shPut v) ∧
  (t.estPrev ≠ s.estPrev → i = .estStep ∨ i = .reset) ∧
  (t.intLast ≠ s.intLast → i = .intStep ∨ i = .reset) ∧
  (t.intOmega ≠ s.intOmega → i = .intStep ∨ i = .reset) ∧
  (t.ms ≠ s.ms → i = .reset ∨ i = s.ms.instr) ∧
  (t.smCmd ≠ s.smCmd → i = .smIdle ∨ i = .reset) ∧
  (t.pollCnt ≠ s.pollCnt → i = .tickAdv ∨ i = .reset ∨ i = s.ms.instr) ∧
  (t.senseQ ≠ s.senseQ → i = .reset) ∧
  (t.drv.pol ≠ s.drv.pol → i = .smXhl ∨ i = .smXlh ∨ ∃ p, i = .setDirection p) ∧
  (t.drv.brk ≠ s.drv.brk → i = .smIdle ∨ i = .smDec ∨ i = .smXhl ∨ i = .smXlh ∨ i = .brake ∨
    i = .unbrake) ∧
  (t.drv.spd ≠ s.drv.spd → i = .smIdle ∨ i = .smDec ∨ i = .smXhl ∨ i = .smXlh ∨
    ∃ m, i = .commandSpeed m) ∧
  (t.drvOut ≠ s.drvOut → i = s.ms.instr ∨ i = .brake ∨ i = .unbrake ∨
    (∃ p, i = .setDirection p) ∨ ∃ m, i = .commandSpeed m) ∧
  t.cfg = s.cfg ∧ t.script = s.script ∧ t.rstLow = s.rstLow

/-- An operation that waits writes nothing. -/
theorem writesOnlyItsOwn_refl (i : Instr) (s : State) : WritesOnlyItsOwn i s s := by
  simp [WritesOnlyItsOwn]

/-! ### The words of the sequencer -/

/-- Accelerating sends no word (45_state_machine.md R193). -/
theorem smNext_accelerating_words {α : Type} (N : Numerics α) (c a : α) (d : Polarity) :
    (smNext N .accelerating c a d).2 = [] := by
  rw [smNext]; split <;> rfl

/-- Only the cross states set the polarity (R196 to R199). -/
theorem smNext_keeps_pol {α : Type} (N : Numerics α) {m : MotionState} (hh : m ≠ .crossHighToLow)
    (hl : m ≠ .crossLowToHigh) (c a : α) (d : Polarity) (v : Drv α) :
    ((smNext N m c a d).2.foldl Drv.obey v).pol = v.pol := by
  cases m with
  | idle => rw [smNext]; split_ifs <;> rfl
  | accelerating => rw [smNext_accelerating_words]; rfl
  | decelerating => rw [smNext]; split_ifs <;> rfl
  | crossHighToLow => exact absurd rfl hh
  | crossLowToHigh => exact absurd rfl hl

/-! ### The operations that can wait -/

theorem writesOnlyItsOwn_estStep {s t : State} (h : exec .estStep s = .next t) :
    WritesOnlyItsOwn .estStep s t := by
  rcases exec_estStep_cases h with ⟨_, rfl⟩ | ⟨cur, rest, _, rfl⟩
  · exact writesOnlyItsOwn_refl _ _
  · simp [WritesOnlyItsOwn]

theorem writesOnlyItsOwn_intStep {s t : State} (h : exec .intStep s = .next t) :
    WritesOnlyItsOwn .intStep s t := by
  rcases exec_intStep_cases h with ⟨_, rfl⟩ | ⟨tq, rest, _, _, rfl⟩
  · exact writesOnlyItsOwn_refl _ _
  · simp [WritesOnlyItsOwn]

/-- A polled evaluation, of the state that MS selects. -/
theorem writesOnlyItsOwn_sequence {s : State} (hm : s.ms ≠ .idle) (c : Num32) :
    WritesOnlyItsOwn s.ms.instr s (sequence s.ms c s) := by
  rw [sequence_eq]
  cases hms : s.ms with
  | idle => exact absurd hms hm
  | accelerating => simp [WritesOnlyItsOwn, hms, smNext_accelerating_words]
  | decelerating => simp [WritesOnlyItsOwn, hms, MotionState.instr, smNext_keeps_pol]
  | crossHighToLow => simp [WritesOnlyItsOwn, hms, MotionState.instr]
  | crossLowToHigh => simp [WritesOnlyItsOwn, hms, MotionState.instr]

theorem writesOnlyItsOwn_sm {m : MotionState} {s t : State} (h : exec m.instr s = .next t) :
    WritesOnlyItsOwn m.instr s t := by
  rcases exec_sm_cases h with ⟨_, rfl⟩ | ⟨c, rest, rfl, hms, _, rfl⟩ | ⟨hm, rfl, _, rfl⟩
  · exact writesOnlyItsOwn_refl _ _
  · rw [sequence_eq]
    simp [WritesOnlyItsOwn, hms, MotionState.instr, smNext_keeps_pol]
  · exact writesOnlyItsOwn_sequence hm _

theorem writesOnlyItsOwn_qGet {q : QueueId} {s t : State} (h : exec (.qGet q) s = .next t) :
    WritesOnlyItsOwn (.qGet q) s t := by
  rcases exec_qGet_cases h with ⟨_, rfl⟩ | ⟨v, rest, _, rfl⟩
  · exact writesOnlyItsOwn_refl _ _
  · cases q <;> simp [WritesOnlyItsOwn]

/-! ### The obligation -/

/-- Settles O35, operation by operation. -/
theorem registersHaveTheirWriters : Obligations.RegistersHaveTheirWriters := by
  intro i s t h
  change WritesOnlyItsOwn i s t
  cases i with
  | reset => cases h; simp [WritesOnlyItsOwn]
  | putTorque v => obtain ⟨_, rfl⟩ := exec_putTorque_cases h; simp [WritesOnlyItsOwn]
  | putSpeed v => obtain ⟨_, rfl⟩ := exec_putSpeed_cases h; simp [WritesOnlyItsOwn]
  | setDirection p => rw [exec_setDirection] at h; cases h; simp [WritesOnlyItsOwn, Drv.obey]
  | brake => rw [exec_brake] at h; cases h; simp [WritesOnlyItsOwn, Drv.obey]
  | unbrake => rw [exec_unbrake] at h; cases h; simp [WritesOnlyItsOwn, Drv.obey]
  | commandSpeed m => rw [exec_commandSpeed] at h; cases h; simp [WritesOnlyItsOwn, Drv.obey]
  | getDirection => cases h; exact writesOnlyItsOwn_refl _ _
  | tickAdv => cases h; simp [WritesOnlyItsOwn]
  | ecCapture => cases h; simp [WritesOnlyItsOwn]
  | estStep => exact writesOnlyItsOwn_estStep h
  | intStep => exact writesOnlyItsOwn_intStep h
  | smIdle => exact writesOnlyItsOwn_sm (m := .idle) h
  | smAcc => exact writesOnlyItsOwn_sm (m := .accelerating) h
  | smDec => exact writesOnlyItsOwn_sm (m := .decelerating) h
  | smXhl => exact writesOnlyItsOwn_sm (m := .crossHighToLow) h
  | smXlh => exact writesOnlyItsOwn_sm (m := .crossLowToHigh) h
  | qPut q v => cases h; cases q <;> simp [WritesOnlyItsOwn]
  | qGet q => exact writesOnlyItsOwn_qGet h
  | shPut v => cases h; simp [WritesOnlyItsOwn]
  | shGet => cases h; exact writesOnlyItsOwn_refl _ _

end Sys2Proof.Machine
end

section
/-! PROOFS. The magnitudes that the operations of 40_numerics.md R116 give: which results are no NaN
and which are finite, at the steps of the estimator and of the integrator (R128). -/

namespace Sys2Proof.Machine

/-! ### Results of the operations -/

theorem F32.mag_mul_of_finite {x y : Num32} (hx : F32.isFinite x = true)
    (hy : F32.isFinite y = true) :
    F32.mag (F32.mul x y) =
      F32.round (F32.units (F32.mag x) * F32.units (F32.mag y)) (2 ^ 149) := by
  rw [F32.mul_of_finite hx hy, F32.mag_pack _ (F32.round_lt_pow _ _)]

theorem F32.mag_div_of_finite {x y : Num32} (hx : F32.isFinite x = true)
    (hy : F32.isFinite y = true) (h0 : F32.mag y ≠ 0) :
    F32.mag (F32.div x y) =
      F32.round (F32.units (F32.mag x) * 2 ^ 149) (F32.units (F32.mag y)) := by
  rw [F32.div_of_finite hx hy h0, F32.mag_pack _ (F32.round_lt_pow _ _)]

/-- A product is monotone in the magnitude of one factor (R131 NP3). -/
theorem F32.mag_mul_mono {x x' y : Num32} (hx : F32.isFinite x = true)
    (hx' : F32.isFinite x' = true) (hy : F32.isFinite y = true) (h : F32.mag x ≤ F32.mag x') :
    F32.mag (F32.mul x y) ≤ F32.mag (F32.mul x' y) := by
  rw [F32.mag_mul_of_finite hx hy, F32.mag_mul_of_finite hx' hy]
  have hu : F32.units (F32.mag x) ≤ F32.units (F32.mag x') := F32.units_le_iff.2 h
  exact F32.round_mono (by positivity) (by positivity)
    (Nat.mul_le_mul_right _ (Nat.mul_le_mul_right _ hu))

theorem F32.isNaN_of_mag_le {x : Num32} (h : F32.mag x ≤ F32.infMag) : F32.isNaN x = false := by
  simpa [F32.isNaN] using h

theorem F32.isNaN_pack {m : Nat} (neg : Bool) (h : m ≤ F32.infMag) :
    F32.isNaN (F32.pack neg m) = false :=
  F32.isNaN_of_mag_le ((F32.mag_pack neg (h.trans_lt (by decide))).trans_le h)

/-- What is neither a NaN nor an infinity is finite. -/
theorem F32.isFinite_of_not_isInf {x : Num32} (hx : F32.isNaN x = false)
    (hi : F32.isInf x = false) : F32.isFinite x = true := by
  simp only [F32.isNaN, F32.isInf, decide_eq_false_iff_not] at hx hi
  rw [F32.isFinite_iff]
  omega

/-- A sum with a finite Num is a NaN only if the other operand is one. -/
theorem F32.isNaN_add {x y : Num32} (hx : F32.isNaN x = false) (hy : F32.isFinite y = true) :
    F32.isNaN (F32.add x y) = false := by
  by_cases hi : F32.isInf x = true
  · simp [F32.add, hx, hi, F32.not_isNaN_of_isFinite hy, F32.not_isInf_of_isFinite hy]
  · rw [F32.add_of_finite (F32.isFinite_of_not_isInf hx (by simpa using hi)) hy, F32.addFinite]
    split
    · exact F32.isNaN_pack _ (Nat.zero_le _)
    · exact F32.isNaN_pack _ (F32.round_le _ _)

/-- A product with a finite Num that is no zero is a NaN only if the other factor is one. -/
theorem F32.isNaN_mul {x y : Num32} (hx : F32.isNaN x = false) (hy : F32.isFinite y = true)
    (hy0 : F32.mag y ≠ 0) : F32.isNaN (F32.mul x y) = false := by
  by_cases hi : F32.isInf x = true
  · have hx0 : F32.mag x ≠ 0 := by
      rw [F32.isInf, decide_eq_true_eq] at hi
      rw [hi]; decide
    simpa [F32.mul, hx, hi, F32.not_isNaN_of_isFinite hy, hx0, hy0] using F32.isNaN_pack _ le_rfl
  · rw [F32.mul_of_finite (F32.isFinite_of_not_isInf hx (by simpa using hi)) hy]
    exact F32.isNaN_pack _ (F32.round_le _ _)

theorem F32.isNaN_div {x y : Num32} (hx : F32.isFinite x = true) (hy : F32.isFinite y = true)
    (hy0 : F32.mag y ≠ 0) : F32.isNaN (F32.div x y) = false := by
  rw [F32.div_of_finite hx hy hy0]
  exact F32.isNaN_pack _ (F32.round_le _ _)

/-- A factor of at most 1.0 in magnitude does not raise the other's. -/
theorem F32.mag_mul_le_left {x y : Num32} (hx : F32.isFinite x = true) (hy : F32.isFinite y = true)
    (h1 : F32.units (F32.mag y) ≤ 2 ^ 149) : F32.mag (F32.mul x y) ≤ F32.mag x := by
  rw [F32.mag_mul_of_finite hx hy]
  exact F32.round_le_of_le (by positivity) (Nat.mul_le_mul_left _ h1)
    ((F32.isFinite_iff x).1 hx).le

/-! ### Magnitudes below a limit -/

theorem F32.key_le_mag (x : Num32) : F32.key x ≤ F32.mag x := by
  unfold F32.key; split <;> omega

theorem F32.key_abs_eq_mag (x : Num32) : F32.key (F32.abs x) = F32.mag x := by
  simp [F32.key]

theorem withinMagnitude_iff {x limit : Num32} (hx : F32.isNaN x = false)
    (hl : F32.isNaN limit = false) : WithinMagnitude x limit ↔ |F32.key x| ≤ F32.key limit := by
  rw [WithinMagnitude, F32.le_iff (by simpa using hx) hl, F32.key_abs]

theorem WithinMagnitude.mag_le {x limit : Num32} (h : WithinMagnitude x limit) :
    F32.mag x ≤ F32.mag limit := by
  simp only [WithinMagnitude, F32.le, Bool.and_eq_true, decide_eq_true_eq] at h
  have hle := h.2.trans (F32.key_le_mag limit)
  rw [F32.key_abs_eq_mag] at hle
  exact_mod_cast hle

theorem WithinMagnitude.isFinite {x limit : Num32} (h : WithinMagnitude x limit)
    (hl : F32.isFinite limit = true) : F32.isFinite x = true :=
  (F32.isFinite_iff x).2 (h.mag_le.trans_lt ((F32.isFinite_iff limit).1 hl))

/-- The clamp to `±limit` of what is no NaN is within `limit` (R120, 44_torque_integrator.md R184). -/
theorem withinMagnitude_fclamp {w limit : Num32} (hw : F32.isNaN w = false)
    (hl : F32.isFinite limit = true) (h0 : 0 ≤ F32.key limit) :
    WithinMagnitude (fclamp Numerics.f32 w (F32.neg limit) limit) limit := by
  have hln := F32.not_isNaN_of_isFinite hl
  have hneg : F32.isNaN (F32.neg limit) = false := by simpa using hln
  rw [fclamp_f32]
  split_ifs with hgt hlt
  · rw [withinMagnitude_iff hln hln, abs_of_nonneg h0]
  · rw [withinMagnitude_iff hneg hln, F32.key_neg, abs_neg, abs_of_nonneg h0]
  · rw [F32.gt_iff hw hln, not_lt] at hgt
    rw [F32.lt_iff hw hneg, F32.key_neg, not_lt] at hlt
    rw [withinMagnitude_iff hw hln]
    exact abs_le.2 ⟨hlt, hgt⟩

/-! ### A number of ticks in seconds (R113, R121) -/

/-- `of_u32` of 1 to 2^32 − 1 lies between 1.0 and 2^32. -/
theorem F32.mag_ofU32_bounds {n : Nat} (h1 : 1 ≤ n) (h2 : n < 2 ^ 32) :
    0x3F800000 ≤ F32.mag (F32.ofU32 n) ∧ F32.mag (F32.ofU32 n) ≤ 0x4F800000 := by
  have hlo : F32.units 0x3F800000 = 2 ^ 149 := by decide
  have hhi : F32.units 0x4F800000 = 2 ^ 181 := by decide
  rw [F32.mag_ofU32]
  constructor
  · refine F32.le_round_of_le Nat.one_pos ?_ (by decide)
    rw [hlo]; omega
  · refine F32.round_le_of_le Nat.one_pos ?_ (by decide)
    rw [hhi]; omega

/-- From 1 to 2^32 − 1 ticks are between 2^-20 s and 2^13 s. -/
theorem ticksToSec_bounds {n : Nat} (h1 : 1 ≤ n) (h2 : n < 2 ^ 32) :
    0x35800000 ≤ F32.mag (ticksToSec Numerics.f32 n) ∧
      F32.mag (ticksToSec Numerics.f32 n) ≤ 0x46000000 := by
  obtain ⟨hlo, hhi⟩ := F32.mag_ofU32_bounds h1 h2
  have hfin : F32.isFinite (F32.ofU32 n) = true := (F32.isFinite_iff _).2 (hhi.trans_lt (by decide))
  have hone : F32.units 0x3F800000 = 2 ^ 149 := by decide
  have htop : F32.units 0x4F800000 = 2 ^ 181 := by decide
  have hdiv : F32.units (F32.mag 0x49742400) = 1000000 * 2 ^ 149 := by decide
  have hlo' := F32.units_le_iff.2 hlo
  have hhi' := F32.units_le_iff.2 hhi
  rw [hone] at hlo'
  rw [htop] at hhi'
  rw [ticksToSec_f32, F32.mag_div_of_finite hfin (by decide) (by decide), hdiv]
  constructor
  · refine F32.le_round_of_le (by positivity) ?_ (by decide)
    rw [show F32.units 0x35800000 = 2 ^ 129 by decide]; omega
  · refine F32.round_le_of_le (by positivity) ?_ (by decide)
    rw [show F32.units 0x46000000 = 2 ^ 162 by decide]; omega

theorem isFinite_ticksToSec {n : Nat} (h1 : 1 ≤ n) (h2 : n < 2 ^ 32) :
    F32.isFinite (ticksToSec Numerics.f32 n) = true :=
  (F32.isFinite_iff _).2 ((ticksToSec_bounds h1 h2).2.trans_lt (by decide))

theorem mag_ticksToSec_ne_zero {n : Nat} (h1 : 1 ≤ n) (h2 : n < 2 ^ 32) :
    F32.mag (ticksToSec Numerics.f32 n) ≠ 0 := by
  have := (ticksToSec_bounds h1 h2).1
  omega

/-! ### The speeds of the estimator and of the integrator -/

/-- Of an interval that is not zero the reciprocal is at most 2^20, and 15 times that is finite
(43_speed_estimator.md R170, R173). -/
theorem isFinite_estMagnitude {dt : Nat} (h1 : 1 ≤ dt) (h2 : dt < 2 ^ 32) :
    F32.isFinite (estMagnitude Numerics.f32 dt) = true := by
  have hsec := isFinite_ticksToSec h1 h2
  have hlo := F32.units_le_iff.2 (ticksToSec_bounds h1 h2).1
  rw [show F32.units 0x35800000 = 2 ^ 129 by decide] at hlo
  have hrec : F32.mag (F32.div 0x3F800000 (ticksToSec Numerics.f32 dt)) ≤ 0x49800000 := by
    rw [F32.mag_div_of_finite (by decide) hsec (mag_ticksToSec_ne_zero h1 h2)]
    refine F32.round_le_of_le (by omega) ?_ (by decide)
    rw [show F32.units (F32.mag 0x3F800000) = 2 ^ 149 by decide,
      show F32.units 0x49800000 = 2 ^ 169 by decide]
    omega
  have hmono := F32.mag_mul_mono (x' := 0x49800000) (y := 0x41700000)
    ((F32.isFinite_iff _).2 (hrec.trans_lt (by decide))) (by decide) (by decide) hrec
  rw [estMagnitude_f32, ← ticksToSec_f32, F32.isFinite_iff]
  exact hmono.trans_lt (by decide)

theorem isFinite_estSpeed {dt : Nat} (h1 : 1 ≤ dt) (h2 : dt < 2 ^ 32) (d : Polarity) :
    F32.isFinite (estSpeed Numerics.f32 dt d) = true := by
  rw [estSpeed_f32]
  split
  · exact isFinite_estMagnitude h1 h2
  · rw [F32.isFinite_neg]; exact isFinite_estMagnitude h1 h2

/-- What R8 admits is finite and has a positive order key. -/
theorem cfgOk_keys {c : Cfg} (hc : cfgOk c = true) :
    (F32.isFinite c.inertia = true ∧ 0 < F32.key c.inertia) ∧
      F32.isFinite c.omegaMax = true ∧ 0 < F32.key c.omegaMax := by
  have key_pos {x : Num32} (hf : F32.isFinite x = true) (hx : F32.gt x 0 = true) : 0 < F32.key x :=
    (F32.gt_iff (F32.not_isNaN_of_isFinite hf) rfl).1 hx
  obtain ⟨⟨hJ, hJ0⟩, hW, hW0⟩ := (cfgOk_iff c).1 hc
  exact ⟨⟨hJ, key_pos hJ hJ0⟩, hW, key_pos hW hW0⟩

theorem withinMagnitude_zero {c : Cfg} (hc : cfgOk c = true) : WithinMagnitude 0 c.omegaMax := by
  obtain ⟨-, hW, hW0⟩ := cfgOk_keys hc
  exact (withinMagnitude_iff rfl (F32.not_isNaN_of_isFinite hW)).2 hW0.le

/-- The unclamped speed may overflow but is no NaN: the time step is no zero, and the conversion of a
finite speed to rad/s is finite (R128(b)). -/
theorem isNaN_eulerSpeed {inertia tq a : Num32} {n : Nat} (hJ : F32.isFinite inertia = true)
    (hJ0 : F32.mag inertia ≠ 0) (htq : F32.isFinite tq = true) (ha : F32.isFinite a = true)
    (h1 : 1 ≤ n) (h2 : n < 2 ^ 32) :
    F32.isNaN (eulerSpeed Numerics.f32 inertia tq n a) = false := by
  have hrad : F32.mag (F32.mul a 0x3DD67750) ≤ F32.mag a :=
    F32.mag_mul_le_left ha (by decide) (by decide)
  rw [eulerSpeed_f32, ← ticksToSec_f32]
  refine F32.isNaN_add ?_ ((F32.isFinite_iff _).2 (hrad.trans_lt ((F32.isFinite_iff a).1 ha)))
  exact F32.isNaN_mul (F32.isNaN_div htq hJ hJ0) (isFinite_ticksToSec h1 h2)
    (mag_ticksToSec_ne_zero h1 h2)

/-- INT.omega is written within the envelope (44_torque_integrator.md R184). -/
theorem withinMagnitude_integrated {b : Block Num32} {tq : Num32} (hc : cfgOk b.cfg = true)
    (htq : F32.isFinite tq = true) (ha : F32.isFinite b.aspd = true) :
    WithinMagnitude (b.integrated Numerics.f32 tq) b.cfg.omegaMax := by
  obtain ⟨⟨hJ, hJ0⟩, hW, hW0⟩ := cfgOk_keys hc
  have hJmag : F32.mag b.cfg.inertia ≠ 0 := ((F32.zero_lt_key_iff _).1 hJ0).2.ne'
  rw [Block.integrated_f32]
  refine withinMagnitude_fclamp ?_ hW hW0.le
  exact isNaN_eulerSpeed hJ hJmag htq ha (clampTicks_pos _)
    ((clampTicks_le _).trans_lt (by decide))

/-! ### The speeds in rpm that come from SCQ -/

theorem SpeedStored.of_isFinite {x : Num32} (c : Cfg) (hx : F32.isFinite x = true) :
    SpeedStored c x := ⟨F32.not_isNaN_of_isFinite hx, fun _ => hx⟩

theorem SpeedStored.abs {c : Cfg} {x : Num32} (hx : SpeedStored c x) :
    SpeedStored c (F32.abs x) := by
  simpa [SpeedStored] using hx

/-- A speed within OMEGA_MAX is within RPM_MAX in rpm. -/
theorem speedStored_radToRpm {c : Cfg} {w : Num32} (hW : F32.isFinite c.omegaMax = true)
    (hw : WithinMagnitude w c.omegaMax) : SpeedStored c (radToRpm Numerics.f32 w) := by
  have hfin := hw.isFinite hW
  have hmono : F32.mag (radToRpm Numerics.f32 w) ≤ F32.mag (rpmMax c) := by
    rw [rpmMax, radToRpm_f32, radToRpm_f32]
    exact F32.mag_mul_mono hfin hW (by decide) hw.mag_le
  refine ⟨?_, fun hmax => (F32.isFinite_iff _).2 (hmono.trans_lt ((F32.isFinite_iff _).1 hmax))⟩
  rw [radToRpm_f32]
  exact F32.isNaN_mul (F32.not_isNaN_of_isFinite hfin) (by decide) (by decide)

end Sys2Proof.Machine
end

section
/-! PROOFS. The values stored stay finite (10_state.md R39, 40_numerics.md R128, log 29): the moves
of the agents are the only operations that a script of theirs fires, and each keeps the values. -/

namespace Sys2Proof.Machine

/-! ### What the agents' scripts fire -/

theorem isAgentStep_instr (m : MotionState) : isAgentStep m.instr = true := by cases m <;> rfl

theorem isAgentStep_autoInstr (s : State) : isAgentStep s.autoInstr = true := by
  rcases s.autoInstr_cases with h | h | h | h <;> rw [h]
  · rfl
  · rfl
  · exact isAgentStep_instr _
  · rfl

theorem isAgentStep_of_settleInstr {s : State} {i : Instr} (h : s.settleInstr = some i) :
    isAgentStep i = true := by
  rcases State.settleInstr_cases h with rfl | rfl | rfl <;> rfl

theorem isAgentStep_of_decode {f : Frame} {i : Instr} (hf : agentFrame f = true)
    (h : decode f = some (.ok i)) : isAgentStep i = true := by
  simpa [agentFrame, h] using hf

/-- The frame at the head of an agents' script, and the rest, are the agents' too. -/
theorem State.AgentScript.of_cons {s : State} {f : Frame} {rest : List Frame} (hs : s.AgentScript)
    (h : s.script = f :: rest) : agentFrame f = true ∧ (s.withScript rest).AgentScript := by
  simpa [State.AgentScript, h] using hs

/-- The block's registers are the same in the two states, SENSE_Q apart. -/
def State.SameRegisters (s u : State) : Prop :=
  ∃ b : Bool, u.toBlock = { s.toBlock with senseQ := b }

theorem State.SameRegisters.cfg_eq {s u : State} (h : s.SameRegisters u) : u.cfg = s.cfg := by
  obtain ⟨b, hb⟩ := h
  rw [hb]

theorem fetch_run_agentScript {s u : State} {i : Instr} (hs : s.AgentScript)
    (h : fetch s = .run i u) : isAgentStep i = true ∧ u.AgentScript ∧ s.SameRegisters u := by
  rcases fetch_eq_run h with ⟨_, rfl, ⟨_, rfl⟩ | ⟨f, rest, hc, rfl⟩⟩ | ⟨_, _, rfl, rfl⟩ |
    ⟨_, f, rest, hc, hf⟩
  · exact ⟨rfl, hs, _, rfl⟩
  · exact ⟨rfl, (hs.of_cons hc).2, _, rfl⟩
  · exact ⟨isAgentStep_autoInstr _, hs, _, rfl⟩
  · obtain ⟨hfirst, hrest⟩ := hs.of_cons hc
    rcases fetchFrame_eq_run hf with ⟨hd, rfl⟩ | ⟨_, rfl, rfl⟩ | ⟨_, _, rfl, rfl⟩ | ⟨_, rfl, rfl⟩ |
      ⟨rfl, hi, rfl⟩
    · exact ⟨isAgentStep_of_decode hfirst hd, hrest, _, rfl⟩
    · exact ⟨isAgentStep_instr _, hrest, _, rfl⟩
    · exact ⟨rfl, hrest, _, rfl⟩
    · exact ⟨rfl, hrest, _, rfl⟩
    · exact ⟨isAgentStep_of_settleInstr hi, by simpa [State.AgentScript, hc] using hs, _, rfl⟩

theorem fetch_pass_agentScript {s u : State} (hs : s.AgentScript) (h : fetch s = .pass u) :
    u.AgentScript ∧ s.SameRegisters u := by
  rcases fetch_eq_pass h with ⟨_, rest, hc, rfl⟩ | ⟨_, f, rest, hc, hf⟩
  · exact ⟨(hs.of_cons hc).2, _, rfl⟩
  · have hrest := (hs.of_cons hc).2
    rcases fetchFrame_eq_pass hf with ⟨_, rfl⟩ | ⟨level, _, rfl⟩ | ⟨_, rfl⟩ | ⟨_, _, rfl⟩
    · exact ⟨hrest, _, rfl⟩
    · exact ⟨hrest, _, rfl⟩
    · exact ⟨hrest, _, rfl⟩
    · exact ⟨hrest, _, rfl⟩

/-! ### The updates that keep the values -/

/-- The values of a state are those of its registers. -/
theorem State.ValuesFinite.of_sameRegisters {s u : State} (hs : s.ValuesFinite)
    (h : s.SameRegisters u) : u.ValuesFinite := by
  obtain ⟨b, hb⟩ := h
  rw [State.ValuesFinite, hb]
  exact hs

theorem all_queuePut {ε : Type} {cap : Nat} {p : ε → Bool} {l : List ε} {v : ε}
    (hl : l.all p = true) (hv : p v = true) : (queuePut cap l v).all p = true := by
  rw [List.all_eq_true] at hl ⊢
  intro x hx
  rcases mem_of_mem_queuePut hx with hmem | rfl
  · exact hl x hmem
  · exact hv

/-- RESET clears every value but DRV.spd (70_reset_and_hazards.md R280, R281). -/
theorem State.ValuesFinite.resetBlock {s : State} (hc : cfgOk s.cfg = true) (hs : s.ValuesFinite) :
    s.resetBlock.ValuesFinite := by
  obtain ⟨-, -, -, -, -, -, hspd⟩ := hs
  exact ⟨rfl, rfl, withinMagnitude_zero hc, rfl, rfl, .of_isFinite _ rfl, hspd⟩

/-- The speed last commanded is the one the driver held or one of the words'. -/
theorem spd_foldl_obey {α : Type} {P : α → Prop} {ws : List (DrvWord α)} {v : Drv α} (hv : P v.spd)
    (hw : ∀ m, .commandSpeed m ∈ ws → P m) : P (ws.foldl Drv.obey v).spd := by
  induction ws generalizing v with
  | nil => exact hv
  | cons w ws ih =>
    refine ih ?_ fun m hm => hw m (List.mem_cons_of_mem w hm)
    cases w with
    | commandSpeed m => exact hw m List.mem_cons_self
    | setDirection | brake | unbrake => exact hv

/-- The sequencer commands 0 or the magnitude of the command (45_state_machine.md R203). -/
theorem smNext_commandSpeed {α : Type} (N : Numerics α) {m : MotionState} {c a x : α} {d : Polarity}
    (h : .commandSpeed x ∈ (smNext N m c a d).2) : x = N.zero ∨ x = N.fabs c := by
  cases m with
  | idle => rw [smNext] at h; split_ifs at h <;> simp_all [goAccelerate, goDecelerate]
  | accelerating => simp [smNext_accelerating_words] at h
  | decelerating => rw [smNext] at h; split_ifs at h <;> simp_all
  | crossHighToLow | crossLowToHigh => simp_all [smNext, crossTo]

theorem State.ValuesFinite.sequence {s : State} (hs : s.ValuesFinite) {c : Num32}
    (hc : SpeedStored s.cfg c) (m : MotionState) : (sequence m c s).ValuesFinite := by
  obtain ⟨haspd, homega, henv, htqq, hscq, hcmd, hspd⟩ := hs
  rw [sequence_eq]
  refine ⟨haspd, homega, henv, htqq, hscq, hcmd, spd_foldl_obey hspd fun x hx => ?_⟩
  rcases smNext_commandSpeed _ hx with rfl | rfl
  · exact .of_isFinite _ rfl
  · exact hc.abs

/-! ### The agents' operations -/

theorem valuesFinite_of_exec_putTorque {v : Num32} {s t : State} (hs : s.ValuesFinite)
    (h : exec (.putTorque v) s = .next t) : t.ValuesFinite := by
  obtain ⟨haspd, homega, henv, htqq, hscq, hcmd, hspd⟩ := hs
  obtain ⟨hv, rfl⟩ := exec_putTorque_cases h
  exact ⟨haspd, homega, henv, all_queuePut htqq hv, hscq, hcmd, hspd⟩

theorem valuesFinite_of_exec_putSpeed {v : Num32} {s t : State} (hs : s.ValuesFinite)
    (h : exec (.putSpeed v) s = .next t) : t.ValuesFinite := by
  obtain ⟨haspd, homega, henv, htqq, hscq, hcmd, hspd⟩ := hs
  obtain ⟨hv, rfl⟩ := exec_putSpeed_cases h
  have hstored : SpeedStored s.cfg v := .of_isFinite _ hv
  exact ⟨haspd, homega, henv, htqq, all_queuePut hscq (decide_eq_true hstored), hcmd, hspd⟩

theorem valuesFinite_of_exec_estStep {s t : State} (hs : s.ValuesFinite)
    (h : exec .estStep s = .next t) : t.ValuesFinite := by
  rcases exec_estStep_cases h with ⟨_, rfl⟩ | ⟨cur, rest, _, rfl⟩
  · exact hs
  · obtain ⟨haspd, hothers⟩ := hs
    refine ⟨?_, hothers⟩
    dsimp only
    split_ifs with h0
    · exact haspd
    · exact isFinite_estSpeed (Nat.one_le_iff_ne_zero.2 h0) (mdiff_lt _ _) _

theorem valuesFinite_of_exec_intStep {s t : State} (hs : s.ValuesFinite)
    (h : exec .intStep s = .next t) : t.ValuesFinite := by
  rcases exec_intStep_cases h with ⟨_, rfl⟩ | ⟨tq, rest, hq, hc, rfl⟩
  · exact hs
  · obtain ⟨haspd, -, -, htqq, hscq, hcmd, hspd⟩ := hs
    rw [hq, List.all_cons, Bool.and_eq_true] at htqq
    obtain ⟨htq, hrest⟩ := htqq
    have hW : F32.isFinite s.cfg.omegaMax = true := (cfgOk_keys hc).2.1
    have henv := withinMagnitude_integrated (b := s.toBlock) hc htq haspd
    have hstored := speedStored_radToRpm hW henv
    exact ⟨haspd, henv.isFinite hW, henv, hrest, all_queuePut hscq (decide_eq_true hstored), hcmd,
      hspd⟩

theorem valuesFinite_of_exec_sm {m : MotionState} {s t : State} (hs : s.ValuesFinite)
    (h : exec m.instr s = .next t) : t.ValuesFinite := by
  obtain ⟨haspd, homega, henv, htqq, hscq, hcmd, hspd⟩ := hs
  rcases exec_sm_cases h with ⟨_, rfl⟩ | ⟨c, rest, _, _, hq, rfl⟩ | ⟨_, _, _, rfl⟩
  · exact ⟨haspd, homega, henv, htqq, hscq, hcmd, hspd⟩
  · rw [hq, List.all_cons, Bool.and_eq_true, decide_eq_true_eq] at hscq
    obtain ⟨hc, hrest⟩ := hscq
    have hs' : State.ValuesFinite { s with scq := rest, smCmd := c } :=
      ⟨haspd, homega, henv, htqq, hrest, hc, hspd⟩
    exact hs'.sequence hc .idle
  · exact State.ValuesFinite.sequence ⟨haspd, homega, henv, htqq, hscq, hcmd, hspd⟩ hcmd m

/-- Every operation of an agent keeps the values finite. -/
theorem valuesFinite_of_exec {i : Instr} {s t : State} (hi : isAgentStep i = true)
    (hc : cfgOk s.cfg = true) (hs : s.ValuesFinite) (h : exec i s = .next t) : t.ValuesFinite := by
  cases i with
  | reset => cases h; exact hs.resetBlock hc
  | putTorque v => exact valuesFinite_of_exec_putTorque hs h
  | putSpeed v => exact valuesFinite_of_exec_putSpeed hs h
  | tickAdv | ecCapture => cases h; exact hs
  | estStep => exact valuesFinite_of_exec_estStep hs h
  | intStep => exact valuesFinite_of_exec_intStep hs h
  | smIdle => exact valuesFinite_of_exec_sm (m := .idle) hs h
  | smAcc => exact valuesFinite_of_exec_sm (m := .accelerating) hs h
  | smDec => exact valuesFinite_of_exec_sm (m := .decelerating) hs h
  | smXhl => exact valuesFinite_of_exec_sm (m := .crossHighToLow) hs h
  | smXlh => exact valuesFinite_of_exec_sm (m := .crossLowToHigh) hs h
  | setDirection | brake | unbrake | commandSpeed | getDirection | qPut | qGet | shPut | shGet =>
    cases hi

/-- No operation writes the configuration, the script or the reset pin. -/
theorem exec_keeps_cfg_script_rstLow {i : Instr} {s t : State} (h : exec i s = .next t) :
    t.cfg = s.cfg ∧ t.script = s.script ∧ t.rstLow = s.rstLow := by
  obtain ⟨-, -, -, -, -, -, -, -, -, -, -, -, -, -, -, -, hkept⟩ :=
    registersHaveTheirWriters i s t h
  exact hkept

/-! ### The obligations -/

/-- Settles O42: a script of the agents' moves fires their operations only, in a state with the same
registers, and each operation keeps the values, the configuration and the script. -/
theorem everyStepKeepsValuesFinite : Obligations.EveryStepKeepsValuesFinite := by
  intro s t hc hscript hs h
  rcases step_eq_next_cases h with ⟨i, u, hf, hx⟩ | hf
  · obtain ⟨hi, hu, hsame⟩ := fetch_run_agentScript hscript hf
    have hcu : cfgOk u.cfg = true := by rwa [hsame.cfg_eq]
    obtain ⟨hcfg, hkept, -⟩ := exec_keeps_cfg_script_rstLow hx
    refine ⟨by rwa [hcfg], by rwa [State.AgentScript, hkept], ?_⟩
    exact valuesFinite_of_exec hi hcu (hs.of_sameRegisters hsame) hx
  · obtain ⟨ht, hsame⟩ := fetch_pass_agentScript hscript hf
    exact ⟨by rwa [hsame.cfg_eq], ht, hs.of_sameRegisters hsame⟩

/-- Settles O43: every register that holds a Num holds +0.0 in `S0`, and the queues are empty. -/
theorem valuesAreFiniteAtReset : Obligations.ValuesAreFiniteAtReset := fun c hc =>
  ⟨⟨rfl, rfl, withinMagnitude_zero hc, rfl, rfl, .of_isFinite c rfl, .of_isFinite c rfl⟩,
    rfl, rfl, rfl⟩

end Sys2Proof.Machine
end

section
/-! PROOFS. The order of a put and a get of one queue (20_memory.md R68, 70_reset_and_hazards.md
R313): what each does to the state on a queue with room and on a full one. -/

namespace Sys2Proof.Machine

/-! ### Two updates of one queue -/

@[simp] theorem State.setItems_setItems (s : State) (q : QueueId) (l l' : List Entry) :
    (s.setItems q l).setItems q l' = s.setItems q l' := by cases q <;> rfl

/-- A put into a queue with room appends the value (41_queue_share.md R140). -/
theorem State.put_of_lt {s : State} {q : QueueId} (h : (s.items q).length < queueCap q)
    (v : Entry) : s.put q v = s.setItems q (s.items q ++ [v]) := by
  rw [State.put, queuePut_of_lt h]

/-- A put into a full queue drops the oldest entry and appends the value (R141 (a)). -/
theorem State.put_of_full {s : State} {q : QueueId} {x : Entry} {rest : List Entry}
    (hq : s.items q = x :: rest) (hfull : (s.items q).length = queueCap q) (v : Entry) :
    s.put q v = s.setItems q (rest ++ [v]) := by
  rw [hq] at hfull
  rw [State.put, hq, queuePut_of_full hfull]

/-- After a get of a queue within its capacity there is room, so the put appends. -/
theorem State.put_after_get {s : State} {q : QueueId} {x : Entry} {rest : List Entry}
    (hq : s.items q = x :: rest) (hcap : (s.items q).length ≤ queueCap q) (v : Entry) :
    (s.setItems q rest).put q v = s.setItems q (rest ++ [v]) := by
  have hroom : ((s.setItems q rest).items q).length < queueCap q := by
    rw [hq, List.length_cons] at hcap
    rwa [State.items_setItems_self]
  rw [State.put_of_lt hroom, State.items_setItems_self, State.setItems_setItems]

/-! ### The two orders -/

/-- On a queue with room the put does not touch the oldest entry, which the get still finds. -/
theorem State.get_put_of_lt {s : State} {q : QueueId} {x : Entry} {rest : List Entry}
    (hq : s.items q = x :: rest) (hroom : (s.items q).length < queueCap q) (v : Entry) :
    (s.put q v).get q = some (x, (s.setItems q rest).put q v) := by
  have hitems : (s.put q v).items q = x :: (rest ++ [v]) := by
    rw [State.put_of_lt hroom, State.items_setItems_self, hq, List.cons_append]
  rw [State.get_of_items_eq_cons hitems, State.put_of_lt hroom, State.setItems_setItems,
    State.put_after_get hq hroom.le]

/-- On a full queue the put loses the oldest entry first, so the get finds the second one. -/
theorem State.get_put_of_full {s : State} {q : QueueId} {x y : Entry} {rest : List Entry}
    (hq : s.items q = x :: y :: rest) (hfull : (s.items q).length = queueCap q) (v : Entry) :
    (s.put q v).get q = some (y, s.setItems q (rest ++ [v])) := by
  have hput : s.put q v = s.setItems q (y :: (rest ++ [v])) := State.put_of_full hq hfull v
  rw [hput, State.get_of_items_eq_cons (State.items_setItems_self s q _), State.setItems_setItems]

/-! ### The obligation -/

/-- Settles O10: with room the two orders meet; on a full queue the put loses the oldest entry when
it comes first, and none when it comes after the get. -/
theorem putAndGetCommuteUnlessFull : Obligations.PutAndGetCommuteUnlessFull := by
  intro q s x v rest hq
  refine ⟨fun hroom => State.get_put_of_lt hq hroom v, ?_⟩
  rintro y rest' hfull rfl
  refine ⟨State.get_put_of_full hq hfull v, ?_⟩
  rw [State.put_after_get hq hfull.le, State.items_setItems_self]

end Sys2Proof.Machine
end

section
/-! PROOFS. The encodings read back (30_encoding.md R86 to R90): every well-formed instruction from
its frame, and every word that decodes from the instruction it decodes to. -/

namespace Sys2Proof

open Machine

/-! ### Decoding what was encoded -/

/-- A word that is put together is read on DRV_CMD by its fields. -/
@[simp] theorem decodeDrvCmd_mk (op : OpId) (arg : BitVec 32) :
    decodeDrvCmd (PortWord.mk op arg) = decodeDriver op arg := by
  simp [decodeDrvCmd]

theorem decodeHcmd_putTorque (v : Num32) :
    decodeHcmd (PortWord.mk 0x01 v) = .ok (.putTorque v) := by
  simp [decodeHcmd]

theorem decodeHcmd_putSpeed (v : Num32) : decodeHcmd (PortWord.mk 0x02 v) = .ok (.putSpeed v) := by
  simp [decodeHcmd]

theorem decodeDriver_setDirection (p : Polarity) :
    decodeDriver 0x10 p.arg = .ok (.setDirection p) := by
  simp [decodeDriver]

theorem decodeDriver_commandSpeed {m : Num32} (h : F32.signBit m = false) :
    decodeDriver 0x13 m = .ok (.commandSpeed m) := by
  simp [decodeDriver, h]

/-- A well-formed COMMAND_SPEED carries a magnitude (R99). -/
theorem signBit_of_wellFormed {m : Num32} (h : (Instr.commandSpeed m).wellFormed = true) :
    F32.signBit m = false := by
  rw [Instr.wellFormed, Bool.and_eq_true, Bool.not_eq_true'] at h
  exact h.1

/-- Every well-formed instruction is read back from its id and the operands that accompany it. -/
theorem decode_idFrame {i : Instr} (h : i.wellFormed = true) : decode i.idFrame = some (.ok i) := by
  cases i with
  | setDirection p => exact congrArg some (decodeDriver_setDirection p)
  | commandSpeed m => exact congrArg some (decodeDriver_commandSpeed (signBit_of_wellFormed h))
  | reset | putTorque | putSpeed | brake | unbrake | getDirection | tickAdv | ecCapture | estStep
  | intStep | smIdle | smAcc | smDec | smXhl | smXlh | qPut | qGet | shPut | shGet => rfl

/-- Settles O46: the format W operations by the fields of their port words, the others by their
ids. -/
theorem decodeOfEncode : Obligations.DecodeOfEncode := by
  intro i h
  cases i with
  | putTorque v => exact congrArg some (decodeHcmd_putTorque v)
  | putSpeed v => exact congrArg some (decodeHcmd_putSpeed v)
  | setDirection p =>
    exact congrArg some ((decodeDrvCmd_mk _ _).trans (decodeDriver_setDirection p))
  | brake => exact congrArg some (decodeDrvCmd_mk 0x11 0)
  | unbrake => exact congrArg some (decodeDrvCmd_mk 0x12 0)
  | commandSpeed m =>
    exact congrArg some
      ((decodeDrvCmd_mk _ _).trans (decodeDriver_commandSpeed (signBit_of_wellFormed h)))
  | reset | getDirection | tickAdv | ecCapture | estStep | intStep | smIdle | smAcc | smDec | smXhl
  | smXlh | qPut | qGet | shPut | shGet => exact decode_idFrame h

/-! ### Encoding what was decoded -/

theorem encode_of_decodeHcmd {w : PortWord} {i : Instr} (h : decodeHcmd w = .ok i) :
    encode i = .hcmd w := by
  rw [← w.mk_op_arg]
  unfold decodeHcmd at h
  split_ifs at h with htorque hspeed
  · cases h; rw [htorque]; rfl
  · cases h; rw [hspeed]; rfl

/-- A driver operation has one word and one id: the `op` and `arg` it was read from (R86, R87). -/
theorem encode_and_id_of_decodeDriver {op : OpId} {arg : BitVec 32} {i : Instr}
    (h : decodeDriver op arg = .ok i) : encode i = .drvCmd (PortWord.mk op arg) ∧ i.id = op := by
  unfold decodeDriver at h
  split_ifs at h with hdir hbrake harg hunbrake harg hspeed hsign
  · split at h
    · next p hp => cases h; rw [hdir, ← Polarity.arg_of_ofArg hp]; exact ⟨rfl, rfl⟩
    · cases h
  · cases h; rw [hbrake, harg]; exact ⟨rfl, rfl⟩
  · cases h; rw [hunbrake, harg]; exact ⟨rfl, rfl⟩
  · cases h; rw [hspeed]; exact ⟨rfl, rfl⟩

theorem encode_of_decodeDrvCmd {w : PortWord} {i : Instr} (h : decodeDrvCmd w = .ok i) :
    encode i = .drvCmd w := by
  rw [← w.mk_op_arg]
  exact (encode_and_id_of_decodeDriver h).1

/-- One branch of the decoder: an id that is the branch's instruction's, or the branches after it. -/
theorem id_of_ite_ok {c : Prop} [Decidable c] {id : OpId} {i j : Instr} {r : Except Reject Instr}
    (hj : c → j.id = id) (hr : r = .ok i → i.id = id) (h : (if c then .ok j else r) = .ok i) :
    i.id = id := by
  split at h
  · next hc => cases h; exact hj hc
  · exact hr h

/-- An id that decodes is the id of what it decodes to: branch by branch, the ids of the format W
operations of the driver being those of `decodeDriver`. -/
theorem id_of_decodeId {id : OpId} {q : QueueId} {v : Entry} {i : Instr}
    (h : decodeId id q v = .ok i) : i.id = id := by
  revert h
  unfold decodeId
  iterate 3 refine id_of_ite_ok Eq.symm ?_
  by_cases hdriver : 0x10 ≤ id ∧ id ≤ 0x13
  · rw [if_pos hdriver]
    exact fun h => (encode_and_id_of_decodeDriver h).2
  · rw [if_neg hdriver]
    iterate 14 refine id_of_ite_ok Eq.symm ?_
    exact fun h => nomatch h

/-- Settles O47: on each port the word is its two fields, and an id is compared with the id of the
instruction it is read as. -/
theorem encodeOfDecode : Obligations.EncodeOfDecode :=
  ⟨fun _ _ => encode_of_decodeHcmd, fun _ _ => encode_of_decodeDrvCmd,
    fun _ _ _ _ => id_of_decodeId⟩

/-- Settles O48: each word is a closed term that the decoder evaluates. -/
theorem specWordsDecode : Obligations.SpecWordsDecode := by
  unfold Obligations.SpecWordsDecode
  decide

end Sys2Proof
end

section
/-! PROOFS. What becomes of an event out of reset (30_encoding.md R92, R98, R101, R105): the
operation it decodes to, a word that is refused or ignored, and SETTLE. -/

namespace Sys2Proof.Machine

/-! ### A host operand (R101) -/

/-- A Num is finite exactly if its exponent field is not all ones. -/
theorem F32.isFinite_iff_exponent (x : Num32) :
    F32.isFinite x = true ↔ x.extractLsb' 23 8 ≠ 0xFF := by
  have hfield : x.extractLsb' 23 8 = 0xFF ↔ x.toNat / 2 ^ 23 % 2 ^ 8 = 0xFF := by
    rw [← BitVec.toNat_inj, BitVec.extractLsb'_toNat, Nat.shiftRight_eq_div_pow]
    rfl
  rw [F32.isFinite_iff, F32.mag, F32.infMag, ne_eq, hfield]
  omega

/-- Settles O5: the operand is refused exactly if it is not finite. -/
theorem hostOperandsAreFinite : Obligations.HostOperandsAreFinite := by
  refine fun v s => ⟨fun hexp => ?_, fun hexp => ?_⟩
  · have hv : F32.isFinite v = false := by
      rw [Bool.eq_false_iff, ne_eq, F32.isFinite_iff_exponent]
      exact not_not_intro hexp
    exact ⟨exec_putTorque_refused hv s, exec_putSpeed_refused hv s⟩
  · have hv : F32.isFinite v = true := (F32.isFinite_iff_exponent v).2 hexp
    exact ⟨exec_putTorque_ok hv s, exec_putSpeed_ok hv s⟩

/-! ### The frames that name an operation or a reject -/

/-- A frame that names something is fetched as what it names. -/
theorem fetchFrame_of_decode {f : Frame} {r : Except Reject Instr} (h : decode f = some r)
    (s : State) : fetchFrame f s = fetchDecoded r s := by
  cases f with
  | hcmd | drvCmd | opId => cases h; rfl
  | stepSM | sense | rstN | settle => cases h

theorem decodeHcmd_of_reserved {w : PortWord} (htorque : w.op ≠ 0x01) (hspeed : w.op ≠ 0x02) :
    decodeHcmd w = .error .reservedHostWord := by
  rw [decodeHcmd, if_neg htorque, if_neg hspeed]

/-- Settles O6: the word decodes to the reject that the fetch passes over. -/
theorem reservedHostWordIsIgnored : Obligations.ReservedHostWordIsIgnored := by
  intro s w rest hr hscript htorque hspeed
  have hdecode : decode (.hcmd w) = some (.error .reservedHostWord) :=
    congrArg some (decodeHcmd_of_reserved htorque hspeed)
  exact step_pass ((fetch_cons hr hscript).trans (fetchFrame_of_decode hdecode _))

/-- Settles O49: the frame's instruction, or the one MS selects, is what the fetch finds. -/
theorem stepRunsTheDecodedInstruction : Obligations.StepRunsTheDecodedInstruction :=
  ⟨fun _ _ _ _ hr hscript hdecode =>
      step_run ((fetch_cons hr hscript).trans (fetchFrame_of_decode hdecode _)),
    fun _ _ hr hscript => step_run (fetch_cons hr hscript)⟩

/-! ### SETTLE (R105, 70_reset_and_hazards.md R297) -/

/-- While SETTLE has an operation left it runs that, and stays in the script. -/
theorem step_settle_of_some {s : State} {rest : List Frame} {i : Instr} (hr : s.rstLow = false)
    (hscript : s.script = .settle :: rest) (hi : s.settleInstr = some i) : step s = exec i s := by
  have hframe : fetchFrame .settle (s.withScript rest) = .run i s := by
    simp only [fetchFrame, State.settleInstr_withScript, hi]
    exact congrArg (Fetched.run i) (State.withScript_cons_eq hscript)
  exact step_run ((fetch_cons hr hscript).trans hframe)

/-- With no operation left SETTLE is spent. -/
theorem step_settle_of_none {s : State} {rest : List Frame} (hr : s.rstLow = false)
    (hscript : s.script = .settle :: rest) (hi : s.settleInstr = none) :
    step s = .next (s.withScript rest) := by
  have hframe : fetchFrame .settle (s.withScript rest) = .pass (s.withScript rest) := by
    simp only [fetchFrame, State.settleInstr_withScript, hi]
  exact step_pass ((fetch_cons hr hscript).trans hframe)

/-- A quiet state leaves SETTLE nothing to run. -/
theorem State.settleInstr_of_quiet {s : State} (h : s.quiet = true) : s.settleInstr = none := by
  simp only [Block.quiet, Bool.and_eq_true, Bool.or_eq_true, decide_eq_true_eq,
    List.isEmpty_iff] at h
  obtain ⟨⟨htsq, htqq⟩, hidle⟩ := h
  have hsm : s.smEnabled .idle = false := by
    rw [Bool.eq_false_iff, ne_eq, s.smEnabled_idle_iff]
    tauto
  simp [State.settleInstr, Block.estEnabled, Block.intEnabled, htsq, htqq, hsm]

/-- What SETTLE finds to do in a state that is not quiet, with the queue it takes from. -/
theorem State.settleInstr_of_not_quiet {s : State} (h : s.quiet = false) :
    (s.tsq ≠ [] ∧ s.settleInstr = some .estStep) ∨
    (s.tsq = [] ∧ s.tqq ≠ [] ∧ s.settleInstr = some .intStep) ∨
    (s.tsq = [] ∧ s.tqq = [] ∧ s.ms = .idle ∧ s.scq ≠ [] ∧ s.settleInstr = some .smIdle) := by
  by_cases htsq : s.tsq = []
  · by_cases htqq : s.tqq = []
    · have hsm : s.ms = .idle ∧ s.scq ≠ [] := by simpa [Block.quiet, htsq, htqq] using h
      have hen : s.smEnabled .idle = true := s.smEnabled_idle_iff.2 hsm
      refine .inr (.inr ⟨htsq, htqq, hsm.1, hsm.2, ?_⟩)
      simp [State.settleInstr, Block.estEnabled, Block.intEnabled, htsq, htqq, hen]
    · refine .inr (.inl ⟨htsq, htqq, ?_⟩)
      simp [State.settleInstr, Block.estEnabled, s.intEnabled_iff.2 htqq, htsq]
  · refine .inl ⟨htsq, ?_⟩
    simp [State.settleInstr, s.estEnabled_iff.2 htsq]

/-- The step that SETTLE asks for was made: the script and TICK are kept and there is less work left
(R297). -/
def State.SettlesTo (s t : State) : Prop :=
  t.script = s.script ∧ t.settleWork < s.settleWork ∧ t.tick = s.tick

theorem length_queuePut_le_succ {ε : Type} (cap : Nat) (l : List ε) (v : ε) :
    (queuePut cap l v).length ≤ l.length + 1 := by
  unfold queuePut
  split <;> simp

theorem estStep_settles {s : State} (h : s.tsq ≠ []) :
    ∃ t, exec .estStep s = .next t ∧ s.SettlesTo t := by
  obtain ⟨cur, rest, hq⟩ := List.exists_cons_of_ne_nil h
  refine ⟨_, exec_estStep_cons hq, rfl, ?_, rfl⟩
  simp only [State.settleWork, hq, List.length_cons]
  omega

/-- INT_STEP takes a torque, which counts double, and adds at most one speed command. -/
theorem intStep_settles {s : State} (hc : cfgOk s.cfg = true) (h : s.tqq ≠ []) :
    ∃ t, exec .intStep s = .next t ∧ s.SettlesTo t := by
  obtain ⟨tq, rest, hq⟩ := List.exists_cons_of_ne_nil h
  refine ⟨_, exec_intStep_cons hq hc, rfl, ?_, rfl⟩
  have hput := length_queuePut_le_succ Config.cmdqCap s.scq
    (radToRpm Numerics.f32 (s.integrated Numerics.f32 tq))
  simp only [State.settleWork, hq, List.length_cons]
  omega

theorem smIdle_settles {s : State} (hm : s.ms = .idle) (h : s.scq ≠ []) :
    ∃ t, exec .smIdle s = .next t ∧ s.SettlesTo t := by
  obtain ⟨c, rest, hq⟩ := List.exists_cons_of_ne_nil h
  refine ⟨_, exec_smIdle_cons hm hq, rfl, ?_, rfl⟩
  simp only [sequence_eq, State.settleWork, hq, List.length_cons]
  omega

/-- Settles O51: SETTLE runs the first of the three operations that is enabled, and each of them
leaves less work. -/
theorem settleTerminates : Obligations.SettleTerminates := by
  intro s rest hc hr hscript
  refine ⟨fun hq => ?_, fun hq => step_settle_of_none hr hscript (State.settleInstr_of_quiet hq)⟩
  rcases State.settleInstr_of_not_quiet hq with ⟨htsq, hi⟩ | ⟨htsq, htqq, hi⟩ |
    ⟨htsq, htqq, hm, hscq, hi⟩
  · rw [if_pos htsq, step_settle_of_some hr hscript hi]
    exact ⟨rfl, estStep_settles htsq⟩
  · rw [if_neg (not_not_intro htsq), if_pos htqq, step_settle_of_some hr hscript hi]
    exact ⟨rfl, intStep_settles hc htqq⟩
  · rw [if_neg (not_not_intro htsq), if_neg (not_not_intro htqq),
      step_settle_of_some hr hscript hi]
    exact ⟨rfl, smIdle_settles hm hscq⟩

end Sys2Proof.Machine
end

section
/-! PROOFS. Rounding (40_numerics.md R116, R121): the nearest magnitude, ties to even, and the ratio
from which the result is an infinity. -/

namespace Sys2Proof.Machine

/-! ### The nearest integer -/

/-- No integer is closer to `p / d` than `nearest p d`, and where another is as close, `nearest p d`
is even. -/
theorem F32.nearest_isNearest (p b : Nat) {d : Nat} (hd : 0 < d) :
    |(p : Int) - (F32.nearest p d * d : Nat)| ≤ |(p : Int) - (b * d : Nat)| ∧
    (|(p : Int) - (F32.nearest p d * d : Nat)| = |(p : Int) - (b * d : Nat)| →
      b ≠ F32.nearest p d → F32.nearest p d % 2 = 0) := by
  have hp := Nat.div_add_mod' p d
  have hr := Nat.mod_lt p hd
  have hb : b * d + d ≤ p / d * d ∨ b = p / d ∧ b * d = p / d * d ∨
      b = p / d + 1 ∧ b * d = p / d * d + d ∨ p / d * d + 2 * d ≤ b * d := by
    rcases (by omega : b + 1 ≤ p / d ∨ b = p / d ∨ b = p / d + 1 ∨ p / d + 2 ≤ b) with
      h | h | h | h
    · exact .inl (by simpa [Nat.add_mul] using Nat.mul_le_mul_right d h)
    · exact .inr (.inl ⟨h, by rw [h]⟩)
    · exact .inr (.inr (.inl ⟨h, by rw [h, Nat.succ_mul]⟩))
    · exact .inr (.inr (.inr (by simpa [Nat.add_mul] using Nat.mul_le_mul_right d h)))
  rw [Int.abs_eq_natAbs, Int.abs_eq_natAbs]
  unfold F32.nearest
  split_ifs with hup
  · rw [Nat.succ_mul]
    rcases hb with h | ⟨rfl, h⟩ | ⟨rfl, h⟩ | h <;> omega
  · rcases hb with h | ⟨rfl, h⟩ | ⟨rfl, h⟩ | h <;> omega

/-! ### The units of a rounded pattern -/

/-- A significand counted on from `k · 2^23`, the carry to 2^24 included, has the units that it stands
for: as a subnormal for `k = 0`, else with its top bit set. -/
theorem F32.units_significand {a k : Nat} (ha : a ≤ 2 ^ 24) (hk : k = 0 ∨ 2 ^ 23 ≤ a) :
    F32.units (k * 2 ^ 23 + a) = a * 2 ^ k := by
  rcases Nat.lt_or_ge a (2 ^ 23) with hsub | hnorm
  · obtain rfl : k = 0 := by omega
    simpa using F32.units_subnormal hsub
  · rcases ha.lt_or_eq with hlt | rfl
    · rw [show k * 2 ^ 23 + a = (k + 1) * 2 ^ 23 + (a - 2 ^ 23) by omega,
        F32.units_normal (by omega), Nat.add_sub_cancel' hnorm]
    · rw [show k * 2 ^ 23 + 2 ^ 24 = (k + 1 + 1) * 2 ^ 23 + 0 by omega,
        F32.units_normal (by decide)]
      ring

/-- The significand that `p / q` keeps has at most 24 bits, or is 2^24 after a carry. -/
theorem F32.nearest_excess_le (p q : Nat) :
    F32.nearest p (q * 2 ^ F32.excess (p / q)) ≤ 2 ^ 24 := by
  refine (F32.nearest_le_succ _ _).trans (Nat.succ_le_of_lt ?_)
  rw [← Nat.div_div_eq_div_mul, Nat.div_lt_iff_lt_mul (Nat.two_pow_pos _)]
  exact F32.lt_of_excess _

/-- Where bits are given up, the ratio is at least 2^23 of the unit kept. -/
theorem F32.le_of_excess_ne_zero {p q : Nat} (hq : 0 < q) (hk : F32.excess (p / q) ≠ 0) :
    2 ^ 23 * (q * 2 ^ F32.excess (p / q)) ≤ p :=
  calc 2 ^ 23 * (q * 2 ^ F32.excess (p / q)) = 2 ^ 23 * 2 ^ F32.excess (p / q) * q := by ring
    _ ≤ p := (Nat.le_div_iff_mul_le hq).1 (F32.le_of_excess_pos (Nat.pos_of_ne_zero hk))

theorem F32.units_pattern (p : Nat) {q : Nat} (hq : 0 < q) :
    F32.units (F32.pattern p q) * q =
      F32.nearest p (q * 2 ^ F32.excess (p / q)) * (q * 2 ^ F32.excess (p / q)) := by
  have hd : 0 < q * 2 ^ F32.excess (p / q) := Nat.mul_pos hq (Nat.two_pow_pos _)
  rw [F32.pattern, F32.units_significand (F32.nearest_excess_le p q)]
  · ring
  · refine or_iff_not_imp_left.2 fun hk => le_trans ?_ (F32.le_nearest _ _)
    exact (Nat.le_div_iff_mul_le hd).2 (F32.le_of_excess_ne_zero hq hk)

/-- A magnitude is a multiple of 2^k units, or `k` is not 0 and it is below 2^23 of them. -/
theorem F32.two_pow_dvd_units_or_lt (m k : Nat) :
    2 ^ k ∣ F32.units m ∨ k ≠ 0 ∧ F32.units m < 2 ^ 23 * 2 ^ k := by
  refine or_iff_not_imp_left.2 fun hdvd => ⟨by rintro rfl; exact hdvd (one_dvd _), ?_⟩
  rcases F32.mag_cases m with h | ⟨e, f, hf, rfl⟩
  · rw [F32.units_subnormal h]
    exact h.trans_le (Nat.le_mul_of_pos_right _ (Nat.two_pow_pos k))
  · rw [F32.units_normal hf] at hdvd ⊢
    have hek : e < k := by
      by_contra hge
      exact hdvd (Dvd.dvd.mul_left (pow_dvd_pow 2 (not_lt.1 hge)) _)
    calc (2 ^ 23 + f) * 2 ^ e < 2 ^ 24 * 2 ^ e :=
          Nat.mul_lt_mul_of_pos_right (by omega) (Nat.two_pow_pos e)
      _ = 2 ^ 23 * 2 ^ (e + 1) := by ring
      _ ≤ 2 ^ 23 * 2 ^ k := Nat.mul_le_mul_left _ (Nat.pow_le_pow_right (by decide) hek)

/-! ### The nearest magnitude -/

/-- Before the overflow cap the pattern is nearest to `p / q` among all magnitudes, ties to even. A
magnitude that is no multiple of the unit kept lies below 2^23 of them, and these are no more than
`p / q`, so they are closer. -/
theorem F32.pattern_isNearest (p m : Nat) {q : Nat} (hq : 0 < q) :
    |(p : Int) - (F32.units (F32.pattern p q) * q : Nat)| ≤ |(p : Int) - (F32.units m * q : Nat)| ∧
    (|(p : Int) - (F32.units (F32.pattern p q) * q : Nat)| =
        |(p : Int) - (F32.units m * q : Nat)| →
      m ≠ F32.pattern p q → F32.pattern p q % 2 = 0) := by
  have hd : 0 < q * 2 ^ F32.excess (p / q) := Nat.mul_pos hq (Nat.two_pow_pos _)
  have hun := F32.units_pattern p hq
  rcases F32.two_pow_dvd_units_or_lt m (F32.excess (p / q)) with
    ⟨b, hb⟩ | ⟨hk, hlt⟩
  · have hm : F32.units m * q = b * (q * 2 ^ F32.excess (p / q)) := by rw [hb]; ring
    obtain ⟨hle, heven⟩ := F32.nearest_isNearest p b hd
    rw [hun, hm]
    refine ⟨hle, fun htie hne => ?_⟩
    have hb' : b ≠ F32.nearest p (q * 2 ^ F32.excess (p / q)) := by
      rintro rfl
      exact hne (F32.units_strictMono.injective (Nat.eq_of_mul_eq_mul_right hq (hm.trans hun.symm)))
    have := heven htie hb'
    rw [F32.pattern]
    omega
  · have hle := (F32.nearest_isNearest p (2 ^ 23) hd).1
    have hp := F32.le_of_excess_ne_zero hq hk
    have hm : F32.units m * q < 2 ^ 23 * (q * 2 ^ F32.excess (p / q)) :=
      calc F32.units m * q < 2 ^ 23 * 2 ^ F32.excess (p / q) * q :=
            Nat.mul_lt_mul_of_pos_right hlt hq
        _ = 2 ^ 23 * (q * 2 ^ F32.excess (p / q)) := by ring
    rw [hun]
    simp only [Int.abs_eq_natAbs] at hle ⊢
    omega

/-- A pattern beyond the largest finite magnitude, if it is nearest, is no further from `p / q` than
that magnitude, so `p / q` is at least the midpoint to 2^128. -/
theorem F32.midpoint_le_of_infMag_le_pattern {p q : Nat} (hq : 0 < q)
    (h : F32.infMag ≤ F32.pattern p q) : (2 ^ 25 - 1) * 2 ^ 252 * q ≤ p := by
  have hmax : F32.units 0x7F7FFFFF = (2 ^ 24 - 1) * 2 ^ 253 := by decide
  have hinf : F32.units F32.infMag = 2 ^ 25 * 2 ^ 252 := by decide
  have hge := Nat.mul_le_mul_right q (F32.units_le_iff.2 h)
  have hle := (F32.pattern_isNearest p 0x7F7FFFFF hq).1
  rw [hinf] at hge
  rw [hmax] at hle
  simp only [Int.abs_eq_natAbs] at hle
  omega

/-! ### The obligations -/

/-- Settles O53: a finite result is the pattern before the overflow cap, and that is nearest. -/
theorem roundingIsToNearestEven : Obligations.RoundingIsToNearestEven := by
  intro p q m hq _ hfin
  have hr : F32.round p q = F32.pattern p q := by
    rw [F32.round_eq] at hfin ⊢
    omega
  rw [hr]
  exact_mod_cast F32.pattern_isNearest p m hq

/-- Settles O54: from the threshold on by monotonicity, as the threshold itself rounds to infinity; a
ratio below it is closer to the largest finite magnitude. -/
theorem overflowGivesInfinity : Obligations.OverflowGivesInfinity := by
  intro p q hq
  constructor
  · intro h
    rw [F32.round_eq, min_eq_right_iff] at h
    exact F32.midpoint_le_of_infMag_le_pattern hq h
  · intro h
    have hinf : F32.round ((2 ^ 25 - 1) * 2 ^ 252) 1 = F32.infMag := by decide
    refine le_antisymm (F32.round_le p q) ?_
    calc F32.infMag = F32.round ((2 ^ 25 - 1) * 2 ^ 252) 1 := hinf.symm
      _ ≤ F32.round p q := F32.round_mono Nat.one_pos hq (by omega)

end Sys2Proof.Machine
end

section
/-! PROOFS. The operations on finite Nums (40_numerics.md R116, R121, R131 NP3 to NP7). The order key of
every result is one signed rounding of the exact result, from which monotonicity, exact results and
symmetry in the sign are read off. -/

namespace Sys2Proof.Machine

/-! ### Signed numbers -/

/-- The integer with this sign and this magnitude. -/
def F32.signed (neg : Bool) (n : Nat) : Int := if neg then -n else n

theorem F32.value_eq_signed (x : Num32) :
    F32.value x = F32.signed (F32.signBit x) (F32.units (F32.mag x)) := rfl

theorem F32.key_eq_signed (x : Num32) :
    F32.key x = F32.signed (F32.signBit x) (F32.mag x) := rfl

theorem F32.key_pack {m : Nat} (neg : Bool) (h : m < 2 ^ 31) :
    F32.key (F32.pack neg m) = F32.signed neg m := by
  rw [F32.key_eq_signed, F32.signBit_pack neg h, F32.mag_pack neg h]

@[simp] theorem F32.signed_zero (neg : Bool) : F32.signed neg 0 = 0 := by cases neg <;> rfl

@[simp] theorem F32.natAbs_signed (neg : Bool) (n : Nat) : (F32.signed neg n).natAbs = n := by
  cases neg <;> simp [F32.signed]

theorem F32.signed_mul_signed (a b : Bool) (m n : Nat) :
    F32.signed a m * F32.signed b n = F32.signed (a != b) (m * n) := by
  cases a <;> cases b <;> simp [F32.signed]

theorem F32.signed_mul_natCast (a : Bool) (m n : Nat) :
    F32.signed a m * n = F32.signed a (m * n) := by
  cases a <;> simp [F32.signed]

theorem F32.neg_pack {m : Nat} (neg : Bool) (h : m < 2 ^ 31) :
    F32.neg (F32.pack neg m) = F32.pack (!neg) m := by
  rw [F32.neg, F32.signBit_pack neg h, F32.mag_pack neg h]

theorem F32.value_eq_zero_iff (x : Num32) : F32.value x = 0 ↔ F32.mag x = 0 := by
  rw [← Int.natAbs_eq_zero, F32.value_eq_signed, F32.natAbs_signed]
  exact ⟨fun h => F32.units_strictMono.injective h, fun h => by rw [h, F32.units_zero]⟩

/-! ### The signed rounding -/

/-- The order key of the Num nearest to `v / q` units. -/
def F32.roundKey (v : Int) (q : Nat) : Int := F32.signed (decide (v < 0)) (F32.round v.natAbs q)

@[simp] theorem F32.round_zero (q : Nat) : F32.round 0 q = 0 := by
  simp [F32.round, F32.nearest, F32.excess]

/-- Rounding a magnitude and giving it a sign is the signed rounding. -/
theorem F32.signed_round (neg : Bool) (n q : Nat) :
    F32.signed neg (F32.round n q) = F32.roundKey (F32.signed neg n) q := by
  rcases Nat.eq_zero_or_pos n with rfl | hn
  · simp [F32.roundKey]
  · have hsign : decide (F32.signed neg n < 0) = neg := by cases neg <;> simp [F32.signed, hn]
    rw [F32.roundKey, F32.natAbs_signed, hsign]

theorem F32.roundKey_neg (v : Int) (q : Nat) : F32.roundKey (-v) q = -F32.roundKey v q := by
  rcases lt_trichotomy v 0 with h | rfl | h
  · simp [F32.roundKey, F32.signed, h, h.le]
  · simp [F32.roundKey]
  · simp [F32.roundKey, F32.signed, h, h.le]

/-- Rounding is monotone (R131 NP3). -/
theorem F32.roundKey_mono {v w : Int} {q : Nat} (hq : 0 < q) (h : v ≤ w) :
    F32.roundKey v q ≤ F32.roundKey w q := by
  have hround {m n : Nat} (hmn : m ≤ n) : F32.round m q ≤ F32.round n q :=
    F32.round_mono hq hq (Nat.mul_le_mul_right q hmn)
  unfold F32.roundKey F32.signed
  simp only [decide_eq_true_eq]
  split_ifs with hv hw hw
  · have := hround (m := w.natAbs) (n := v.natAbs) (by omega)
    omega
  · omega
  · omega
  · have := hround (m := v.natAbs) (n := w.natAbs) (by omega)
    omega

/-- The value of a finite Num rounds to that Num (R131 NP4). -/
theorem F32.roundKey_value {z : Num32} {q : Nat} (hq : 0 < q) (hz : F32.isFinite z = true) :
    F32.roundKey (F32.value z * q) q = F32.key z := by
  rw [F32.value_eq_signed, F32.signed_mul_natCast, ← F32.signed_round,
    F32.round_units hq ((F32.isFinite_iff z).1 hz).le, ← F32.key_eq_signed]

/-! ### The keys of the results -/

section
variable {x y : Num32} (hx : F32.isFinite x = true) (hy : F32.isFinite y = true)
include hx hy

theorem F32.key_add : F32.key (F32.add x y) = F32.roundKey (F32.value x + F32.value y) 1 := by
  rw [F32.add_of_finite hx hy, F32.addFinite]
  split_ifs with h0
  · rw [h0, F32.key_pack _ (by decide)]
    simp [F32.roundKey]
  · rw [F32.key_pack _ (F32.round_lt_pow _ _), F32.roundKey]

theorem F32.key_sub : F32.key (F32.sub x y) = F32.roundKey (F32.value x - F32.value y) 1 := by
  rw [F32.sub, F32.key_add hx (by simpa using hy), F32.value_neg, sub_eq_add_neg]

theorem F32.key_mul :
    F32.key (F32.mul x y) = F32.roundKey (F32.value x * F32.value y) (2 ^ 149) := by
  rw [F32.mul_of_finite hx hy, F32.key_pack _ (F32.round_lt_pow _ _), F32.signed_round,
    F32.value_eq_signed, F32.value_eq_signed, F32.signed_mul_signed, F32.signXor]

theorem F32.key_div (h0 : F32.value y ≠ 0) :
    F32.key (F32.div x y) =
      F32.roundKey (F32.value x * 2 ^ 149 * (F32.value y).sign) (F32.value y).natAbs := by
  have hmag : F32.mag y ≠ 0 := mt (F32.value_eq_zero_iff y).2 h0
  have hpos : 0 < F32.units (F32.mag y) := F32.units_pos (Nat.pos_of_ne_zero hmag)
  have hsign : (F32.value y).sign = F32.signed (F32.signBit y) 1 := by
    rw [F32.value_eq_signed]
    cases F32.signBit y <;> simp [F32.signed, Int.sign_eq_one_of_pos, hpos]
  have hval : F32.value x * 2 ^ 149 * (F32.value y).sign =
      F32.signed (F32.signXor x y) (F32.units (F32.mag x) * 2 ^ 149) := by
    have h2 : F32.value x * 2 ^ 149 = F32.signed (F32.signBit x) (F32.units (F32.mag x) * 2 ^ 149) :=
      mod_cast F32.signed_mul_natCast _ _ (2 ^ 149)
    rw [h2, hsign, F32.signed_mul_signed, Nat.mul_one, F32.signXor]
  rw [F32.div_of_finite hx hy hmag, F32.key_pack _ (F32.round_lt_pow _ _), F32.signed_round, hval,
    F32.value_eq_signed y, F32.natAbs_signed]

theorem F32.isNaN_mul_of_finite : F32.isNaN (F32.mul x y) = false := by
  rw [F32.mul_of_finite hx hy]
  exact F32.isNaN_pack _ (F32.round_le _ _)

theorem F32.isNaN_sub_of_finite : F32.isNaN (F32.sub x y) = false :=
  F32.isNaN_add (F32.not_isNaN_of_isFinite hx) (by simpa using hy)

end

/-! ### The order of the keys -/

theorem F32.eq_iff {x y : Num32} (hx : F32.isNaN x = false) (hy : F32.isNaN y = false) :
    F32.eq x y = true ↔ F32.key x = F32.key y := by
  simp [F32.eq, F32.ordered, hx, hy]

theorem F32.key_le_iff_value_le (x y : Num32) :
    F32.key x ≤ F32.key y ↔ F32.value x ≤ F32.value y := by
  rw [← not_lt, F32.key_lt_iff_value_lt, not_lt]

/-- A finite Num is above +0.0 exactly if its value is positive. -/
theorem F32.gt_zero_iff_value_pos {x : Num32} (hx : F32.isFinite x = true) :
    F32.gt x 0 = true ↔ 0 < F32.value x := by
  rw [F32.gt_iff (F32.not_isNaN_of_isFinite hx) rfl, F32.key_lt_iff_value_lt]
  rfl

/-! ### Conversion of tick counts -/

/-- Every number of units can be doubled: a subnormal shifts, a normal number takes the next
exponent. -/
theorem F32.exists_units_eq_two_mul (m : Nat) : ∃ m', F32.units m' = 2 * F32.units m := by
  rcases F32.mag_cases m with h | ⟨e, f, hf, rfl⟩
  · refine ⟨0 * 2 ^ 23 + 2 * m, ?_⟩
    rw [F32.units_significand (by omega) (.inl rfl), F32.units_subnormal h, Nat.pow_zero, Nat.mul_one]
  · refine ⟨(e + 1 + 1) * 2 ^ 23 + f, ?_⟩
    rw [F32.units_normal hf, F32.units_normal hf]
    ring

/-- A significand of at most 24 bits, or 2^24, is representable at every exponent. -/
theorem F32.exists_units_eq_mul_two_pow {s : Nat} (hs : s ≤ 2 ^ 24) (e : Nat) :
    ∃ m, F32.units m = s * 2 ^ e := by
  induction e with
  | zero => exact ⟨0 * 2 ^ 23 + s, F32.units_significand hs (.inl rfl)⟩
  | succ e ih =>
    obtain ⟨m, hm⟩ := ih
    obtain ⟨m', hm'⟩ := F32.exists_units_eq_two_mul m
    exact ⟨m', by rw [hm', hm]; ring⟩

theorem F32.key_ofU32 (n : Nat) : F32.key (F32.ofU32 n) = F32.round (n * 2 ^ 149) 1 := by
  rw [F32.key_eq_signed, F32.signBit_ofU32, F32.mag_ofU32]
  rfl

theorem F32.isNaN_ofU32 (n : Nat) : F32.isNaN (F32.ofU32 n) = false :=
  F32.isNaN_pack _ (F32.round_le _ _)

/-- Up to 2^24 a tick count is converted exactly (R131 NP5). -/
theorem F32.value_ofU32_of_le {n : Nat} (hn : n ≤ 2 ^ 24) :
    F32.value (F32.ofU32 n) = n * 2 ^ 149 := by
  obtain ⟨m, hm⟩ := F32.exists_units_eq_mul_two_pow hn 149
  have hfin : m ≤ F32.infMag := by
    have hinf : F32.units F32.infMag = 2 ^ 128 * 2 ^ 149 := by decide
    rw [← F32.units_le_iff, hm, hinf]
    exact Nat.mul_le_mul_right _ (hn.trans (by decide))
  rw [F32.value_eq_signed, F32.signBit_ofU32, F32.mag_ofU32, ← hm, ← Nat.mul_one (F32.units m),
    F32.round_units Nat.one_pos hfin, hm]
  simp [F32.signed]

theorem signBit_ticksToSec {n : Nat} (h1 : 1 ≤ n) (h2 : n < 2 ^ 32) :
    F32.signBit (ticksToSec Numerics.f32 n) = false := by
  have hfin : F32.isFinite (F32.ofU32 n) = true :=
    (F32.isFinite_iff _).2 ((F32.mag_ofU32_bounds h1 h2).2.trans_lt (by decide))
  rw [ticksToSec_f32, F32.div_of_finite hfin (by decide) (by decide),
    F32.signBit_pack _ (F32.round_lt_pow _ _), F32.signXor, F32.signBit_ofU32]
  decide

/-! ### The obligations -/

/-- Settles O55: the keys of the results are signed roundings of exact results in the same order. -/
theorem operationsAreMonotone : Obligations.OperationsAreMonotone := by
  intro x y c hx hy hc hle
  have hxn := F32.not_isNaN_of_isFinite hx
  have hyn := F32.not_isNaN_of_isFinite hy
  rw [F32.le_iff hxn hyn, F32.key_le_iff_value_le] at hle
  refine ⟨?_, ?_, fun hpos => ?_⟩
  · rw [F32.le_iff (F32.isNaN_add hxn hc) (F32.isNaN_add hyn hc), F32.key_add hx hc,
      F32.key_add hy hc]
    exact F32.roundKey_mono Nat.one_pos (by omega)
  · rw [F32.le_iff (F32.isNaN_sub_of_finite hx hc) (F32.isNaN_sub_of_finite hy hc),
      F32.key_sub hx hc, F32.key_sub hy hc]
    exact F32.roundKey_mono Nat.one_pos (by omega)
  · rw [F32.gt_zero_iff_value_pos hc] at hpos
    have hmag : F32.mag c ≠ 0 := mt (F32.value_eq_zero_iff c).2 hpos.ne'
    constructor
    · rw [F32.le_iff (F32.isNaN_mul_of_finite hx hc) (F32.isNaN_mul_of_finite hy hc),
        F32.key_mul hx hc, F32.key_mul hy hc]
      exact F32.roundKey_mono (by positivity) (Int.mul_le_mul_of_nonneg_right hle hpos.le)
    · rw [F32.le_iff (F32.isNaN_div hx hc hmag) (F32.isNaN_div hy hc hmag),
        F32.key_div hx hc hpos.ne', F32.key_div hy hc hpos.ne', Int.sign_eq_one_of_pos hpos]
      exact F32.roundKey_mono (by omega) (by omega)

/-- Settles O56: the key of the result is the signed rounding of the value of `z`, which is the key
of `z`. -/
theorem exactResultsAreReturned : Obligations.ExactResultsAreReturned := by
  intro x y z hx hy hz
  have hxn := F32.not_isNaN_of_isFinite hx
  have hzn := F32.not_isNaN_of_isFinite hz
  have hround := F32.roundKey_value (q := 1) Nat.one_pos hz
  rw [Nat.cast_one, mul_one] at hround
  refine ⟨fun h => ?_, fun h => ?_, fun h => ?_, fun h0 h => ?_⟩
  · rw [F32.eq_iff (F32.isNaN_add hxn hy) hzn, F32.key_add hx hy, h, hround]
  · rw [F32.eq_iff (F32.isNaN_sub_of_finite hx hy) hzn, F32.key_sub hx hy, h, hround]
  · rw [F32.eq_iff (F32.isNaN_mul_of_finite hx hy) hzn, F32.key_mul hx hy, h]
    exact_mod_cast F32.roundKey_value (q := 2 ^ 149) (by positivity) hz
  · have hmag : F32.mag y ≠ 0 := mt (F32.value_eq_zero_iff y).2 h0
    rw [F32.eq_iff (F32.isNaN_div hx hy hmag) hzn, F32.key_div hx hy h0, h, mul_assoc,
      Int.mul_sign_self]
    exact F32.roundKey_value (Int.natAbs_pos.2 h0) hz

/-- Settles O57: the conversion is one rounding, and the interval in seconds has a magnitude above
zero and below infinity. -/
theorem tickConversionIsSound : Obligations.TickConversionIsSound := by
  refine ⟨fun m n hmn _ => ?_, fun n => F32.value_ofU32_of_le, fun n h1 h2 => ⟨?_, ?_⟩⟩
  · rw [F32.le_iff (F32.isNaN_ofU32 m) (F32.isNaN_ofU32 n), F32.key_ofU32, F32.key_ofU32]
    exact_mod_cast F32.round_mono Nat.one_pos Nat.one_pos (by omega)
  · have hone : F32.key 0x3F800000 = (0x3F800000 : Nat) := by decide
    rw [F32.ge_iff (F32.isNaN_ofU32 n) rfl, F32.key_ofU32, ← F32.mag_ofU32, hone]
    exact_mod_cast (F32.mag_ofU32_bounds h1 h2).1
  · have hfin := isFinite_ticksToSec h1 h2
    have hpos := Nat.pos_of_ne_zero (mag_ticksToSec_ne_zero h1 h2)
    have hsign := signBit_ticksToSec h1 h2
    rw [ticksToSec_f32] at hfin hpos hsign
    refine ⟨hfin, ?_⟩
    rw [F32.gt_iff (F32.not_isNaN_of_isFinite hfin) rfl]
    exact (F32.zero_lt_key_iff _).2 ⟨hsign, hpos⟩

/-- Settles O58: a product's sign is that of its factors, and the negated exact sum rounds to the
negated magnitude. -/
theorem operationsAreSignSymmetric : Obligations.OperationsAreSignSymmetric := by
  intro x y hx hy
  have hx' : F32.isFinite (F32.neg x) = true := by simpa using hx
  have hy' : F32.isFinite (F32.neg y) = true := by simpa using hy
  refine ⟨?_, fun hne => ?_, ?_⟩
  · rw [F32.mul_of_finite hx' hy, F32.mul_of_finite hx hy, F32.neg_pack _ (F32.round_lt_pow _ _)]
    simp [F32.signXor]
  · have hsign : decide (-(F32.value x + F32.value y) < 0) =
        !decide (F32.value x + F32.value y < 0) := by
      rw [← decide_not, decide_eq_decide]
      omega
    rw [F32.add_of_finite hx' hy', F32.add_of_finite hx hy, F32.addFinite, F32.addFinite,
      F32.value_neg, F32.value_neg, ← neg_add, if_neg (neg_ne_zero.2 hne), if_neg hne,
      F32.neg_pack _ (F32.round_lt_pow _ _), hsign, Int.natAbs_neg]
  · have hadd := F32.isNaN_add (F32.not_isNaN_of_isFinite hx) hy
    have hadd' := F32.isNaN_add (F32.not_isNaN_of_isFinite hx') hy'
    rw [F32.eq_iff hadd' (by simpa using hadd), F32.key_neg, F32.key_add hx' hy', F32.key_add hx hy,
      ← F32.roundKey_neg, F32.value_neg, F32.value_neg, neg_add]

end Sys2Proof.Machine
end

section
/-! PROOFS. The comparisons, the clamp and the modulo difference (40_numerics.md R112, R118, R120, R131
NP1, NP2, NP8). -/

namespace Sys2Proof.Machine

/-! ### Comparisons -/

theorem F32.ordered_comm (x y : Num32) : F32.ordered x y = F32.ordered y x := Bool.and_comm _ _

/-- An operand that is a NaN is not ordered with any other (R118). -/
theorem F32.ordered_eq_false {x y : Num32} (h : F32.isNaN x = true ∨ F32.isNaN y = true) :
    F32.ordered x y = false := by
  rcases h with h | h <;> simp [F32.ordered, h]

theorem F32.gt_eq_lt_swap (x y : Num32) : F32.gt x y = F32.lt y x := by
  rw [F32.gt, F32.lt, F32.ordered_comm]

theorem F32.ge_eq_le_swap (x y : Num32) : F32.ge x y = F32.le y x := by
  rw [F32.ge, F32.le, F32.ordered_comm]

theorem F32.eq_eq_le_and_le (x y : Num32) : F32.eq x y = (F32.le x y && F32.le y x) := by
  have hkey : decide (F32.key x = F32.key y) =
      (decide (F32.key x ≤ F32.key y) && decide (F32.key y ≤ F32.key x)) := by
    rw [← Bool.decide_and, decide_eq_decide]
    exact le_antisymm_iff
  rw [F32.eq, F32.le, F32.le, F32.ordered_comm y x, hkey]
  cases F32.ordered x y <;> rfl

theorem F32.le_trans {x y z : Num32} (hxy : F32.le x y = true) (hyz : F32.le y z = true) :
    F32.le x z = true := by
  simp only [F32.le, F32.ordered, Bool.and_eq_true, decide_eq_true_eq] at hxy hyz ⊢
  obtain ⟨⟨hx, -⟩, hkxy⟩ := hxy
  obtain ⟨⟨-, hz⟩, hkyz⟩ := hyz
  exact ⟨⟨hx, hz⟩, hkxy.trans hkyz⟩

/-- The finite Nums lie between the infinities. -/
theorem F32.lt_inf_of_isFinite {x : Num32} (hx : F32.isFinite x = true) :
    F32.lt 0xFF800000 x = true ∧ F32.lt x 0x7F800000 = true := by
  have hxn := F32.not_isNaN_of_isFinite hx
  have hmag := (F32.isFinite_iff x).1 hx
  have hbot : F32.key 0xFF800000 = -(F32.infMag : Int) := by decide
  have htop : F32.key 0x7F800000 = (F32.infMag : Int) := by decide
  have hlo : -(F32.mag x : Int) ≤ F32.key x := by
    unfold F32.key; split <;> omega
  have hhi := F32.key_le_mag x
  rw [F32.lt_iff (by decide) hxn, F32.lt_iff hxn (by decide), hbot, htop]
  omega

theorem F32.key_eq_iff_value_eq (x y : Num32) :
    F32.key x = F32.key y ↔ F32.value x = F32.value y := by
  rw [le_antisymm_iff, F32.key_le_iff_value_le, F32.key_le_iff_value_le, ← le_antisymm_iff]

theorem F32.abs_neg (x : Num32) : F32.abs (F32.neg x) = F32.abs x :=
  F32.ext_signBit_mag (by simp) (by simp)

section
variable {x y : Num32} (hx : F32.isNaN x = false) (hy : F32.isNaN y = false)
include hx

theorem F32.ge_abs_zero : F32.ge (F32.abs x) 0 = true := by
  have hzero : F32.key 0 = 0 := by decide
  rw [F32.ge_iff (by simpa using hx) rfl, F32.key_abs, hzero]
  exact abs_nonneg _

include hy

theorem F32.lt_or_eq_or_gt :
    (F32.lt x y = true ∧ F32.eq x y = false ∧ F32.gt x y = false) ∨
    (F32.lt x y = false ∧ F32.eq x y = true ∧ F32.gt x y = false) ∨
    (F32.lt x y = false ∧ F32.eq x y = false ∧ F32.gt x y = true) := by
  simp only [Bool.eq_false_iff, ne_eq, F32.lt_iff hx hy, F32.eq_iff hx hy, F32.gt_iff hx hy]
  omega

theorem F32.le_iff_lt_or_eq :
    F32.le x y = true ↔ F32.lt x y = true ∨ F32.eq x y = true := by
  rw [F32.le_iff hx hy, F32.lt_iff hx hy, F32.eq_iff hx hy]
  exact Int.le_iff_lt_or_eq

end

/-! ### The modulo difference -/

/-- A timestamp taken `n` ticks later, however often the counter wrapped. -/
theorem mdiff_add_ofNat (prev : Tick) (n : Nat) :
    mdiff (prev + BitVec.ofNat 32 n) prev = n % 2 ^ 32 := by
  have h := mdiff_eq (prev + BitVec.ofNat 32 n) prev
  rw [BitVec.toNat_add, BitVec.toNat_ofNat] at h
  omega

/-! ### The obligations -/

/-- Settles O59: the comparisons compare the order keys, which are ordered as the values are. -/
theorem comparisonsAreATotalOrder : Obligations.ComparisonsAreATotalOrder := by
  refine ⟨fun x y hnan => ?_,
    fun x y => ⟨F32.gt_eq_lt_swap x y, F32.ge_eq_le_swap x y, F32.eq_eq_le_and_le x y⟩,
    by decide, fun _ _ _ => F32.le_trans, fun _ => F32.lt_inf_of_isFinite, fun x y hx hy =>
    ⟨F32.ge_abs_zero hx, F32.abs_neg x, F32.lt_or_eq_or_gt hx hy, F32.le_iff_lt_or_eq hx hy,
      fun _ _ => ⟨?_, ?_⟩⟩⟩
  · simp [F32.lt, F32.le, F32.gt, F32.ge, F32.eq, F32.ordered_eq_false hnan]
  · rw [F32.lt_iff hx hy, F32.key_lt_iff_value_lt]
  · rw [F32.eq_iff hx hy, F32.key_eq_iff_value_eq]

/-- Settles O60: the result's magnitude is within `h`. -/
theorem clampIsWithinBounds : Obligations.ClampIsWithinBounds := by
  intro w h hw hh hpos
  have hhn := F32.not_isNaN_of_isFinite hh
  have hkey : 0 ≤ F32.key h := ((F32.gt_iff hhn rfl).1 hpos).le
  have hwithin := withinMagnitude_fclamp hw hh hkey
  have hcn := F32.not_isNaN_of_isFinite (hwithin.isFinite hh)
  rw [withinMagnitude_iff hcn hhn, abs_le] at hwithin
  rw [F32.le_iff (by simpa using hhn) hcn, F32.le_iff hcn hhn, F32.key_neg]
  exact hwithin

/-- Settles O19: the counter after `n` ticks is `prev + n` modulo 2^32. -/
theorem moduloDifferenceIsElapsedTime : Obligations.ModuloDifferenceIsElapsedTime :=
  ⟨mdiff_eq, mdiff_add_ofNat⟩

end Sys2Proof.Machine
end

section
/-! PROOFS. The Bounded Queue and the share (41_queue_share.md R140 to R151): a run of puts, the ring
registers of 10_state.md R32 as the same queue, and who gives SCQ its entries. -/

namespace Sys2Proof.Machine

/-! ### A run of puts -/

/-- On a queue within its capacity, puts with no get between leave the last `cap` entries of the queue
followed by the values put. -/
theorem foldl_queuePut {ε : Type} {cap : Nat} (hcap : 0 < cap) (vs : List ε) {l : List ε}
    (h : l.length ≤ cap) :
    vs.foldl (queuePut cap) l = (l ++ vs).drop (l.length + vs.length - cap) := by
  induction vs generalizing l with
  | nil =>
    rw [List.foldl_nil, List.append_nil, List.length_nil, Nat.add_zero, Nat.sub_eq_zero_of_le h,
      List.drop_zero]
  | cons v vs ih =>
    have hdrop : l.length + 1 - cap ≤ (l ++ [v]).length := by
      rw [List.length_append, List.length_singleton]
      omega
    rw [List.foldl_cons, ih (length_queuePut_le hcap h v), queuePut_eq_drop hcap h,
      ← List.drop_append_of_le_length hdrop, List.drop_drop, List.append_assoc,
      List.singleton_append, List.length_drop, List.length_append, List.length_singleton,
      List.length_cons]
    congr 1
    omega

/-- At least `cap` puts leave nothing of what the queue held before. -/
theorem foldl_queuePut_of_cap_le {ε : Type} {cap : Nat} (hcap : 0 < cap) {vs l : List ε}
    (h : l.length ≤ cap) (hvs : cap ≤ vs.length) :
    vs.foldl (queuePut cap) l = vs.drop (vs.length - cap) := by
  rw [foldl_queuePut hcap vs h, Nat.add_sub_assoc hvs, List.drop_length_add_append]

/-- A run of puts into one queue of the machine is that run on its items. -/
theorem State.items_foldl_put (q : QueueId) (vs : List Entry) (s : State) :
    (vs.foldl (fun t v => t.put q v) s).items q = vs.foldl (queuePut (queueCap q)) (s.items q) := by
  induction vs generalizing s with
  | nil => rfl
  | cons v vs ih => rw [List.foldl_cons, ih, State.items_put_self, List.foldl_cons]

/-- A queue holds the last CAP of the values put (R141 (c)). -/
theorem State.items_foldl_put_of_cap_le {q : QueueId} {s : State} {vs : List Entry}
    (h : (s.items q).length ≤ queueCap q) (hvs : queueCap q ≤ vs.length) :
    (vs.foldl (fun t v => t.put q v) s).items q = vs.drop (vs.length - queueCap q) := by
  rw [State.items_foldl_put, foldl_queuePut_of_cap_le (queueCap_pos q) h hvs]

/-! ### The ring registers (10_state.md R32) -/

namespace RingBuffer

theorem ok_iff (r : RingBuffer) :
    r.ok = true ↔ 0 < r.cap ∧ r.mem.length = r.cap ∧ r.rd < r.cap ∧ r.cnt ≤ r.cap := by
  simp [ok, and_assoc]

@[simp] theorem length_items (r : RingBuffer) : r.items.length = r.cnt := by simp [items]

theorem items_eq_nil_iff (r : RingBuffer) : r.items = [] ↔ r.cnt = 0 := by
  rw [← List.length_eq_zero_iff, length_items]

/-- The ring without its oldest entry: what `get` leaves in the registers (R142). -/
def dropOldest (r : RingBuffer) : RingBuffer :=
  { r with rd := (r.rd + 1) % r.cap, cnt := r.cnt - 1 }

theorem get_eq_none_iff (r : RingBuffer) : r.get = none ↔ r.cnt = 0 := by simp [get]

theorem get_eq_some_iff (r r' : RingBuffer) (v : Entry) :
    r.get = some (v, r') ↔ r.cnt ≠ 0 ∧ v = r.cell r.rd ∧ r' = r.dropOldest := by
  by_cases h : r.cnt = 0 <;> simp [get, dropOldest, h, eq_comm]

theorem ok_dropOldest {r : RingBuffer} (h : r.ok = true) : r.dropOldest.ok = true := by
  rw [ok_iff] at h ⊢
  obtain ⟨hcap, hmem, _, hcnt⟩ := h
  exact ⟨hcap, hmem, Nat.mod_lt _ hcap, (Nat.sub_le _ _).trans hcnt⟩

/-- Without its oldest entry the ring has room. -/
theorem dropOldest_cnt_lt_cap {r : RingBuffer} (hok : r.ok = true) :
    r.dropOldest.cnt < r.dropOldest.cap := by
  obtain ⟨hcap, _, _, hcnt⟩ := r.ok_iff.1 hok
  change r.cnt - 1 < r.cap
  omega

/-- The entry at `rd` is the oldest, and the others stand one place further on the ring. -/
theorem items_eq_cons {r : RingBuffer} (h : r.cnt ≠ 0) :
    r.items = r.cell r.rd :: r.dropOldest.items := by
  obtain ⟨n, hn⟩ := Nat.exists_eq_succ_of_ne_zero h
  simp [items, dropOldest, cell, hn, List.range_succ_eq_map, Nat.add_assoc, Nat.add_comm 1]

/-- The positions of a full turn of the ring are different slots. -/
theorem slot_ne {r : RingBuffer} {i j : Nat} (hij : i < j) (hj : j < r.cap) :
    (r.rd + j) % r.cap ≠ (r.rd + i) % r.cap := by
  intro h
  have hmod : j ≡ i [MOD r.cap] := Nat.ModEq.add_left_cancel' r.rd h
  have := hmod.eq_of_lt_of_lt hj (hij.trans hj)
  omega

/-- On a ring with room, `put` writes the slot after the newest entry. -/
theorem put_of_lt {r : RingBuffer} (h : r.cnt < r.cap) (v : Entry) :
    r.put v = { r with mem := r.mem.set ((r.rd + r.cnt) % r.cap) v, cnt := r.cnt + 1 } :=
  if_neg h.ne

/-- On a full ring, `put` is a drop of the oldest entry and a put into the room this makes. -/
theorem put_of_full {r : RingBuffer} (hok : r.ok = true) (hfull : r.cnt = r.cap) (v : Entry) :
    r.put v = r.dropOldest.put v := by
  obtain ⟨hcap, _, hrd, _⟩ := r.ok_iff.1 hok
  have hslot : ((r.rd + 1) % r.cap + (r.cnt - 1)) % r.cap = r.rd := by
    rw [Nat.mod_add_mod, show r.rd + 1 + (r.cnt - 1) = r.rd + r.cap by omega, Nat.add_mod_right,
      Nat.mod_eq_of_lt hrd]
  have hcnt : r.cnt - 1 + 1 = r.cnt := by omega
  rw [put_of_lt (dropOldest_cnt_lt_cap hok), put, if_pos hfull]
  simp only [dropOldest, hslot, hcnt]

theorem ok_put_of_lt {r : RingBuffer} (hok : r.ok = true) (h : r.cnt < r.cap) (v : Entry) :
    (r.put v).ok = true := by
  rw [put_of_lt h]
  rw [ok_iff] at hok ⊢
  obtain ⟨hcap, hmem, hrd, _⟩ := hok
  exact ⟨hcap, List.length_set.trans hmem, hrd, h⟩

theorem items_put_of_lt {r : RingBuffer} (hok : r.ok = true) (h : r.cnt < r.cap) (v : Entry) :
    (r.put v).items = r.items ++ [v] := by
  obtain ⟨hcap, hmem, _, _⟩ := r.ok_iff.1 hok
  have hslot : (r.rd + r.cnt) % r.cap < r.mem.length := by
    rw [hmem]
    exact Nat.mod_lt _ hcap
  rw [put_of_lt h, items, items, List.range_succ, List.map_append]
  congr 1
  · refine List.map_congr_left fun i hi => ?_
    have hne := slot_ne (r := r) (List.mem_range.1 hi) h
    simp [cell, List.getElem?_set_ne hne]
  · simp [cell, hslot]

@[simp] theorem put_cap (r : RingBuffer) (v : Entry) : (r.put v).cap = r.cap := by
  unfold put; split <;> rfl

theorem ok_put {r : RingBuffer} (hok : r.ok = true) (v : Entry) : (r.put v).ok = true := by
  obtain ⟨_, _, _, hcnt⟩ := r.ok_iff.1 hok
  rcases hcnt.lt_or_eq with h | hfull
  · exact ok_put_of_lt hok h v
  · rw [put_of_full hok hfull]
    exact ok_put_of_lt (ok_dropOldest hok) (dropOldest_cnt_lt_cap hok) v

/-- The put on the registers is the put on the sequence (R140). -/
theorem items_put {r : RingBuffer} (hok : r.ok = true) (v : Entry) :
    (r.put v).items = queuePut r.cap r.items v := by
  obtain ⟨hcap, _, _, hcnt⟩ := r.ok_iff.1 hok
  rcases hcnt.lt_or_eq with h | hfull
  · rw [items_put_of_lt hok h, queuePut_of_lt (by rwa [length_items])]
  · have hcons := items_eq_cons (r := r) (by omega)
    have hlen : (r.cell r.rd :: r.dropOldest.items).length = r.cap := by
      rw [← hcons, length_items, hfull]
    rw [put_of_full hok hfull, items_put_of_lt (ok_dropOldest hok) (dropOldest_cnt_lt_cap hok),
      hcons, queuePut_of_full hlen]

/-- Full or not, the slot written is `(rd + cnt) mod CAP` (R141 (e)). -/
theorem put_mem {r : RingBuffer} (hok : r.ok = true) (v : Entry) :
    (r.put v).mem = r.mem.set ((r.rd + r.cnt) % r.cap) v := by
  obtain ⟨_, _, hrd, _⟩ := r.ok_iff.1 hok
  unfold put
  split
  · next hfull => rw [hfull, Nat.add_mod_right, Nat.mod_eq_of_lt hrd]
  · rfl

end RingBuffer

/-! ### The obligations -/

/-- Settles O7: both forms of the put are `queuePut`. -/
theorem queuePutDropsTheOldest : Obligations.QueuePutDropsTheOldest :=
  ⟨exec_qPut, fun r v hok => ⟨RingBuffer.ok_put hok v, r.put_cap v, RingBuffer.items_put hok v⟩⟩

/-- Settles O8: both forms of the get leave the queue without its oldest entry. -/
theorem queueGetTakesTheOldest : Obligations.QueueGetTakesTheOldest := by
  refine ⟨fun _ _ _ _ hq => exec_qGet_cons hq, fun r r' v hok hget => ?_,
    fun r _ => r.get_eq_none_iff.trans r.items_eq_nil_iff.symm⟩
  obtain ⟨hcnt, rfl, rfl⟩ := (r.get_eq_some_iff r' v).1 hget
  exact ⟨RingBuffer.ok_dropOldest hok, RingBuffer.items_eq_cons hcnt⟩

/-- Settles O9: clause (b) is the run of clause (c) for three values and a capacity of two. -/
theorem overflowLosesOnlyTheOldest : Obligations.OverflowLosesOnlyTheOldest := by
  refine ⟨fun q s v x rest hq hfull => ?_, fun q s a b c hq hcap => ?_,
    fun q s vs => State.items_foldl_put_of_cap_le, fun q s v => ⟨_, rfl⟩,
    fun _ v hok => RingBuffer.put_mem hok v⟩
  · rw [exec_qPut, State.put_of_full hq hfull]
  · have hrun := State.items_foldl_put_of_cap_le (q := q) (s := s) (vs := [a, b, c])
      (by simp [hq]) (by simp [hcap])
    simpa [hcap] using hrun

/-- A step of the sequencer outside Idle takes no command (45_state_machine.md R190). -/
theorem exec_sm_keeps_scq {s t : State} (hms : s.ms ≠ .idle) (h : exec s.ms.instr s = .next t) :
    t.scq = s.scq := by
  rcases exec_sm_cases h with ⟨_, rfl⟩ | ⟨_, _, hidle, _⟩ | ⟨_, _, _, rfl⟩
  · rfl
  · exact absurd hidle hms
  · rw [sequence_eq]

/-- Settles O4: a finite operand goes into its queue by one put. -/
theorem hostCommandsAreQueued : Obligations.HostCommandsAreQueued :=
  ⟨fun _ _ => exec_sm_keeps_scq, fun v s => ⟨decodeHcmd_putTorque v, decodeHcmd_putSpeed v,
    fun hfin => ⟨exec_putTorque_ok hfin s, exec_putSpeed_ok hfin s⟩⟩⟩

/-- Settles O11: the put is one write of ASPD, the get one of the model's own field `ret`. -/
theorem shareHoldsTheLastValue : Obligations.ShareHoldsTheLastValue := ⟨exec_shPut, exec_shGet⟩

end Sys2Proof.Machine
end

section
/-! PROOFS. The clock and the edge (42_edge_capture.md R160 to R163). -/

namespace Sys2Proof.Machine

theorem decodeId_tickAdv (q : QueueId) (v : Entry) : decodeId 0x20 q v = .ok .tickAdv := rfl

theorem decodeId_ecCapture (q : QueueId) (v : Entry) : decodeId 0x21 q v = .ok .ecCapture := rfl

/-- R160 words the poll count with a test for 0; the truncated subtraction is the same number. -/
theorem State.advanceTick_pollCnt_toNat (s : State) :
    s.advanceTick.pollCnt.toNat = if 0 < s.pollCnt.toNat then s.pollCnt.toNat - 1 else 0 := by
  rw [s.advanceTick_toNat.2]
  split
  · rfl
  · omega

/-- A tick writes TICK and POLL_CNT and nothing else. -/
theorem State.advanceTick_frame (s : State) :
    s.advanceTick = { s with tick := s.advanceTick.tick, pollCnt := s.advanceTick.pollCnt } := rfl

/-- The edge's handler is one put of TICK to TSQ (R162). -/
theorem State.takeEdge_eq_put (s : State) : s.takeEdge = s.put .tsq s.tick := rfl

/-- A put to TSQ writes TSQ and nothing else. -/
theorem State.put_tsq_frame (s : State) (v : Entry) :
    s.put .tsq v = { s with tsq := queuePut Config.tsqCap s.tsq v } := rfl

/-- Settles O15: the operation is the model's one tick, its counters read as numbers. -/
theorem tickAdvances : Obligations.TickAdvances :=
  ⟨fun _ => rfl, decodeId_tickAdv, fun s =>
    ⟨s.advanceTick, exec_tickAdv s, s.advanceTick_toNat.1, s.advanceTick_pollCnt_toNat,
      s.advanceTick_frame⟩⟩

/-- Settles O16: the obligation writes out `queuePut` at TSQ's capacity of four. -/
theorem edgeCapturesTheTick : Obligations.EdgeCapturesTheTick := by
  refine ⟨decodeId_ecCapture, fun s => ?_⟩
  rw [exec_ecCapture, State.takeEdge_eq_put, State.put_tsq_frame, queuePut, Config.tsqCap]

end Sys2Proof.Machine
end

section
/-! PROOFS. The speed estimator (43_speed_estimator.md R170 to R176): the published magnitude falls
as the interval grows, so its two bounds are its values at the longest and the shortest interval. -/

namespace Sys2Proof.Machine

/-! ### The sign and the order of products and quotients -/

theorem F32.signBit_mul_of_finite {x y : Num32} (hx : F32.isFinite x = true)
    (hy : F32.isFinite y = true) : F32.signBit (F32.mul x y) = F32.signXor x y := by
  rw [F32.mul_of_finite hx hy, F32.signBit_pack _ (F32.round_lt_pow _ _)]

theorem F32.signBit_div_of_finite {x y : Num32} (hx : F32.isFinite x = true)
    (hy : F32.isFinite y = true) (h0 : F32.mag y ≠ 0) :
    F32.signBit (F32.div x y) = F32.signXor x y := by
  rw [F32.div_of_finite hx hy h0, F32.signBit_pack _ (F32.round_lt_pow _ _)]

/-- A quotient is monotone in the magnitude of its dividend (R131 NP3). -/
theorem F32.mag_div_mono {x x' y : Num32} (hx : F32.isFinite x = true)
    (hx' : F32.isFinite x' = true) (hy : F32.isFinite y = true) (h0 : F32.mag y ≠ 0)
    (h : F32.mag x ≤ F32.mag x') : F32.mag (F32.div x y) ≤ F32.mag (F32.div x' y) := by
  rw [F32.mag_div_of_finite hx hy h0, F32.mag_div_of_finite hx' hy h0]
  have hu : F32.units (F32.mag x) ≤ F32.units (F32.mag x') := F32.units_le_iff.2 h
  have hy0 : 0 < F32.units (F32.mag y) := F32.units_pos (Nat.pos_of_ne_zero h0)
  exact F32.round_mono hy0 hy0 (Nat.mul_le_mul_right _ (Nat.mul_le_mul_right _ hu))

/-- A quotient is antitone in the magnitude of its divisor. -/
theorem F32.mag_div_antitone {x y y' : Num32} (hx : F32.isFinite x = true)
    (hy : F32.isFinite y = true) (hy' : F32.isFinite y' = true) (h0 : F32.mag y ≠ 0)
    (h : F32.mag y ≤ F32.mag y') : F32.mag (F32.div x y') ≤ F32.mag (F32.div x y) := by
  have h0' : F32.mag y' ≠ 0 := by omega
  rw [F32.mag_div_of_finite hx hy h0, F32.mag_div_of_finite hx hy' h0']
  have hu : F32.units (F32.mag y) ≤ F32.units (F32.mag y') := F32.units_le_iff.2 h
  exact F32.round_mono (F32.units_pos (Nat.pos_of_ne_zero h0'))
    (F32.units_pos (Nat.pos_of_ne_zero h0)) (Nat.mul_le_mul_left _ hu)

/-- The order of two finite magnitudes is that of their bits 30:0; a literal with the sign bit
clear is its own `fabs`. -/
theorem F32.le_abs_iff {x y : Num32} (hx : F32.isFinite x = true) (hy : F32.isFinite y = true) :
    F32.le (F32.abs x) (F32.abs y) = true ↔ F32.mag x ≤ F32.mag y := by
  rw [F32.le_iff (by simpa using F32.not_isNaN_of_isFinite hx)
    (by simpa using F32.not_isNaN_of_isFinite hy), F32.key_abs_eq_mag, F32.key_abs_eq_mag,
    Int.ofNat_le]

/-! ### The interval and the published magnitude (R170, R173) -/

theorem F32.isFinite_ofU32 {n : Nat} (h1 : 1 ≤ n) (h2 : n < 2 ^ 32) :
    F32.isFinite (F32.ofU32 n) = true :=
  (F32.isFinite_iff _).2 ((F32.mag_ofU32_bounds h1 h2).2.trans_lt (by decide))

theorem mag_ticksToSec_mono {m n : Nat} (h1 : 1 ≤ m) (hmn : m ≤ n) (h2 : n < 2 ^ 32) :
    F32.mag (ticksToSec Numerics.f32 m) ≤ F32.mag (ticksToSec Numerics.f32 n) := by
  have hle : F32.mag (F32.ofU32 m) ≤ F32.mag (F32.ofU32 n) := by
    rw [F32.mag_ofU32, F32.mag_ofU32]
    exact F32.round_mono Nat.one_pos Nat.one_pos
      (Nat.mul_le_mul_right _ (Nat.mul_le_mul_right _ hmn))
  rw [ticksToSec_f32, ticksToSec_f32]
  exact F32.mag_div_mono (F32.isFinite_ofU32 h1 (by omega)) (F32.isFinite_ofU32 (by omega) h2)
    (by decide) (by decide) hle

/-- The reciprocal of an interval, the number of edges per second, falls as the interval grows. -/
theorem mag_reciprocal_antitone {m n : Nat} (h1 : 1 ≤ m) (hmn : m ≤ n) (h2 : n < 2 ^ 32) :
    F32.mag (F32.div 0x3F800000 (ticksToSec Numerics.f32 n)) ≤
      F32.mag (F32.div 0x3F800000 (ticksToSec Numerics.f32 m)) :=
  F32.mag_div_antitone (by decide) (isFinite_ticksToSec h1 (by omega))
    (isFinite_ticksToSec (by omega) h2) (mag_ticksToSec_ne_zero h1 (by omega))
    (mag_ticksToSec_mono h1 hmn h2)

/-- The reciprocal of an interval is finite, since that of one tick is. -/
theorem isFinite_reciprocal {n : Nat} (h1 : 1 ≤ n) (h2 : n < 2 ^ 32) :
    F32.isFinite (F32.div 0x3F800000 (ticksToSec Numerics.f32 n)) = true :=
  (F32.isFinite_iff _).2
    ((mag_reciprocal_antitone le_rfl h1 h2).trans_lt (by decide))

theorem estMagnitude_eq_mul_reciprocal (dt : Nat) :
    estMagnitude Numerics.f32 dt =
      F32.mul (F32.div 0x3F800000 (ticksToSec Numerics.f32 dt)) 0x41700000 := by
  rw [estMagnitude_f32, ticksToSec_f32]

/-- A longer interval publishes no greater speed. -/
theorem mag_estMagnitude_antitone {m n : Nat} (h1 : 1 ≤ m) (hmn : m ≤ n) (h2 : n < 2 ^ 32) :
    F32.mag (estMagnitude Numerics.f32 n) ≤ F32.mag (estMagnitude Numerics.f32 m) := by
  rw [estMagnitude_eq_mul_reciprocal, estMagnitude_eq_mul_reciprocal]
  exact F32.mag_mul_mono (isFinite_reciprocal (by omega) h2) (isFinite_reciprocal h1 (by omega))
    (by decide) (mag_reciprocal_antitone h1 hmn h2)

theorem mag_estMagnitude_shortest : F32.mag (estMagnitude Numerics.f32 1) = 0x4B64E1C0 := by
  decide

theorem mag_estMagnitude_longest :
    F32.mag (estMagnitude Numerics.f32 (2 ^ 32 - 1)) = 0x3B64E1C0 := by
  decide

theorem mag_estMagnitude_bounds {dt : Nat} (h1 : 1 ≤ dt) (h2 : dt < 2 ^ 32) :
    0x3B64E1C0 ≤ F32.mag (estMagnitude Numerics.f32 dt) ∧
      F32.mag (estMagnitude Numerics.f32 dt) ≤ 0x4B64E1C0 :=
  ⟨mag_estMagnitude_longest ▸ mag_estMagnitude_antitone h1 (by omega) (by decide),
    mag_estMagnitude_shortest ▸ mag_estMagnitude_antitone le_rfl h1 h2⟩

/-- Of three positive factors the product is positive. -/
theorem signBit_estMagnitude {dt : Nat} (h1 : 1 ≤ dt) (h2 : dt < 2 ^ 32) :
    F32.signBit (estMagnitude Numerics.f32 dt) = false := by
  rw [estMagnitude_eq_mul_reciprocal,
    F32.signBit_mul_of_finite (isFinite_reciprocal h1 h2) (by decide), F32.signXor,
    F32.signBit_div_of_finite (by decide) (isFinite_ticksToSec h1 h2)
      (mag_ticksToSec_ne_zero h1 h2), F32.signXor, signBit_ticksToSec h1 h2]
  decide

/-! ### The published speed -/

theorem mag_estSpeed (dt : Nat) (d : Polarity) :
    F32.mag (estSpeed Numerics.f32 dt d) = F32.mag (estMagnitude Numerics.f32 dt) := by
  rw [estSpeed_f32]
  split
  · rfl
  · rw [F32.mag_neg]

/-- The published speed has the sign of the driver's polarity (R172). -/
theorem signBit_estSpeed_iff {dt : Nat} (h1 : 1 ≤ dt) (h2 : dt < 2 ^ 32) (d : Polarity) :
    F32.signBit (estSpeed Numerics.f32 dt d) = true ↔ d = .reverse := by
  cases d <;> simp [estSpeed_f32, signBit_estMagnitude h1 h2]

theorem mdiff_pos {cur prev : Tick} (h : cur ≠ prev) : 1 ≤ mdiff cur prev :=
  Nat.pos_of_ne_zero (mt (mdiff_eq_zero_iff cur prev).1 h)

/-- EST_STEP on a timestamp other than the previous one publishes (R170). -/
theorem exec_estStep_publishes {s : State} {cur : Tick} {rest : List Tick}
    (h : s.tsq = cur :: rest) (hne : cur ≠ s.estPrev) :
    exec .estStep s = .next { s with
      tsq := rest, estPrev := cur,
      aspd := estSpeed Numerics.f32 (mdiff cur s.estPrev) s.drv.pol } := by
  rw [exec_estStep_cons h, if_neg (mt (mdiff_eq_zero_iff _ _).1 hne)]

/-! ### The obligations -/

theorem decodeId_estStep (q : QueueId) (v : Entry) : decodeId 0x22 q v = .ok .estStep := rfl

/-- Settles O20: the step as one record, its difference and speed read as the rule writes them. -/
theorem estStepPublishesTheSpeed : Obligations.EstStepPublishesTheSpeed := by
  refine ⟨decodeId_estStep, fun s => s.toBlock.estEnabled_iff, ?_⟩
  rintro s cur rest dt _ htsq hdt rfl
  obtain rfl : dt = mdiff cur s.estPrev := Int.ofNat_inj.1 (hdt.trans (mdiff_eq _ _).symm)
  rw [exec_estStep_cons htsq, estSpeed_f32, estMagnitude_f32, ite_not]

/-- Settles O21: the published speed has its interval's magnitude and the polarity's sign. -/
theorem publishedSpeedIsInRange : Obligations.PublishedSpeedIsInRange := by
  intro s cur rest htsq hne
  have h1 := mdiff_pos hne
  have h2 := mdiff_lt cur s.estPrev
  have hfin := isFinite_estSpeed h1 h2 s.drv.pol
  obtain ⟨hlo, hhi⟩ := mag_estMagnitude_bounds h1 h2
  rw [← mag_estSpeed _ s.drv.pol] at hlo hhi
  exact ⟨_, exec_estStep_publishes htsq hne, hfin,
    (F32.le_abs_iff (x := 0x3B64E1C0) (by decide) hfin).2 hlo,
    (F32.le_abs_iff (y := 0x4B64E1C0) hfin (by decide)).2 hhi,
    signBit_estSpeed_iff h1 h2 _⟩

/-- Settles O37: both states wait or both take one timestamp, and both publish or neither does. -/
theorem estimatorReadsOnlyItsInputs : Obligations.EstimatorReadsOnlyItsInputs := by
  intro s t s' t' htsq hprev hpol hs ht
  rcases hq : t.tsq with _ | ⟨cur, rest⟩
  · rw [exec_estStep_blocked (htsq.trans hq)] at hs
    rw [exec_estStep_blocked hq] at ht
    cases hs; cases ht
    exact ⟨htsq, hprev, rfl, .inr ⟨rfl, rfl⟩⟩
  · rw [exec_estStep_cons (htsq.trans hq), hprev, hpol] at hs
    rw [exec_estStep_cons hq] at ht
    cases hs; cases ht
    refine ⟨rfl, rfl, rfl, ?_⟩
    by_cases hdt : mdiff cur t.estPrev = 0
    · exact .inr ⟨if_pos hdt, if_pos hdt⟩
    · exact .inl ((if_neg hdt).trans (if_neg hdt).symm)

end Sys2Proof.Machine
end

section
/-! PROOFS. The torque integrator (44_torque_integrator.md R180 to R186): the clamped time step, the
clamped speed and the speed in rpm that it becomes. -/

namespace Sys2Proof.Machine

/-! ### The time step (R113, R182) -/

theorem clampTicks_of_nonpos {d : Int} (h : d ≤ 0) : clampTicks d = 1000 :=
  Int.ofNat_inj.1 ((clampTicks_eq d).trans (if_pos h))

theorem clampTicks_of_stale {d : Int} (h : 1000000 ≤ d) : clampTicks d = 1000000 :=
  Int.ofNat_inj.1 ((clampTicks_eq d).trans ((if_neg (by omega)).trans (if_pos h)))

theorem clampTicks_of_inside {d : Int} (h1 : 1 ≤ d) (h2 : d ≤ 999999) : (clampTicks d : Int) = d :=
  (clampTicks_eq d).trans ((if_neg (by omega)).trans (if_neg (by omega)))

theorem sdiff_neg_iff (now last : Tick) : sdiff now last < 0 ↔ now.toNat < last.toNat := by
  unfold sdiff
  omega

/-- The fallback step is the Num nearest to one millisecond. -/
theorem ticksToSec_fallback : ticksToSec Numerics.f32 1000 = F32.lit (1 / 1000) := by
  rw [F32.lit, one_div, Rat.inv_ofNat_num, Rat.inv_ofNat_den]
  decide

/-- The longest step is 1.0 s. -/
theorem ticksToSec_longest : ticksToSec Numerics.f32 1000000 = F32.lit 1 := by
  decide

/-! ### The envelope (R184) -/

/-- Within a limit whose sign is plus lies what has no greater magnitude, up to an infinite limit. -/
theorem withinMagnitude_of_mag_le {x limit : Num32} (hl : F32.isNaN limit = false)
    (hs : F32.signBit limit = false) (h : F32.mag x ≤ F32.mag limit) : WithinMagnitude x limit := by
  have hx : F32.isNaN (F32.abs x) = false := by
    rw [F32.isNaN_abs]
    exact F32.isNaN_of_mag_le (h.trans (by simpa [F32.isNaN] using hl))
  have hkey : F32.key limit = F32.mag limit := by simp [F32.key, hs]
  rw [WithinMagnitude, F32.le_iff hx hl, F32.key_abs_eq_mag, hkey]
  exact_mod_cast h

/-- `|w| ≤ limit`, read as the two bounds of the clamp. -/
theorem WithinMagnitude.bounds {w limit : Num32} (h : WithinMagnitude w limit)
    (hl : F32.isFinite limit = true) :
    F32.le (F32.neg limit) w = true ∧ F32.le w limit = true := by
  have hw := F32.not_isNaN_of_isFinite (h.isFinite hl)
  have hln := F32.not_isNaN_of_isFinite hl
  rw [withinMagnitude_iff hw hln, abs_le] at h
  rw [F32.le_iff (by simpa using hln) hw, F32.le_iff hw hln, F32.key_neg]
  exact h

/-- A speed within OMEGA_MAX is within RPM_MAX once it is in rpm, also where RPM_MAX overflows. -/
theorem withinMagnitude_radToRpm {c : Cfg} {w : Num32} (hc : cfgOk c = true)
    (hw : WithinMagnitude w c.omegaMax) : WithinMagnitude (radToRpm Numerics.f32 w) (rpmMax c) := by
  obtain ⟨-, hW, hW0⟩ := cfgOk_keys hc
  have hsign : F32.signBit c.omegaMax = false := ((F32.zero_lt_key_iff _).1 hW0).1
  rw [rpmMax, radToRpm_f32, radToRpm_f32]
  refine withinMagnitude_of_mag_le (F32.isNaN_mul_of_finite hW (by decide)) ?_
    (F32.mag_mul_mono (hw.isFinite hW) hW (by decide) hw.mag_le)
  rw [F32.signBit_mul_of_finite hW (by decide), F32.signXor, hsign]
  decide

/-! ### What the integrator reads (R183, R186(d)) -/

theorem Block.integrated_congr {α : Type} (N : Numerics α) (tq : α) {b b' : Block α}
    (htick : b.tick = b'.tick) (hlast : b.intLast = b'.intLast) (haspd : b.aspd = b'.aspd)
    (hcfg : b.cfg = b'.cfg) : b.integrated N tq = b'.integrated N tq := by
  rw [Block.integrated, Block.integrated, htick, hlast, haspd, hcfg]

/-! ### The obligations -/

theorem decodeId_intStep (q : QueueId) (v : Entry) : decodeId 0x23 q v = .ok .intStep := rfl

/-- Settles O22: the step as one record, its time step and its clamped Euler sum read as the rule
writes them. -/
theorem intStepIntegratesOnce : Obligations.IntStepIntegratesOnce := by
  refine ⟨decodeId_intStep, fun s => s.toBlock.intEnabled_iff, ?_⟩
  rintro s tq rest _ dtTicks _ _ _ _ _ hc htqq rfl hdt rfl rfl rfl rfl rfl
  obtain rfl : dtTicks = clampTicks (sdiff s.tick s.intLast) :=
    Int.ofNat_inj.1 (hdt.trans (clampTicks_eq _).symm)
  rw [exec_intStep_cons htqq hc, Block.integrated_f32, fclamp_f32, eulerSpeed_f32, radToRpm_f32]

/-- Settles O23: the clamp by its three ranges, and the two fixed time steps evaluated. -/
theorem timeStepIsClamped : Obligations.TimeStepIsClamped :=
  ⟨fun _ => clampTicks_of_nonpos, fun _ => clampTicks_of_stale, fun _ => clampTicks_of_inside,
    sdiff_neg_iff, fun _ _ => ⟨clampTicks_pos _, clampTicks_le _⟩,
    ticksToSec_fallback, ticksToSec_longest⟩

/-- Settles O24: the clamped speed is within OMEGA_MAX, and the conversion to rpm is monotone in the
magnitude. -/
theorem integratorStaysInTheEnvelope : Obligations.IntegratorStaysInTheEnvelope := by
  refine ⟨by decide, fun s tq rest hc htqq htq haspd => ?_⟩
  have hw := withinMagnitude_integrated (b := s.toBlock) hc htq haspd
  obtain ⟨hlo, hhi⟩ := hw.bounds (cfgOk_keys hc).2.1
  have hout := withinMagnitude_radToRpm hc hw
  rw [WithinMagnitude, rpmMax, radToRpm_f32 s.cfg.omegaMax] at hout
  exact ⟨_, _, exec_intStep_cons htqq hc, rfl, hlo, hhi, hout⟩

/-- Settles O39: both states wait, or both take the same torque and integrate it to the same speed. -/
theorem integratorReadsOnlyItsInputs : Obligations.IntegratorReadsOnlyItsInputs := by
  intro s t s' t' htqq htick hlast haspd hcfg hs ht
  rcases exec_intStep_cases ht with ⟨hq, rfl⟩ | ⟨tq, rest, hq, hc, rfl⟩
  · rw [exec_intStep_blocked (htqq.trans hq)] at hs
    cases hs
    exact ⟨htqq, hlast, rfl, rfl, .inl ⟨rfl, rfl, rfl, rfl⟩⟩
  · rw [exec_intStep_cons (htqq.trans hq) (hcfg ▸ hc),
      Block.integrated_congr _ tq htick hlast haspd hcfg] at hs
    cases hs
    exact ⟨rfl, htick, rfl, rfl, .inr ⟨rfl, _, rfl, rfl⟩⟩

end Sys2Proof.Machine
end

section
/-! PROOFS. The pairing of the driver words (45_state_machine.md R205): a script without a reset fires no
RESET, and each evaluation of the sequencer appends words that fit the state it leaves. -/

namespace Sys2Proof.Machine

/-! ### What a script without a reset fires -/

/-- A frame that names RESET is the id 0x00 (30_encoding.md R90). -/
theorem noResetFrame_of_decode {f : Frame} (h : decode f = some (.ok .reset)) :
    noResetFrame f = false := by
  obtain ⟨hhcmd, hdrv, hid⟩ := encodeOfDecode
  cases f with
  | hcmd w => cases hhcmd w _ (Option.some.inj h)
  | drvCmd w => cases hdrv w _ (Option.some.inj h)
  | opId id q v =>
    obtain rfl : Instr.reset.id = id := hid id q v _ (Option.some.inj h)
    rfl
  | stepSM | sense | rstN | settle => cases h

theorem State.RunningScript.agentScript {s : State} (hs : s.RunningScript) : s.AgentScript := by
  obtain ⟨-, hall⟩ := hs
  rw [List.all_eq_true] at hall
  exact List.all_eq_true.2 fun f hf => (Bool.and_eq_true_iff.1 (hall f hf)).1

/-- The frame at the head of such a script resets nothing, and the rest is such a script. -/
theorem State.RunningScript.of_cons {s : State} {f : Frame} {rest : List Frame}
    (hs : s.RunningScript) (h : s.script = f :: rest) :
    noResetFrame f = true ∧ (s.withScript rest).RunningScript := by
  obtain ⟨hrst, hall⟩ := hs
  rw [h, List.all_cons, Bool.and_eq_true, Bool.and_eq_true] at hall
  obtain ⟨⟨-, hfirst⟩, hrest⟩ := hall
  exact ⟨hfirst, hrst, hrest⟩

/-- The two states agree on all that the pairing speaks of. -/
def State.SameWords (s u : State) : Prop := u.ms = s.ms ∧ u.drv = s.drv ∧ u.drvOut = s.drvOut

theorem State.BrakePaired.of_sameWords {s u : State} (hs : s.BrakePaired) (h : s.SameWords u) :
    u.BrakePaired := by
  obtain ⟨hms, hdrv, hout⟩ := h
  rwa [State.BrakePaired, hms, hdrv, hout]

theorem autoInstr_ne_reset (s : State) : s.autoInstr ≠ .reset := by
  rcases s.autoInstr_cases with h | h | h | h <;> rw [h]
  case inr.inr.inl => cases s.ms <;> decide
  all_goals decide

theorem fetch_run_runningScript {s u : State} {i : Instr} (hs : s.RunningScript)
    (h : fetch s = .run i u) : i ≠ .reset ∧ u.RunningScript ∧ s.SameWords u := by
  rcases fetch_eq_run h with ⟨hlow, _⟩ | ⟨_, _, rfl, rfl⟩ | ⟨_, f, rest, hc, hf⟩
  · exact absurd (hs.1.symm.trans hlow) (by decide)
  · exact ⟨autoInstr_ne_reset _, hs, rfl, rfl, rfl⟩
  · obtain ⟨hfirst, hrest⟩ := hs.of_cons hc
    rcases fetchFrame_eq_run hf with ⟨hd, rfl⟩ | ⟨_, rfl, rfl⟩ | ⟨_, _, rfl, rfl⟩ | ⟨rfl, _, _⟩ |
      ⟨rfl, hi, rfl⟩
    · refine ⟨?_, hrest, rfl, rfl, rfl⟩
      rintro rfl
      exact absurd (hfirst.symm.trans (noResetFrame_of_decode hd)) (by decide)
    · exact ⟨by cases (s.withScript rest).ms <;> decide, hrest, rfl, rfl, rfl⟩
    · exact ⟨by decide, hrest, rfl, rfl, rfl⟩
    · cases hfirst
    · refine ⟨?_, ?_, rfl, rfl, rfl⟩
      · rcases State.settleInstr_cases hi with rfl | rfl | rfl <;> decide
      · rwa [State.withScript_script, State.withScript_cons_eq hc]

theorem fetch_pass_runningScript {s u : State} (hs : s.RunningScript) (h : fetch s = .pass u) :
    u.RunningScript ∧ s.SameWords u := by
  rcases fetch_eq_pass h with ⟨hlow, _⟩ | ⟨_, f, rest, hc, hf⟩
  · exact absurd (hs.1.symm.trans hlow) (by decide)
  · obtain ⟨-, hrst, hrest⟩ := hs.of_cons hc
    rcases fetchFrame_eq_pass hf with ⟨_, rfl⟩ | ⟨level, _, rfl⟩ | ⟨_, rfl⟩ | ⟨_, _, rfl⟩
    · exact ⟨⟨hrst, hrest⟩, rfl, rfl, rfl⟩
    · exact ⟨⟨hrst, hrest⟩, rfl, rfl, rfl⟩
    · exact ⟨⟨rfl, hrest⟩, rfl, rfl, rfl⟩
    · exact ⟨⟨hrst, hrest⟩, rfl, rfl, rfl⟩

/-! ### The words of one evaluation -/

/-- An evaluation sends no word and stays on its side of the brake, or sends one of the four groups of
words that R205 pairs, each with the side it starts on and the side it ends on. -/
theorem smNext_braking_cases {α : Type} (N : Numerics α) (m : MotionState) (c a : α) (d : Polarity) :
    ((smNext N m c a d).2 = [] ∧ motionBrakes (smNext N m c a d).1 = motionBrakes m) ∨
    (motionBrakes m = false ∧ smNext N m c a d = goAccelerate N c) ∨
    (motionBrakes m = false ∧ smNext N m c a d = goDecelerate N) ∨
    (motionBrakes m = true ∧ smNext N m c a d = (.idle, [.unbrake, .commandSpeed (N.fabs c)])) ∨
    ∃ p, motionBrakes m = true ∧ smNext N m c a d = crossTo N p c := by
  rcases smNext_cases N m c a d with ⟨rfl, e⟩ | ⟨rfl, e⟩ | ⟨rfl, e⟩ | ⟨rfl, e⟩ | ⟨rfl, e⟩ |
    ⟨rfl, e⟩ | ⟨rfl, e⟩ | ⟨rfl, e⟩ | ⟨rfl, e⟩ | ⟨rfl, e⟩ | ⟨rfl, e⟩ <;> rw [e]
  · exact .inl ⟨rfl, rfl⟩
  · exact .inr (.inl ⟨rfl, rfl⟩)
  · exact .inr (.inr (.inl ⟨rfl, rfl⟩))
  · exact .inl ⟨rfl, rfl⟩
  · exact .inl ⟨rfl, rfl⟩
  · exact .inr (.inr (.inr (.inl ⟨rfl, rfl⟩)))
  · exact .inl ⟨rfl, rfl⟩
  · exact .inl ⟨rfl, rfl⟩
  · exact .inl ⟨rfl, rfl⟩
  · exact .inr (.inr (.inr (.inr ⟨_, rfl, rfl⟩)))
  · exact .inr (.inr (.inr (.inr ⟨_, rfl, rfl⟩)))

theorem paired_append_smNext {m : MotionState} {c a : Num32} {d : Polarity} {l : List PortWord}
    (h : Paired (motionBrakes m) l) :
    Paired (motionBrakes (smNext Numerics.f32 m c a d).1)
      (l ++ (smNext Numerics.f32 m c a d).2.map DrvWord.word) := by
  rcases smNext_braking_cases Numerics.f32 m c a d with ⟨hw, hb⟩ | ⟨hm, e⟩ | ⟨hm, e⟩ | ⟨hm, e⟩ |
    ⟨p, hm, e⟩
  · rwa [hw, hb, List.map_nil, List.append_nil]
  all_goals rw [hm] at h; rw [e]
  · exact .speed c h
  · exact .brake h
  · exact .unbrake c h
  · exact .cross p c h

/-- The driver is braked in every braking state that an evaluation ends in. -/
theorem braked_after_smNext {α : Type} (N : Numerics α) {m : MotionState} {c a : α} {d : Polarity}
    {v : Drv α} (hv : motionBrakes m = true → v.brk = .braked)
    (h : motionBrakes (smNext N m c a d).1 = true) :
    ((smNext N m c a d).2.foldl Drv.obey v).brk = .braked := by
  rcases smNext_braking_cases N m c a d with ⟨hw, hb⟩ | ⟨_, e⟩ | ⟨_, e⟩ | ⟨_, e⟩ | ⟨p, _, e⟩
  · rw [hw]; exact hv (hb ▸ h)
  all_goals rw [e] at h ⊢
  · cases h
  · rfl
  · cases h
  · cases h

theorem State.BrakePaired.sequence {s : State} (hs : s.BrakePaired) (c : Num32) :
    (sequence s.ms c s).BrakePaired := by
  obtain ⟨hwords, hbrk⟩ := hs
  rw [sequence_eq]
  exact ⟨paired_append_smNext hwords, braked_after_smNext Numerics.f32 hbrk⟩

/-! ### The agents' operations -/

theorem brakePaired_of_exec_sm {m : MotionState} {s t : State} (hs : s.BrakePaired)
    (h : exec m.instr s = .next t) : t.BrakePaired := by
  rcases exec_sm_cases h with ⟨_, rfl⟩ | ⟨c, rest, rfl, hms, _, rfl⟩ | ⟨_, rfl, _, rfl⟩
  · exact hs
  · have hs' : State.BrakePaired { s with scq := rest, smCmd := c } := hs
    have := hs'.sequence c
    rwa [show ({ s with scq := rest, smCmd := c } : State).ms = .idle from hms] at this
  · exact hs.sequence _

theorem brakePaired_of_exec {i : Instr} {s t : State} (hi : isAgentStep i = true) (hne : i ≠ .reset)
    (hs : s.BrakePaired) (h : exec i s = .next t) : t.BrakePaired := by
  cases i with
  | reset => exact absurd rfl hne
  | putTorque v => obtain ⟨-, rfl⟩ := exec_putTorque_cases h; exact hs
  | putSpeed v => obtain ⟨-, rfl⟩ := exec_putSpeed_cases h; exact hs
  | tickAdv | ecCapture => cases h; exact hs
  | estStep => rcases exec_estStep_cases h with ⟨_, rfl⟩ | ⟨_, _, _, rfl⟩ <;> exact hs
  | intStep => rcases exec_intStep_cases h with ⟨_, rfl⟩ | ⟨_, _, _, _, rfl⟩ <;> exact hs
  | smIdle => exact brakePaired_of_exec_sm (m := .idle) hs h
  | smAcc => exact brakePaired_of_exec_sm (m := .accelerating) hs h
  | smDec => exact brakePaired_of_exec_sm (m := .decelerating) hs h
  | smXhl => exact brakePaired_of_exec_sm (m := .crossHighToLow) hs h
  | smXlh => exact brakePaired_of_exec_sm (m := .crossLowToHigh) hs h
  | setDirection | brake | unbrake | commandSpeed | getDirection | qPut | qGet | shPut | shGet =>
    cases hi

/-! ### The obligations -/

/-- Settles O44: the script fires the agents' operations and no RESET, in a state with the same words,
and each of them keeps the pairing. -/
theorem everyStepKeepsWordsPaired : Obligations.EveryStepKeepsWordsPaired := by
  intro s t hscript hs h
  rcases step_eq_next_cases h with ⟨i, u, hf, hx⟩ | hf
  · obtain ⟨hi, -, -⟩ := fetch_run_agentScript hscript.agentScript hf
    obtain ⟨hne, hu, hsame⟩ := fetch_run_runningScript hscript hf
    obtain ⟨-, hkept, hrst⟩ := exec_keeps_cfg_script_rstLow hx
    exact ⟨by rwa [State.RunningScript, hkept, hrst],
      brakePaired_of_exec hi hne (hs.of_sameWords hsame) hx⟩
  · obtain ⟨ht, hsame⟩ := fetch_pass_runningScript hscript hf
    exact ⟨ht, hs.of_sameWords hsame⟩

/-- Settles O45: no word is emitted in `S0`, and Idle does not brake. -/
theorem wordsArePairedAtReset : Obligations.WordsArePairedAtReset := fun _ =>
  ⟨⟨.start, nofun⟩, rfl, rfl⟩

end Sys2Proof.Machine
end

section
/-! PROOFS. The sequencer (45_state_machine.md R190 to R206): each operation as one record, the graph of
its transitions, the words it sends, and what it reads. -/

namespace Sys2Proof.Machine

/-! ### The Idle decision table (R191) -/

/-- Of `gt` and `lt` at most one holds, whatever the operands are. -/
theorem F32.not_gt_and_lt (x y : Num32) : ¬ (F32.gt x y = true ∧ F32.lt x y = true) := by
  simp only [F32.gt, F32.lt, Bool.and_eq_true, decide_eq_true_eq]
  omega

/-- Finite Nums on two sides of zero under `gt`: the first is not negative, the second is. -/
theorem F32.signs_of_gt {x y : Num32} (hx : F32.isFinite x = true) (hy : F32.isFinite y = true)
    (hgt : F32.gt x y = true) (hs : F32.ge x 0 ≠ F32.ge y 0) :
    F32.ge x 0 = true ∧ F32.lt y 0 = true := by
  have hxn := F32.not_isNaN_of_isFinite hx
  have hyn := F32.not_isNaN_of_isFinite hy
  have h0 : F32.isNaN 0 = false := by decide
  rw [F32.gt_iff hxn hyn] at hgt
  rw [Ne, Bool.eq_iff_iff, F32.ge_iff hxn h0, F32.ge_iff hyn h0] at hs
  rw [F32.ge_iff hxn h0, F32.lt_iff hyn h0]
  omega

theorem F32.eq_of_not_gt_of_not_lt {x y : Num32} (hx : F32.isFinite x = true)
    (hy : F32.isFinite y = true) (hgt : F32.gt x y = false) (hlt : F32.lt x y = false) :
    F32.eq x y = true := by
  have hxn := F32.not_isNaN_of_isFinite hx
  have hyn := F32.not_isNaN_of_isFinite hy
  rw [← Bool.not_eq_true, F32.gt_iff hxn hyn] at hgt
  rw [← Bool.not_eq_true, F32.lt_iff hxn hyn] at hlt
  rw [F32.eq_iff hxn hyn]
  omega

/-- Settles O27: the rows by the function's Idle branch, the signs by the order of the keys. -/
theorem idleDecisionTable : Obligations.IdleDecisionTable := by
  intro c a d hc ha
  have hngt : F32.lt c a = true → ¬ F32.gt c a = true := fun hlt hgt =>
    F32.not_gt_and_lt c a ⟨hgt, hlt⟩
  rw [smNext_idle]
  refine ⟨?_, ?_, ?_, ?_, ?_, ?_, ?_, F32.not_gt_and_lt c a, F32.signs_of_gt hc ha, ?_⟩
  · rintro hgt hs rfl; rw [if_pos hgt, if_pos ⟨hs, rfl⟩]
  · rintro hgt - rfl; rw [if_pos hgt, if_neg (by simp)]
  · intro hgt hs; rw [if_pos hgt, if_neg fun h => hs h.1]
  · rintro hlt - rfl; rw [if_neg (hngt hlt), if_pos hlt, if_neg (by simp)]
  · rintro hlt hs rfl; rw [if_neg (hngt hlt), if_pos hlt, if_pos ⟨hs, rfl⟩]
  · intro hlt hs; rw [if_neg (hngt hlt), if_pos hlt, if_neg fun h => hs h.1]
  · intro hgt hlt
    rw [if_neg (by simp [hgt]), if_neg (by simp [hlt])]
    exact ⟨rfl, F32.eq_of_not_gt_of_not_lt hc ha hgt hlt⟩
  · intro hlt hs
    exact F32.signs_of_gt ha hc (F32.gt_eq_lt_swap a c ▸ hlt) hs.symm

/-! ### The operations as records (R190 to R197) -/

/-- The state that an answer of the sequencer's function leads to: the driver obeys its words, and
POLL_CNT is loaded unless the next state is Idle (R200, R202). -/
def State.afterAnswer (s : State) (r : MotionState × List (DrvWord Num32)) : State :=
  { s with
    ms := r.1, pollCnt := if r.1 = .idle then s.pollCnt else 10000,
    drv := r.2.foldl Drv.obey s.drv, drvOut := s.drvOut ++ r.2.map DrvWord.word }

theorem sequence_eq_afterAnswer (m : MotionState) (c : Num32) (s : State) :
    sequence m c s = s.afterAnswer (smNext Numerics.f32 m c s.aspd s.drv.pol) := rfl

theorem State.afterAnswer_idle_nil (s : State) :
    s.afterAnswer (.idle, []) = { s with ms := .idle } := by
  simp [State.afterAnswer]

theorem State.afterAnswer_nil (s : State) {m : MotionState} (hm : m ≠ .idle) :
    s.afterAnswer (m, []) = { s with ms := m, pollCnt := 10000 } := by
  simp [State.afterAnswer, hm]

/-- Staying in a polled state without a word only loads the poll timer. -/
theorem State.afterAnswer_stay {s : State} {m : MotionState} (hs : s.ms = m) (hm : m ≠ .idle) :
    s.afterAnswer (m, []) = { s with pollCnt := 10000 } := by
  rw [s.afterAnswer_nil hm, ← hs]

/-- The operation of a polled state whose poll is due (R193, R194, R196, R197). -/
theorem exec_polled_due {s : State} {m : MotionState} (hm : m ≠ .idle) (hs : s.ms = m)
    (hpoll : s.pollCnt = 0) :
    exec m.instr s = .next (s.afterAnswer (smNext Numerics.f32 m s.smCmd s.aspd s.drv.pol)) :=
  exec_polled ((s.smEnabled_polled_iff hm).2 ⟨hs, hpoll⟩) hm

/-- Settles O28: the evaluation in Idle on the command taken, branch by branch. -/
theorem smIdleTakesACommand : Obligations.SmIdleTakesACommand := by
  refine ⟨decodeS_code .idle, fun s => s.smEnabled_idle_iff, ?_⟩
  rintro s _ _ c rest hms hscq rfl rfl
  rw [exec_smIdle_cons hms hscq, sequence_eq_afterAnswer, smNext_idle]
  split_ifs
  · rfl
  · rfl
  · rfl
  · rfl
  · rw [State.afterAnswer_idle_nil, ← hms]

/-- Settles O29: Accelerating answers without a word, and stays unless the speed is in the band. -/
theorem smAccWaitsForTheBand : Obligations.SmAccWaitsForTheBand := by
  refine ⟨decodeS_code .accelerating, fun s => s.smEnabled_polled_iff (by decide), ?_⟩
  intro s hms hpoll
  refine (exec_polled_due (by decide) hms hpoll).trans ?_
  rw [smNext_accelerating, apply_ite s.afterAnswer, s.afterAnswer_idle_nil,
    State.afterAnswer_stay hms (by decide)]

/-- Settles O30: Decelerating with one sign and with two, in the band and out of it. -/
theorem smDecBrakesOrCrosses : Obligations.SmDecBrakesOrCrosses := by
  refine ⟨decodeS_code .decelerating, fun s => s.smEnabled_polled_iff (by decide), ?_⟩
  intro s hms hpoll
  refine (exec_polled_due (by decide) hms hpoll).trans (congrArg _ ?_)
  rw [smNext_decelerating]
  split_ifs
  · rfl
  · exact State.afterAnswer_stay hms (by decide)
  · exact s.afterAnswer_nil (by decide)
  · exact s.afterAnswer_nil (by decide)
  · exact State.afterAnswer_stay hms (by decide)

/-- Settles O34: the two polled operations with the band test decided. -/
theorem deadbandEndsInIdle : Obligations.DeadbandEndsInIdle := by
  obtain ⟨-, -, hacc⟩ := smAccWaitsForTheBand
  obtain ⟨-, -, hdec⟩ := smDecBrakesOrCrosses
  intro s hpoll hband
  refine ⟨fun hms => ?_, fun hms hs => ?_, fun hms hs hzero => ?_⟩
  · rw [hacc s hms hpoll, if_pos hband]
    exact ⟨_, rfl, rfl, rfl⟩
  · rw [hdec s hms hpoll, if_pos hs, if_pos hband]
    exact ⟨_, rfl, rfl, rfl⟩
  · rw [hdec s hms hpoll, if_neg hs, if_pos hzero]
    split_ifs
    · exact ⟨_, rfl, .inl rfl, rfl⟩
    · exact ⟨_, rfl, .inr rfl, rfl⟩

/-! ### Into and out of the cross states (R194, R196 to R198) -/

theorem exec_writes_ms {i : Instr} {s t : State} (h : exec i s = .next t) (hne : t.ms ≠ s.ms) :
    i = .reset ∨ i = s.ms.instr := by
  obtain ⟨-, -, -, -, -, -, -, -, hms, -⟩ := registersHaveTheirWriters i s t h
  exact hms hne

/-- The cross state that is entered at standstill under this polarity, to reverse it (R194). -/
def crossFrom : Polarity → MotionState
  | .reverse => .crossHighToLow
  | .forward => .crossLowToHigh

/-- Only Decelerating answers with a cross state, the one that belongs to the polarity. -/
theorem smNext_eq_crossFrom {α : Type} {N : Numerics α} {m : MotionState} {c a : α} {d p : Polarity}
    (h : (smNext N m c a d).1 = crossFrom p) : m = .decelerating ∧ d = p := by
  cases m with
  | decelerating =>
    rw [smNext] at h
    split_ifs at h with _ _ _ hd
    · cases p <;> cases h
    · cases p <;> cases h
    · cases p <;> cases h
      exact ⟨rfl, hd⟩
    · cases p <;> cases h
      cases d
      · exact ⟨rfl, rfl⟩
      · exact absurd rfl hd
    · cases p <;> cases h
  | idle | accelerating => rw [smNext] at h; cases p <;> split_ifs at h <;> cases h
  | crossHighToLow | crossLowToHigh => cases p <;> cases h

/-- No operation but SM_DEC enters a cross state: MS is written by RESET, which sets Idle, and by the
sequencer (10_state.md R30). -/
theorem exec_enters_crossFrom {i : Instr} {s t : State} {p : Polarity} (h : exec i s = .next t)
    (hs : s.ms ≠ crossFrom p) (ht : t.ms = crossFrom p) : i = .smDec ∧ s.drv.pol = p := by
  rcases exec_writes_ms h (ht ▸ hs.symm) with rfl | rfl
  · cases h
    cases p <;> cases ht
  · rcases exec_sm_cases h with ⟨_, rfl⟩ | ⟨c, rest, hm, _, _, rfl⟩ | ⟨_, _, _, rfl⟩
    · exact absurd ht hs
    · obtain ⟨hm', _⟩ := smNext_eq_crossFrom ht
      cases hm'
    · obtain ⟨hm, hd⟩ := smNext_eq_crossFrom ht
      exact ⟨congrArg MotionState.instr hm, hd⟩

/-- Settles O31: one evaluation leaves a cross state, and only SM_DEC enters one. -/
theorem crossStatesReverse : Obligations.CrossStatesReverse := by
  refine ⟨decodeS_code .crossHighToLow, decodeS_code .crossLowToHigh,
    fun s => ⟨s.smEnabled_polled_iff (by decide), s.smEnabled_polled_iff (by decide)⟩,
    fun i s t h => ⟨exec_enters_crossFrom (p := .reverse) h, exec_enters_crossFrom (p := .forward) h⟩,
    fun s hms hpoll => ?_, fun s hms hpoll => ?_⟩
  · refine (exec_polled_due (by decide) hms hpoll).trans ?_
    rw [smNext_crossHighToLow]
    rfl
  · refine (exec_polled_due (by decide) hms hpoll).trans ?_
    rw [smNext_crossLowToHigh]
    rfl

/-! ### The graph and its words (R199, R203) -/

/-- What an operation that is enabled does to MS and to the output of DRV_CMD is one answer of the
sequencer's function. -/
theorem exec_sm_answer {m : MotionState} {s t : State} (he : s.smEnabled m = true)
    (h : exec m.instr s = .next t) :
    ∃ c, t.ms = (smNext Numerics.f32 m c s.aspd s.drv.pol).1 ∧
      t.drvOut = s.drvOut ++ (smNext Numerics.f32 m c s.aspd s.drv.pol).2.map DrvWord.word := by
  rcases exec_sm_cases h with ⟨hd, _⟩ | ⟨c, rest, rfl, _, _, rfl⟩ | ⟨_, _, _, rfl⟩
  · exact absurd (he.symm.trans hd) (by decide)
  · exact ⟨c, rfl, rfl⟩
  · exact ⟨s.smCmd, rfl, rfl⟩

/-- Settles O32: the answers of the sequencer's function, edge by edge. -/
theorem transitionGraphIsClosed : Obligations.TransitionGraphIsClosed := by
  intro m s t he h
  obtain ⟨c, hms, hout⟩ := exec_sm_answer he h
  rw [hms, hout, List.drop_left, List.take_left]
  refine ⟨?_, rfl⟩
  rcases smNext_cases Numerics.f32 m c s.aspd s.drv.pol with ⟨rfl, e⟩ | ⟨rfl, e⟩ | ⟨rfl, e⟩ |
    ⟨rfl, e⟩ | ⟨rfl, e⟩ | ⟨rfl, e⟩ | ⟨rfl, e⟩ | ⟨rfl, e⟩ | ⟨rfl, e⟩ | ⟨rfl, e⟩ | ⟨rfl, e⟩ <;>
    simp [e, goAccelerate, goDecelerate, crossTo, DrvWord.word]

/-- Bit 31 of a port word is the sign of its operand. -/
theorem portWord_getLsbD_sign (op : OpId) (v : Num32) :
    (PortWord.mk op v).getLsbD 31 = F32.signBit v := by
  rw [PortWord.mk, BitVec.getLsbD_append, if_pos (by decide)]
  exact BitVec.msb_eq_decide v

/-- Of the words of an evaluation, those that command a speed have the sign bit clear. -/
theorem signBit_clear_of_commandSpeed {m : MotionState} {c a : Num32} {d : Polarity}
    {x : DrvWord Num32} (hx : x ∈ (smNext Numerics.f32 m c a d).2) (hop : x.word.op = 0x13) :
    x.word.getLsbD 31 = false := by
  cases x with
  | setDirection p => simp [DrvWord.word] at hop
  | brake | unbrake => simp [DrvWord.word] at hop
  | commandSpeed v =>
    rw [DrvWord.word, portWord_getLsbD_sign]
    rcases smNext_commandSpeed _ hx with rfl | rfl
    · rfl
    · exact F32.signBit_abs c

/-- An agent's operation that sends words is the one that MS selects (10_state.md R30). -/
theorem eq_instr_of_agent_writes_drvOut {i : Instr} {s t : State} (hi : isAgentStep i = true)
    (h : exec i s = .next t) (hne : t.drvOut ≠ s.drvOut) : i = s.ms.instr := by
  obtain ⟨-, -, -, -, -, -, -, -, -, -, -, -, -, -, -, hout, -⟩ :=
    registersHaveTheirWriters i s t h
  rcases hout hne with rfl | rfl | rfl | ⟨p, rfl⟩ | ⟨v, rfl⟩
  · rfl
  all_goals cases hi

/-- Settles O33: an agent's words are the sequencer's, whose speeds are 0 or a magnitude. -/
theorem commandSpeedIsNeverNegative : Obligations.CommandSpeedIsNeverNegative := by
  intro i s t hi h w hw hop
  by_cases hsame : t.drvOut = s.drvOut
  · simp [hsame] at hw
  obtain rfl : i = s.ms.instr := eq_instr_of_agent_writes_drvOut hi h hsame
  by_cases he : s.smEnabled s.ms = true
  · obtain ⟨c, -, hout⟩ := exec_sm_answer he h
    rw [hout, List.drop_left, List.mem_map] at hw
    obtain ⟨x, hx, rfl⟩ := hw
    exact signBit_clear_of_commandSpeed hx hop
  · rw [exec_polled_blocked (by simpa using he)] at h
    cases h
    exact absurd rfl hsame

/-! ### The poll timer (R200) -/

theorem advanceTick_iterate (n : Nat) (s : State) :
    (State.advanceTick^[n] s).ms = s.ms ∧
      (State.advanceTick^[n] s).pollCnt.toNat = s.pollCnt.toNat - n := by
  induction n with
  | zero => exact ⟨rfl, rfl⟩
  | succ n ih =>
    obtain ⟨hms, hpoll⟩ := ih
    rw [Function.iterate_succ_apply', State.advanceTick_ms, (State.advanceTick_toNat _).2, hpoll]
    exact ⟨hms, by omega⟩

/-- Settles O18: the timer is loaded with 10000 and each tick takes one off, down to 0. -/
theorem pollWaitsTenThousandTicks : Obligations.PollWaitsTenThousandTicks := by
  refine ⟨fun s => s.smEnabled_idle_iff, fun m c s => ?_⟩
  have hload : (sequence m c s).pollCnt =
      if (sequence m c s).ms = .idle then s.pollCnt else 10000 := rfl
  refine ⟨fun hidle => by rw [hload, if_pos hidle], fun hm n => ?_⟩
  obtain ⟨hms, hpoll⟩ := advanceTick_iterate n (sequence m c s)
  rw [hload, if_neg hm] at hpoll
  have hleft : (State.advanceTick^[n] (sequence m c s)).pollCnt.toNat = 10000 - n := hpoll
  refine ⟨hleft, ?_⟩
  rw [Block.smEnabled_polled_iff _ hm, and_iff_right hms, ← BitVec.toNat_inj, hleft]
  exact Nat.sub_eq_zero_iff_le

/-! ### What the sequencer reads (R206) -/

theorem smEnabled_congr {s t : State} (hms : s.ms = t.ms) (hpoll : s.pollCnt = t.pollCnt)
    (hscq : s.scq = t.scq) (m : MotionState) : s.smEnabled m = t.smEnabled m := by
  rw [Block.smEnabled, Block.smEnabled, Block.pollDue, Block.pollDue, hms, hpoll, hscq]

/-- What a step of the sequencer writes is the same in the runs from `s` to `s'` and from `t` to `t'`. -/
def SameSequencing (s s' t t' : State) : Prop :=
  s'.ms = t'.ms ∧ s'.smCmd = t'.smCmd ∧ s'.pollCnt = t'.pollCnt ∧ s'.scq = t'.scq ∧
    s'.drv = t'.drv ∧ s'.drvOut.drop s.drvOut.length = t'.drvOut.drop t.drvOut.length

theorem sequence_congr {s t : State} (hcmd : s.smCmd = t.smCmd) (hpoll : s.pollCnt = t.pollCnt)
    (hscq : s.scq = t.scq) (haspd : s.aspd = t.aspd) (hdrv : s.drv = t.drv) (m : MotionState)
    (c : Num32) : SameSequencing s (sequence m c s) t (sequence m c t) := by
  simp [SameSequencing, sequence_eq, hcmd, hpoll, hscq, haspd, hdrv]

/-- Settles O38: both states wait, both take the same command, or both evaluate the command held. -/
theorem sequencerReadsOnlyItsInputs : Obligations.SequencerReadsOnlyItsInputs := by
  intro s t s' t' hms hcmd hpoll hscq haspd hdrv hs ht
  change SameSequencing s s' t t'
  rw [hms] at hs
  rcases exec_sm_cases ht with ⟨he, rfl⟩ | ⟨c, rest, hm, _, hq, rfl⟩ | ⟨hm, _, hdue, rfl⟩
  · rw [exec_polled_blocked ((smEnabled_congr hms hpoll hscq _).trans he)] at hs
    cases hs
    exact ⟨hms, hcmd, hpoll, hscq, hdrv, by simp⟩
  · rw [hm] at hs
    rw [MotionState.instr, exec_smIdle_cons (hms.trans hm) (hscq.trans hq)] at hs
    cases hs
    exact sequence_congr (s := { s with scq := rest, smCmd := c })
      (t := { t with scq := rest, smCmd := c }) rfl hpoll rfl haspd hdrv .idle c
  · rw [exec_polled ((s.smEnabled_polled_iff hm).2 ⟨hms, hpoll.trans hdue⟩) hm, hcmd] at hs
    cases hs
    exact sequence_congr hcmd hpoll hscq haspd hdrv _ _

end Sys2Proof.Machine
end

section
/-! PROOFS. The driver port's operations run alone (46_driver_port.md R220 to R225): the words as
numbers, the reference driver's registers, and the sample of the polarity. -/

namespace Sys2Proof

/-- The words of R86 that carry no speed, as numbers. -/
theorem DrvWord.word_of_fixed_operand :
    DrvWord.word (.setDirection .forward) = 0x1000000000 ∧
    DrvWord.word (.setDirection .reverse) = 0x1000000001 ∧
    DrvWord.word .brake = 0x1100000000 ∧ DrvWord.word .unbrake = 0x1200000000 := by decide

/-- The code of R88 as an operand: 0 for Forward, 1 for Reverse. -/
theorem Polarity.arg_eq_ite (p : Polarity) : p.arg = if p = .forward then 0 else 1 := by
  cases p <;> decide

end Sys2Proof

namespace Sys2Proof.Machine

/-- One word on DRV_CMD as one record: the reference driver's registers and the words emitted change,
and nothing else does (R220). -/
theorem State.emit_eq (s : State) (w : DrvWord Num32) :
    s.emit w = { s with drv := s.drv.obey w, drvOut := s.drvOut ++ [w.word] } := rfl

/-- Settles O13: each operation is one word sent, which is the number of R86 or the op with the speed
behind it. -/
theorem driverWordsActAtOnce : Obligations.DriverWordsActAtOnce := by
  obtain ⟨hforward, hreverse, hbrake, hunbrake⟩ := DrvWord.word_of_fixed_operand
  refine ⟨fun s => ?_, fun s => ?_, fun s => ?_, fun s => ?_, fun m s => ?_⟩
  · rw [exec_setDirection, State.emit_eq, hforward]; rfl
  · rw [exec_setDirection, State.emit_eq, hreverse]; rfl
  · rw [exec_brake, State.emit_eq, hbrake]; rfl
  · rw [exec_unbrake, State.emit_eq, hunbrake]; rfl
  · rw [exec_commandSpeed, State.emit_eq]; rfl

/-- Settles O14: the sample is the code of the polarity, and the driver obeys SET_DIRECTION at once. -/
theorem getDirectionSamplesThePolarity : Obligations.GetDirectionSamplesThePolarity := by
  refine ⟨fun s => ?_, fun p s t h => ?_⟩
  · rw [exec_getDirection, Polarity.arg_eq_ite]; rfl
  · rw [exec_setDirection, State.emit_eq] at h
    cases h
    rfl

end Sys2Proof.Machine
end

section
/-! PROOFS. Stops and the schedule (60_exceptions.md R240, R242, R246, R247): what each operation
that can wait or stop answers under an admitted configuration, and which operation is taken when no
event is given. -/

namespace Sys2Proof.Machine

/-! ### Every operation answers (R240, R242) -/

/-- EST_STEP waits or takes a timestamp; either way it answers a next state. -/
theorem exists_next_estStep (s : State) : ∃ t, exec .estStep s = .next t := by
  by_cases h : s.tsq = []
  · exact ⟨s, exec_estStep_blocked h⟩
  · exact (estStep_settles h).imp fun _ => And.left

/-- INT_STEP waits or takes a torque: a configuration that R8 admits is not refused. -/
theorem exists_next_intStep {s : State} (hc : cfgOk s.cfg = true) :
    ∃ t, exec .intStep s = .next t := by
  by_cases h : s.tqq = []
  · exact ⟨s, exec_intStep_blocked h⟩
  · exact (intStep_settles hc h).imp fun _ => And.left

/-- The operation of each state of the sequencer waits, takes a command or evaluates the one held. -/
theorem exists_next_sm (m : MotionState) (s : State) : ∃ t, exec m.instr s = .next t := by
  by_cases he : s.smEnabled m = true
  · by_cases hm : m = .idle
    · subst hm
      obtain ⟨hidle, hscq⟩ := s.smEnabled_idle_iff.1 he
      exact (smIdle_settles hidle hscq).imp fun _ => And.left
    · exact ⟨_, exec_polled he hm⟩
  · exact ⟨s, exec_polled_blocked (Bool.eq_false_iff.2 he)⟩

theorem exists_next_qGet (q : QueueId) (s : State) : ∃ t, exec (.qGet q) s = .next t := by
  rcases h : s.items q with _ | ⟨v, rest⟩
  · exact ⟨s, exec_qGet_blocked h⟩
  · exact ⟨_, exec_qGet_cons h⟩

/-- Settles O36: the two host commands by whether the operand is finite; every other operation
answers. -/
theorem onlyNonFiniteOperandsAreRefused : Obligations.OnlyNonFiniteOperandsAreRefused := by
  intro i s hc
  cases i with
  | putTorque v =>
    cases hv : F32.isFinite v
    · exact .inr ⟨v, .inl rfl, hv⟩
    · exact .inl ⟨_, exec_putTorque_ok hv s⟩
  | putSpeed v =>
    cases hv : F32.isFinite v
    · exact .inr ⟨v, .inr rfl, hv⟩
    · exact .inl ⟨_, exec_putSpeed_ok hv s⟩
  | estStep => exact .inl (exists_next_estStep s)
  | intStep => exact .inl (exists_next_intStep hc)
  | smIdle => exact .inl (exists_next_sm .idle s)
  | smAcc => exact .inl (exists_next_sm .accelerating s)
  | smDec => exact .inl (exists_next_sm .decelerating s)
  | smXhl => exact .inl (exists_next_sm .crossHighToLow s)
  | smXlh => exact .inl (exists_next_sm .crossLowToHigh s)
  | qGet q => exact .inl (exists_next_qGet q s)
  | reset | setDirection | brake | unbrake | commandSpeed | getDirection | tickAdv | ecCapture |
    qPut | shPut | shGet => exact .inl ⟨_, rfl⟩

/-! ### The schedule when no event is given (R246, R247) -/

/-- The schedule's choice in terms of what waits in the queues. -/
theorem State.autoInstr_eq (s : State) :
    s.autoInstr = if s.tsq ≠ [] then .estStep
      else if s.tqq ≠ [] then .intStep
      else if s.smEnabled s.ms = true then s.ms.instr
      else .tickAdv := by
  simp only [State.autoInstr, Block.estEnabled_iff, Block.intEnabled_iff]

theorem fetch_nil {s : State} (hr : s.rstLow = false) (h : s.script = []) :
    fetch s = .run s.autoInstr s := by
  simp [fetch, hr, h]

/-- Settles O50: with no event left the step runs the schedule's choice. -/
theorem idleScheduleFollowsPriority : Obligations.IdleScheduleFollowsPriority := by
  intro s hr hscript
  rw [step_run (fetch_nil hr hscript), State.autoInstr_eq]
  simp only [apply_ite exec, ite_apply]

end Sys2Proof.Machine
end

section
/-! PROOFS. Reset (70_reset_and_hazards.md R280, R284, R285): the operation, the pin RST_N, and the
state `S0`. -/

namespace Sys2Proof.Machine

/-! ### The pin (R284) -/

theorem decodeId_reset (q : QueueId) (v : Entry) : decodeId 0x00 q v = .ok .reset := rfl

theorem State.withScript_self {s : State} {l : List Frame} (h : s.script = l) :
    s.withScript l = s := by
  subst h
  rfl

theorem fetch_of_rstLow {s : State} (hr : s.rstLow = true) : fetch s = fetchInReset s := by
  simp [fetch, hr]

/-- Held in reset, every event but the release of the pin is spent on a RESET (log 18). -/
theorem fetchInReset_of_not_release {s : State} (h : s.script.head? ≠ some (.rstN true)) :
    fetchInReset s = .run .reset (s.withScript s.script.tail) := by
  unfold fetchInReset
  split
  · next hs => rw [hs, List.tail_nil, State.withScript_self hs]
  · next rest hs => exact absurd (congrArg List.head? hs) h
  · next f rest _ hs => rw [hs, List.tail_cons]

theorem fetchInReset_of_release {s : State} {rest : List Frame} (h : s.script = .rstN true :: rest) :
    fetchInReset s = .pass { s with rstLow := false, script := rest } := by
  simp [fetchInReset, h]

/-- RESET as one record: the registers at the values of R280, all the rest as it was. -/
theorem State.resetBlock_eq (s : State) :
    s.resetBlock = { s with
      tick := 0, tsq := [], tqq := [], scq := [], aspd := 0x00000000, estPrev := 0, intLast := 0,
      intOmega := 0x00000000, ms := .idle, smCmd := 0x00000000, pollCnt := 0, senseQ := true } := rfl

/-- Settles O1: the id's decoding, the operation as one record, and the fetch while the pin is
low. -/
theorem resetSetsEveryRegister : Obligations.ResetSetsEveryRegister :=
  ⟨decodeId_reset, fun s => (exec_reset s).trans (congrArg _ s.resetBlock_eq), fun _ hr h =>
    step_run ((fetch_of_rstLow hr).trans (fetchInReset_of_not_release h))⟩

/-- Settles O3: what the fetch finds at each of the pin's two edges. -/
theorem resetPinActsAtOnce : Obligations.ResetPinActsAtOnce :=
  ⟨fun _ _ hr h => step_run (fetch_cons hr h), fun _ _ hr h =>
    step_pass ((fetch_of_rstLow hr).trans (fetchInReset_of_release h))⟩

/-! ### The state `S0` (R285, R296) -/

section
variable {α : Type} {b : Block α}

theorem Block.settled_iff :
    b.settled = true ↔ b.tsq = [] ∧ b.tqq = [] ∧ b.ms = .idle ∧ b.scq = [] := by
  simp [Block.settled, and_assoc]

/-- In a settled state the sequencer waits: Idle has no command to take, and MS selects no polled
operation. -/
theorem Block.smEnabled_of_settled (h : b.settled = true) (m : MotionState) :
    b.smEnabled m = false := by
  obtain ⟨-, -, hms, hscq⟩ := Block.settled_iff.1 h
  rw [Bool.eq_false_iff, ne_eq]
  by_cases hm : m = .idle
  · subst hm
    rw [b.smEnabled_idle_iff]
    exact fun ⟨_, hne⟩ => hne hscq
  · rw [b.smEnabled_polled_iff hm]
    exact fun ⟨hsel, _⟩ => hm (hsel.symm.trans hms)

end

theorem State.settled_coldStart (c : Cfg) : (State.coldStart c).settled = true :=
  Block.settled_iff.2 ⟨rfl, rfl, rfl, rfl⟩

/-- Settles O2: the fields are those of the record, and `S0` is settled, so the sequencer waits. -/
theorem resetStateIsS0 : Obligations.ResetStateIsS0 := fun c =>
  ⟨rfl, rfl, rfl, rfl, rfl, rfl, rfl, rfl, rfl, rfl, rfl, rfl, rfl, rfl, rfl, rfl,
    Block.smEnabled_of_settled (State.settled_coldStart c), State.settled_coldStart c⟩

end Sys2Proof.Machine
end
